-- ==== Sys2Proof/Word.lean ====
section
/-! DEFINITION. The words of the block: the 32-bit bus word, the 544-bit operand register, and the
register numbers (spec 00_scope.md R7, 10_state.md R40, R50). -/

namespace Sys2Proof

/-- The 32-bit bus word: a command, a CSR, one word of an operand register (R7 `WORD`). -/
abbrev Word := BitVec 32

/-- The contents of one operand register: 17 words, 544 bits, word 0 least significant (R40). -/
abbrev Operand := BitVec 544

/-- A byte offset in the 4 KiB host window (R7: the host address has 12 bits; R90). -/
abbrev Offset := BitVec 12

/-- The number of an operand register, OP0 to OP15 (R40). -/
abbrev OpIdx := Fin 16

/-- The number of a point register, PT0 to PT7 (R50). -/
abbrev PtIdx := Fin 8

/-- The number of a word within an operand register, 0 to 16 (R40). -/
abbrev WordIdx := Fin 17

end Sys2Proof
end

