-- ==== Sys2Proof/Syntax.lean ====
section
/-! DEFINITION. The 29 commands of the block (spec 30_encoding.md R137), one constructor per row of
spec/opcode_table.json, with the operands of R138. A field that R138 marks `0` is no argument. A point
field is a `Fin 8`, so a value of 8 or more (R133) cannot be written. A field that R138 marks `c0` is an
`Option`: absent exactly when its flag says so. -/

namespace Sys2Proof

/-- The scalar-multiplication policy of a context: 0 = FAST, 1 = CT (R3, R134). -/
inductive Policy where
  | fast
  | ct
  deriving DecidableEq, Repr

/-- The Montgomery engine that FL[0] of an MM command selects: 0 = ENG_P, 1 = ENG_N (R136, R170). -/
inductive EngineSel where
  | p
  | n
  deriving DecidableEq, Repr

/-- A key slot: REG = 0, EPH = 1 in FL[0] of SET_KEYPAIR (R136, R52). -/
inductive KeySlot where
  | reg
  | eph
  deriving DecidableEq, Repr

/-- A command. Arguments carry the field names of R138: `rd re` are usually destinations, `ra rb rc`
usually sources. -/
inductive Instr where
  /-- 0x00 NOP (R201). -/
  | nop
  /-- 0x01 INIT: the policy bit and the 10-bit fieldBits (R134, R202). -/
  | init (policy : Policy) (fieldBits : BitVec 10)
  /-- 0x02 SET_DOMAIN: reads OP0 to OP6 (R203). -/
  | setDomain
  /-- 0x03 SET_STD_DOMAIN: the catalog id (R135, R208). -/
  | setStdDomain (cid : BitVec 8)
  /-- 0x04 GET_DOMAIN: writes OP0 to OP6 (R209). -/
  | getDomain
  /-- 0x05 GET_ORDER_BITS (R210). -/
  | getOrderBits
  /-- 0x10 MM_ENC (R173). -/
  | mmEnc (rd ra : OpIdx) (e : EngineSel)
  /-- 0x11 MM_DEC (R174). -/
  | mmDec (rd ra : OpIdx) (e : EngineSel)
  /-- 0x12 MM_MUL (R175). -/
  | mmMul (rd ra rb : OpIdx) (e : EngineSel)
  /-- 0x13 MM_SQR (R176). -/
  | mmSqr (rd ra : OpIdx) (e : EngineSel)
  /-- 0x14 MM_INV (R177). -/
  | mmInv (rd ra : OpIdx) (e : EngineSel)
  /-- 0x20 PT_SET_AFFINE: point `rd`, coordinates x = `ra`, y = `rb` (R272). -/
  | ptSetAffine (rd : PtIdx) (ra rb : OpIdx)
  /-- 0x21 PT_SET_PROJ: point `rd`, X = `ra`, Y = `rb`, Z = `rc` (R273). -/
  | ptSetProj (rd : PtIdx) (ra rb rc : OpIdx)
  /-- 0x22 PT_SET_INF (R274). -/
  | ptSetInf (rd : PtIdx)
  /-- 0x23 PT_GET_AFFINE: x to `rd`, y to `re`, from point `ra` (R275). -/
  | ptGetAffine (rd re : OpIdx) (ra : PtIdx)
  /-- 0x24 PT_CHECK (R276). -/
  | ptCheck (ra : PtIdx)
  /-- 0x25 PT_CMP (R277). -/
  | ptCmp (ra rb : PtIdx)
  /-- 0x26 PT_NEG (R278). -/
  | ptNeg (rd ra : PtIdx)
  /-- 0x27 PT_DBL (R282). -/
  | ptDbl (rd ra : PtIdx)
  /-- 0x28 PT_ADD (R283). -/
  | ptAdd (rd ra rb : PtIdx)
  /-- 0x30 PT_MUL: point `ra`, scalar `rb` (R333). -/
  | ptMul (rd ra : PtIdx) (rb : OpIdx)
  /-- 0x31 PT_MUL_BASE: scalar `ra` (R334). -/
  | ptMulBase (rd : PtIdx) (ra : OpIdx)
  /-- 0x32 PT_MUL2: P = `ra`, s1 = `rb`, Q = `rc`, s2 = `re`, where RE is a source (R335). -/
  | ptMul2 (rd ra : PtIdx) (rb : OpIdx) (rc : PtIdx) (re : OpIdx)
  /-- 0x40 GEN_KEYPAIR: private key to operand `rd`, public key to point `re` (R372). -/
  | genKeypair (rd : OpIdx) (re : PtIdx)
  /-- 0x41 DERIVE_PUB: private key `ra` (R373). -/
  | derivePub (rd : PtIdx) (ra : OpIdx)
  /-- 0x42 SET_KEYPAIR: FL[0] is the slot; `priv` is RA when FL[1] = 1, `pub` is RB when FL[2] = 1
  (R136, R374). -/
  | setKeypair (slot : KeySlot) (priv : Option OpIdx) (pub : Option PtIdx)
  /-- 0x43 SIGN: signX to `rd`, signY to `re`, digest `ra`; `priv` is RB, or absent when FL[0] = 1,
  which takes KEY[REG].priv (R375). -/
  | sign (rd re ra : OpIdx) (priv : Option OpIdx)
  /-- 0x44 VERIFY: digest `ra`, signX `rb`, signY `rc`; `pub` is RD, or absent when FL[0] = 1, which
  takes KEY[REG].pub (R377). -/
  | verify (ra rb rc : OpIdx) (pub : Option PtIdx)
  /-- 0x45 ECDH: secret to `rd`; `priv` is RA, or absent when FL[0] = 1, which takes KEY[REG].priv; the
  peer point is `rb` (R379). -/
  | ecdh (rd : OpIdx) (priv : Option OpIdx) (rb : PtIdx)
  deriving DecidableEq, Repr

end Sys2Proof
end

