-- ==== Sys2Proof/WellFormed.lean ====
section
/-! DEFINITION. When a command term has an encoding. The types of Syntax.lean already exclude a nonzero
must-be-zero field, a nonzero `c0` field and a point number of 8 or more (spec 30_encoding.md R139 cases
2 to 4); case 5 is the check that is left. -/

namespace Sys2Proof

/-- R139 case 5: in PT_GET_AFFINE and SIGN the two operand destinations differ. -/
def Instr.wellFormed : Instr → Bool
  | .nop => true
  | .init _ _ => true
  | .setDomain => true
  | .setStdDomain _ => true
  | .getDomain => true
  | .getOrderBits => true
  | .mmEnc _ _ _ => true
  | .mmDec _ _ _ => true
  | .mmMul _ _ _ _ => true
  | .mmSqr _ _ _ => true
  | .mmInv _ _ _ => true
  | .ptSetAffine _ _ _ => true
  | .ptSetProj _ _ _ _ => true
  | .ptSetInf _ => true
  | .ptGetAffine rd re _ => rd != re
  | .ptCheck _ => true
  | .ptCmp _ _ => true
  | .ptNeg _ _ => true
  | .ptDbl _ _ => true
  | .ptAdd _ _ _ => true
  | .ptMul _ _ _ => true
  | .ptMulBase _ _ => true
  | .ptMul2 _ _ _ _ _ => true
  | .genKeypair _ _ => true
  | .derivePub _ _ => true
  | .setKeypair _ _ _ => true
  | .sign rd re _ _ => rd != re
  | .verify _ _ _ _ => true
  | .ecdh _ _ _ => true

end Sys2Proof
end

