-- ==== Sys2Proof/Decode.lean ====
section
/-! DEFINITION. The decoder (spec 30_encoding.md R141), total on all words and rejecting by name, then the
encoder, written from the formats R131 and R132 and the field usage table R138. -/

namespace Sys2Proof

/-- Why a command word is illegal: the cases of R139. -/
inductive DecodeError where
  /-- Case 1: the opcode is not in the map of R137. -/
  | unassignedOpcode
  /-- Case 2: a field that R138 marks `0` is nonzero. -/
  | mustBeZero
  /-- Case 3: a field that R138 marks `c0` is nonzero while its flag condition holds. -/
  | conditionalZero
  /-- Case 4: a point-register field holds 8 or more. -/
  | pointField
  /-- Case 5: PT_GET_AFFINE or SIGN with RD = RE. -/
  | sameDestination
  deriving DecidableEq, Repr

/-! ### The fields of a word (R131, R132) -/

/-- OPC, bits 7:0. -/
def opcField (v : Word) : BitVec 8 := v.extractLsb' 0 8
/-- RD, bits 11:8. -/
def rdField (v : Word) : BitVec 4 := v.extractLsb' 8 4
/-- RE, bits 15:12. -/
def reField (v : Word) : BitVec 4 := v.extractLsb' 12 4
/-- RA, bits 19:16. -/
def raField (v : Word) : BitVec 4 := v.extractLsb' 16 4
/-- RB, bits 23:20. -/
def rbField (v : Word) : BitVec 4 := v.extractLsb' 20 4
/-- RC, bits 27:24. -/
def rcField (v : Word) : BitVec 4 := v.extractLsb' 24 4
/-- FL, bits 31:28. -/
def flField (v : Word) : BitVec 4 := v.extractLsb' 28 4
/-- FL[i], bit 28 + i. -/
def flBit (v : Word) (i : Nat) : Bool := (flField v).getLsbD i
/-- fieldBits of INIT, bits 25:16 (R134). -/
def fieldBitsField (v : Word) : BitVec 10 := v.extractLsb' 16 10
/-- CID of SET_STD_DOMAIN, bits 23:16 (R135). -/
def cidField (v : Word) : BitVec 8 := v.extractLsb' 16 8

/-! ### Reading a field as an operand -/

/-- An operand-register field: every value is legal (R133). -/
def opOf (f : BitVec 4) : OpIdx := ⟨f.toNat, f.isLt⟩

/-- A point-register field: 8 to 15 are illegal (R133). -/
def ptOf (f : BitVec 4) : Except DecodeError PtIdx :=
  if h : f.toNat < 8 then .ok ⟨f.toNat, h⟩ else .error .pointField

/-- A `c0` operand field: zero unless `present` (R139 case 3). -/
def optOpOf (present : Bool) (f : BitVec 4) : Except DecodeError (Option OpIdx) :=
  if present then .ok (some (opOf f)) else if f = 0 then .ok none else .error .conditionalZero

/-- A `c0` point field: zero unless `present` (R139 case 3). -/
def optPtOf (present : Bool) (f : BitVec 4) : Except DecodeError (Option PtIdx) :=
  if present then (ptOf f).map some else if f = 0 then .ok none else .error .conditionalZero

/-- The policy of INIT: bit 31, 0 = FAST and 1 = CT (R134). -/
def policyOf (b : Bool) : Policy := if b then .ct else .fast

/-- The engine: FL[0] (R136). -/
def engineOf (b : Bool) : EngineSel := if b then .n else .p

/-- The slot: FL[0] (R136). -/
def slotOf (b : Bool) : KeySlot := if b then .eph else .reg

/-- The check of a table row (R141): the masked word equals the row's match value. -/
def rowCheck (v mask value : Word) (k : Except DecodeError Instr) : Except DecodeError Instr :=
  if v &&& mask = value then k else .error .mustBeZero

/-- R139 case 5. -/
def distinctDests (rd re : BitVec 4) (k : Except DecodeError Instr) : Except DecodeError Instr :=
  if rd = re then .error .sameDestination else k

/-- The decoder of R141: one line per row of the opcode map R137, with the row's mask and match value of
spec/opcode_table.json and the fields of R138. -/
def decode (v : Word) : Except DecodeError Instr :=
  match (opcField v).toNat with
  | 0x00 => rowCheck v 0xFFFFFFFF 0x00000000 (.ok .nop)
  | 0x01 => rowCheck v 0x7C00FFFF 0x00000001 (.ok (.init (policyOf (v.getLsbD 31)) (fieldBitsField v)))
  | 0x02 => rowCheck v 0xFFFFFFFF 0x00000002 (.ok .setDomain)
  | 0x03 => rowCheck v 0xFF00FFFF 0x00000003 (.ok (.setStdDomain (cidField v)))
  | 0x04 => rowCheck v 0xFFFFFFFF 0x00000004 (.ok .getDomain)
  | 0x05 => rowCheck v 0xFFFFFFFF 0x00000005 (.ok .getOrderBits)
  | 0x10 => rowCheck v 0xEFF0F0FF 0x00000010
      (.ok (.mmEnc (opOf (rdField v)) (opOf (raField v)) (engineOf (flBit v 0))))
  | 0x11 => rowCheck v 0xEFF0F0FF 0x00000011
      (.ok (.mmDec (opOf (rdField v)) (opOf (raField v)) (engineOf (flBit v 0))))
  | 0x12 => rowCheck v 0xEF00F0FF 0x00000012
      (.ok (.mmMul (opOf (rdField v)) (opOf (raField v)) (opOf (rbField v)) (engineOf (flBit v 0))))
  | 0x13 => rowCheck v 0xEFF0F0FF 0x00000013
      (.ok (.mmSqr (opOf (rdField v)) (opOf (raField v)) (engineOf (flBit v 0))))
  | 0x14 => rowCheck v 0xEFF0F0FF 0x00000014
      (.ok (.mmInv (opOf (rdField v)) (opOf (raField v)) (engineOf (flBit v 0))))
  | 0x20 => rowCheck v 0xFF00F0FF 0x00000020 do
      .ok (.ptSetAffine (← ptOf (rdField v)) (opOf (raField v)) (opOf (rbField v)))
  | 0x21 => rowCheck v 0xF000F0FF 0x00000021 do
      .ok (.ptSetProj (← ptOf (rdField v)) (opOf (raField v)) (opOf (rbField v)) (opOf (rcField v)))
  | 0x22 => rowCheck v 0xFFFFF0FF 0x00000022 do
      .ok (.ptSetInf (← ptOf (rdField v)))
  | 0x23 => rowCheck v 0xFFF000FF 0x00000023 do
      let p ← ptOf (raField v)
      distinctDests (rdField v) (reField v)
        (.ok (.ptGetAffine (opOf (rdField v)) (opOf (reField v)) p))
  | 0x24 => rowCheck v 0xFFF0FFFF 0x00000024 do
      .ok (.ptCheck (← ptOf (raField v)))
  | 0x25 => rowCheck v 0xFF00FFFF 0x00000025 do
      .ok (.ptCmp (← ptOf (raField v)) (← ptOf (rbField v)))
  | 0x26 => rowCheck v 0xFFF0F0FF 0x00000026 do
      .ok (.ptNeg (← ptOf (rdField v)) (← ptOf (raField v)))
  | 0x27 => rowCheck v 0xFFF0F0FF 0x00000027 do
      .ok (.ptDbl (← ptOf (rdField v)) (← ptOf (raField v)))
  | 0x28 => rowCheck v 0xFF00F0FF 0x00000028 do
      .ok (.ptAdd (← ptOf (rdField v)) (← ptOf (raField v)) (← ptOf (rbField v)))
  | 0x30 => rowCheck v 0xFF00F0FF 0x00000030 do
      .ok (.ptMul (← ptOf (rdField v)) (← ptOf (raField v)) (opOf (rbField v)))
  | 0x31 => rowCheck v 0xFFF0F0FF 0x00000031 do
      .ok (.ptMulBase (← ptOf (rdField v)) (opOf (raField v)))
  | 0x32 => rowCheck v 0xF00000FF 0x00000032 do
      .ok (.ptMul2 (← ptOf (rdField v)) (← ptOf (raField v)) (opOf (rbField v)) (← ptOf (rcField v))
        (opOf (reField v)))
  | 0x40 => rowCheck v 0xFFFF00FF 0x00000040 do
      .ok (.genKeypair (opOf (rdField v)) (← ptOf (reField v)))
  | 0x41 => rowCheck v 0xFFF0F0FF 0x00000041 do
      .ok (.derivePub (← ptOf (rdField v)) (opOf (raField v)))
  | 0x42 => rowCheck v 0x8F00FFFF 0x00000042 do
      .ok (.setKeypair (slotOf (flBit v 0)) (← optOpOf (flBit v 1) (raField v))
        (← optPtOf (flBit v 2) (rbField v)))
  | 0x43 => rowCheck v 0xEF0000FF 0x00000043 do
      let priv ← optOpOf (!flBit v 0) (rbField v)
      distinctDests (rdField v) (reField v)
        (.ok (.sign (opOf (rdField v)) (opOf (reField v)) (opOf (raField v)) priv))
  | 0x44 => rowCheck v 0xE000F0FF 0x00000044 do
      .ok (.verify (opOf (raField v)) (opOf (rbField v)) (opOf (rcField v))
        (← optPtOf (!flBit v 0) (rdField v)))
  | 0x45 => rowCheck v 0xEF00F0FF 0x00000045 do
      .ok (.ecdh (opOf (rdField v)) (← optOpOf (!flBit v 0) (raField v)) (← ptOf (rbField v)))
  | _ => .error .unassignedOpcode

/-! ### The encoder -/

/-- Format R (R131): FL, RC, RB, RA, RE, RD, OPC from bit 31 down. -/
def packR (fl rc rb ra re rd : BitVec 4) (opc : BitVec 8) : Word :=
  fl ++ rc ++ rb ++ ra ++ re ++ rd ++ opc

/-- Format I (R132): IMM16, Z8 = 0, OPC from bit 31 down. -/
def packI (imm : BitVec 16) (opc : BitVec 8) : Word :=
  imm ++ 0#8 ++ opc

/-- An operand register as a field. -/
def opBits (i : OpIdx) : BitVec 4 := BitVec.ofFin i

/-- A point register as a field. -/
def ptBits (i : PtIdx) : BitVec 4 := BitVec.ofNat 4 i.val

/-- An operand register that may be absent: 0 where it is (R139 case 3). -/
def optOpBits : Option OpIdx → BitVec 4
  | none => 0
  | some i => opBits i

/-- A point register that may be absent: 0 where it is (R139 case 3). -/
def optPtBits : Option PtIdx → BitVec 4
  | none => 0
  | some i => ptBits i

/-- The flag field from FL[2], FL[1] and FL[0]; FL[3] is 0 in every row (R136). -/
def flagBits (f2 f1 f0 : Bool) : BitVec 4 :=
  0#1 ++ BitVec.ofBool f2 ++ BitVec.ofBool f1 ++ BitVec.ofBool f0

/-- FL of an MM command: FL[0] is the engine (R136). -/
def engineBits (e : EngineSel) : BitVec 4 := flagBits false false (e == .n)

/-- The encoder: the word of a command, from R137 and R138. -/
def encode : Instr → Word
  | .nop => packR 0 0 0 0 0 0 0x00
  | .init pol fb => packI (BitVec.ofBool (pol == .ct) ++ 0#5 ++ fb) 0x01
  | .setDomain => packR 0 0 0 0 0 0 0x02
  | .setStdDomain cid => packI (0#8 ++ cid) 0x03
  | .getDomain => packR 0 0 0 0 0 0 0x04
  | .getOrderBits => packR 0 0 0 0 0 0 0x05
  | .mmEnc rd ra e => packR (engineBits e) 0 0 (opBits ra) 0 (opBits rd) 0x10
  | .mmDec rd ra e => packR (engineBits e) 0 0 (opBits ra) 0 (opBits rd) 0x11
  | .mmMul rd ra rb e => packR (engineBits e) 0 (opBits rb) (opBits ra) 0 (opBits rd) 0x12
  | .mmSqr rd ra e => packR (engineBits e) 0 0 (opBits ra) 0 (opBits rd) 0x13
  | .mmInv rd ra e => packR (engineBits e) 0 0 (opBits ra) 0 (opBits rd) 0x14
  | .ptSetAffine rd ra rb => packR 0 0 (opBits rb) (opBits ra) 0 (ptBits rd) 0x20
  | .ptSetProj rd ra rb rc => packR 0 (opBits rc) (opBits rb) (opBits ra) 0 (ptBits rd) 0x21
  | .ptSetInf rd => packR 0 0 0 0 0 (ptBits rd) 0x22
  | .ptGetAffine rd re ra => packR 0 0 0 (ptBits ra) (opBits re) (opBits rd) 0x23
  | .ptCheck ra => packR 0 0 0 (ptBits ra) 0 0 0x24
  | .ptCmp ra rb => packR 0 0 (ptBits rb) (ptBits ra) 0 0 0x25
  | .ptNeg rd ra => packR 0 0 0 (ptBits ra) 0 (ptBits rd) 0x26
  | .ptDbl rd ra => packR 0 0 0 (ptBits ra) 0 (ptBits rd) 0x27
  | .ptAdd rd ra rb => packR 0 0 (ptBits rb) (ptBits ra) 0 (ptBits rd) 0x28
  | .ptMul rd ra rb => packR 0 0 (opBits rb) (ptBits ra) 0 (ptBits rd) 0x30
  | .ptMulBase rd ra => packR 0 0 0 (opBits ra) 0 (ptBits rd) 0x31
  | .ptMul2 rd ra rb rc re =>
      packR 0 (ptBits rc) (opBits rb) (ptBits ra) (opBits re) (ptBits rd) 0x32
  | .genKeypair rd re => packR 0 0 0 0 (ptBits re) (opBits rd) 0x40
  | .derivePub rd ra => packR 0 0 0 (opBits ra) 0 (ptBits rd) 0x41
  | .setKeypair slot priv pub =>
      packR (flagBits pub.isSome priv.isSome (slot == .eph)) 0 (optPtBits pub) (optOpBits priv) 0 0 0x42
  | .sign rd re ra priv =>
      packR (flagBits false false priv.isNone) 0 (optOpBits priv) (opBits ra) (opBits re) (opBits rd) 0x43
  | .verify ra rb rc pub =>
      packR (flagBits false false pub.isNone) (opBits rc) (opBits rb) (opBits ra) 0 (optPtBits pub) 0x44
  | .ecdh rd priv rb =>
      packR (flagBits false false priv.isNone) 0 (ptBits rb) (optOpBits priv) 0 (opBits rd) 0x45

/-- The host's reading of one opcode-table word: every command is one 32-bit word (R130), whose bit 0 is
bit 0 of the word written to CMD. Bits at and above `nbits` are 0. -/
def decodeTableWord (nbits w : Nat) : Option Instr :=
  match decode (BitVec.ofNat 32 (w % 2 ^ nbits)) with
  | .ok i => some i
  | .error _ => none

end Sys2Proof
end

