-- ==== Sys2Proof/Config.lean ====
section
/-! DEFINITION. What is fixed for the block (spec 00_scope.md R7) and the free values the spec leaves
open (spec 93_implementation_defined.md, treatment "any value"). -/

namespace Sys2Proof.Config

/-- `MAX_FIELD_BITS` (R7, D6). -/
def maxFieldBits : Nat := 521

/-- `MIN_FIELD_BITS` (R7, D16). -/
def minFieldBits : Nat := 2

/-- `WORD`: the bus word and the Montgomery digit, in bits (R7, D2). -/
def wordBits : Nat := 32

/-- `OPW`: the words of one operand register (R7, D6). -/
def operandWords : Nat := 17

/-- `SCRATCH_N`: the capacity of the scratch pool, OPEN (R7, R63, I15). It has no body, so every value is
allowed. Nothing reads it: "The block is sized so that no command ever runs out", and the pool is unobservable
(log entry 6). -/
opaque scratchN : Nat

/-- `ECC_BASE`: the base address of the window in the host's own address map, OPEN (20_memory.md R96, I14). It has
no body, so every value is allowed (log entry 15). -/
opaque eccBase : Nat

/-- The value a draw of the spec takes ("any value": items I1, I2, I5 of 93_implementation_defined.md).
`freeNat n k` is draw number `k` of the step whose index is `n` (`State.choice`). It has no body: no
proof can know a value of it, so a theorem that mentions a draw holds for every value of the draw
(log entry 4). -/
opaque freeNat : Nat → Nat → Nat

end Sys2Proof.Config
end

