-- ==== Sys2Proof/Machine/Field.lean ====
section
/-! DEFINITION. The integer arithmetic of the rules (spec 00_scope.md R8): bit length, least nonnegative
residue, modular inverse, the Montgomery radix (R7, 40_montgomery.md R170), and the primality of a
modulus, which 41_domain.md R206 makes the behaviour depend on. -/

namespace Sys2Proof.Machine

/-- `bitlen(v)`, with `bitlen(0) = 0` (R8). -/
def bitlen (v : Nat) : Nat := if v = 0 then 0 else Nat.log2 v + 1

/-- `x mod m`, the least nonnegative residue of an integer (R8). -/
def residue (x : Int) (m : Nat) : Nat := (x % (m : Int)).toNat

/-- The extended Euclidean algorithm on `(r0, r1)`, where `t0` and `t1` are the multiples of the argument
that give them mod m. The first argument bounds the number of rounds. -/
def invLoop (m : Nat) : Nat → Nat → Nat → Int → Int → Nat
  | 0, _, _, _, _ => 0
  | rounds + 1, r0, r1, t0, t1 =>
    if r1 = 0 then residue t0 m
    else invLoop m rounds r1 (r0 % r1) t1 (t0 - (r0 / r1 : Nat) * t1)

/-- `inv_m(x)`: the y in [1, m) with x·y ≡ 1 (mod m), which exists only when gcd(x, m) = 1 (R8). Where it
does not exist the value means nothing and no rule uses it (log entry 18). -/
def invMod (m x : Nat) : Nat := invLoop m (m + 1) m (x % m) 0 1

/-- The Montgomery radix R_m = 2^(32·⌈bitlen(m)/32⌉) (R7, R170). -/
def radix (m : Nat) : Nat := 2 ^ (Config.wordBits * ((bitlen m + 31) / 32))

/-- Trial division from `d` up to √p. The first argument bounds the number of trials. -/
def trialLoop (p : Nat) : Nat → Nat → Bool
  | 0, _ => true
  | trials + 1, d =>
    if p < d * d then true
    else if p % d = 0 then false
    else trialLoop p trials (d + 1)

/-- Primality by trial division. -/
def trialPrime (p : Nat) : Bool := decide (2 ≤ p) && trialLoop p p 2

end Sys2Proof.Machine
end

