-- ==== Sys2Proof/Machine/State.lean ====
section
/-! DEFINITION. The state of one ECC-CORE instance (spec 10_state.md R30), the world around it as plain
data, the reasons a step can stop, and the state after reset (R66). -/

namespace Sys2Proof.Machine

/-- The status codes of R421. Codes 0x0B to 0xFF are never produced, so they have no constructor
(93_implementation_defined.md I9). -/
inductive StatusCode where
  | ok
  | nullInput
  | contextMismatch
  | rangeError
  | invalidCurveId
  | invalidPrivateKey
  | messageError
  | ephemeralKeyError
  | shareKeyError
  | noInverse
  | illegalCommand
  deriving DecidableEq, Repr

/-- An abstract point (00_scope.md R10): infinity, or affine coordinates, which are integers in
`[0, p)`. -/
inductive Point where
  | inf
  | aff (x y : Nat)
  deriving DecidableEq, Repr

/-- An operand register: its VALID bit and its 544-bit contents (R40, R41). It holds a value whether
VALID is set or not. -/
structure OpReg where
  valid : Bool
  value : Operand
  deriving DecidableEq, Repr

/-- A point register: EMPTY, or VALID or STALE with the value it holds (R50). -/
inductive PtReg where
  | empty
  | valid (P : Point)
  | stale (P : Point)
  deriving DecidableEq, Repr

/-- A key slot (R52). -/
structure KeyPair where
  priv : Nat
  pub : Point
  deriving DecidableEq, Repr

/-- The context CTX (R54). -/
structure Context where
  init : Bool
  fieldBits : Nat
  policy : Policy
  deriving DecidableEq, Repr

/-- The domain DOM (R55), without the hidden encoded forms and variant (log entry 6). -/
structure Domain where
  set : Bool
  p : Nat
  a : Nat
  b : Nat
  G : Point
  r : Nat
  h : Nat
  orderBits : Nat
  aIsM3 : Bool
  deriving DecidableEq, Repr

/-- The width of a bus access (20_memory.md R92). Only `word` is served. -/
inductive AccessWidth where
  | byte
  | half
  | word
  | wider
  deriving DecidableEq, Repr

/-- The bus response of R91, with the word a read returns (0 for a write). -/
structure BusResponse where
  okay : Bool
  data : Word
  deriving DecidableEq, Repr

/-- One event of the world outside, or one move of the sequencer, in the single total order of R103
(log entry 1). -/
inductive Input where
  /-- A bus read (R91). -/
  | read (addr : Offset) (width : AccessWidth)
  /-- A bus write (R91). -/
  | write (addr : Offset) (width : AccessWidth) (data : Word)
  /-- The platform offers a word on the RNG port: rng_valid = 1 with rng_data (60_exceptions.md R445). -/
  | rng (w : Word)
  /-- Time passes: the sequencer makes its next move (70_reset_and_hazards.md R482: the latency `LAT` is
  open, so a list of inputs says where each move falls). -/
  | run
  /-- rst_n falls to 0 (R470). -/
  | resetAssert
  /-- rst_n returns to 1 (R470). -/
  | resetRelease
  deriving DecidableEq, Repr

/-- Why the machine has no step. -/
inductive Fault where
  /-- A host access while rst_n = 0: R470 says it "has no step in a model", and
  93_implementation_defined.md I11 gives it the treatment "no move". Raised by the bus read and write
  inputs only. Safe: the model stops where the spec gives the platform no move. -/
  | accessDuringReset
  deriving DecidableEq, Repr

/-- Why a command has no meaning. -/
inductive Refusal where
  /-- A command of the opcode table that exec does not model, by its mnemonic. No arm of exec raises it
  in this model. Safe. -/
  | notModelled (mnemonic : String)
  deriving DecidableEq, Repr

end Sys2Proof.Machine

namespace Sys2Proof.Machine

/-- The whole state. The fields above `inputs` are the spec's (R30); `inputs`, `resp` and `choice` are
the model's own record of the world outside (log entries 1, 4 and 14). -/
structure State where
  /-- CTRL.IRQ_EN (R35). -/
  irqEn : Bool
  /-- STATUS.BUSY (R36, R58). -/
  busy : Bool
  /-- STATUS.DONE (R36). -/
  done : Bool
  /-- STATUS.ERR (R36). -/
  err : Bool
  /-- STATUS.OVR (R36, R433). -/
  ovr : Bool
  /-- STATUS.CODE (R36, R421). -/
  code : StatusCode
  /-- LASTCMD (R37); while BUSY it is the in-flight command word (R58, R476). -/
  lastCmd : Word
  /-- RESULT (R38). -/
  result : Word
  /-- The operand file OP0 to OP15 with the VALID bits (R40, R41). -/
  ops : Vector OpReg 16
  /-- The point file PT0 to PT7 with PTSTATE (R50). -/
  pts : Vector PtReg 8
  /-- KEY[REG] (R52). -/
  keyReg : KeyPair
  /-- KEY[EPH] (R52). -/
  keyEph : KeyPair
  /-- CTX (R54). -/
  ctx : Context
  /-- DOM (R55). It also binds the engines ENG_P and ENG_N (R57, R170; log entry 11). -/
  dom : Domain
  /-- The RNG request: rng_req = 1 (R65, R445). -/
  rngReq : Bool
  /-- The words GEN_KEYPAIR has taken in its current try, oldest first (R64, R371). -/
  drawn : List Word
  /-- The reset input: true while rst_n = 0 (R470). -/
  inReset : Bool
  /-- What the world does next, in order (R103). -/
  inputs : List Input
  /-- The response of the last bus transaction (R91). -/
  resp : Option BusResponse
  /-- The index of the present step's draws (log entry 4). -/
  choice : Nat
  deriving DecidableEq, Repr

/-- A cleared key slot (R53). -/
def KeyPair.cleared : KeyPair := { priv := 0, pub := .inf }

/-- The context before INIT (R54, R66). -/
def Context.cleared : Context := { init := false, fieldBits := 0, policy := .fast }

/-- The cleared domain (R55, R66). -/
def Domain.cleared : Domain :=
  { set := false, p := 0, a := 0, b := 0, G := .inf, r := 0, h := 0, orderBits := 0, aIsM3 := false }

/-- The state right after reset (R66): every value is the spec's own, but for the model's fields
`inputs` (nothing happens yet), `resp` (no transaction yet) and `choice` (log entries 1, 4 and 14). -/
def State.reset : State where
  irqEn := false
  busy := false
  done := false
  err := false
  ovr := false
  code := .ok
  lastCmd := 0
  result := 0
  ops := Vector.replicate 16 { valid := false, value := 0 }
  pts := Vector.replicate 8 .empty
  keyReg := .cleared
  keyEph := .cleared
  ctx := .cleared
  dom := .cleared
  rngReq := false
  drawn := []
  inReset := false
  inputs := []
  resp := none
  choice := 0

end Sys2Proof.Machine
end

