-- ==== Sys2Proof/Machine/Ops.lean ====
section
/-! DEFINITION. The named operations over the registers (spec 00_scope.md R9), the one completion step
that every command ends in, OK or error (60_exceptions.md R422), and the draws. An error is this block's
exception and its completion is taken in `State.completeErr`; there is no return from it but the next
acceptance (R430). -/

namespace Sys2Proof.Machine

/-- What a meaning answers. -/
abbrev StepResult := Host.Outcome State Fault Refusal

/-! ### Words of an operand (10_state.md R40, 20_memory.md R94) -/

/-- OPWORD[i][j]: bits 32j+31 to 32j of the contents. -/
def operandWord (v : Operand) (j : WordIdx) : Word := v.extractLsb' (32 * j.val) 32

/-- The contents with word j replaced. -/
def setOperandWord (v : Operand) (j : WordIdx) (w : Word) : Operand :=
  (v &&& ~~~((BitVec.allOnes 32).setWidth 544 <<< (32 * j.val))) ||| (w.setWidth 544 <<< (32 * j.val))

/-! ### Reading registers -/

/-- The operand register OPi. -/
def State.op (s : State) (i : OpIdx) : OpReg := s.ops[i]

/-- The value of OPi as an integer (R9, R40). -/
def State.opVal (s : State) (i : OpIdx) : Nat := (s.op i).value.toNat

/-- The point register PTi. -/
def State.pt (s : State) (i : PtIdx) : PtReg := s.pts[i]

/-- The abstract value of PTi. An EMPTY register holds none; its reading here is never used, because a
source in state EMPTY raises NullInput first (R50, R425). -/
def State.ptVal (s : State) (i : PtIdx) : Point :=
  match s.pt i with
  | .empty => .inf
  | .valid P => P
  | .stale P => P

/-- The key slot KEY[k] (R52). -/
def State.key (s : State) : KeySlot → KeyPair
  | .reg => s.keyReg
  | .eph => s.keyEph

/-- A Montgomery engine: its modulus and its radix (R57, R170). -/
structure Engine where
  m : Nat
  radix : Nat
  deriving DecidableEq, Repr

/-- The engine FL[0] selects: m_E is DOM.p for ENG_P and DOM.r for ENG_N, and R_E = R_m of m_E (R170). -/
def State.engine (s : State) : EngineSel → Engine
  | .p => { m := s.dom.p, radix := radix s.dom.p }
  | .n => { m := s.dom.r, radix := radix s.dom.r }

/-- Both engines are bound when DOM.set = 1 and unbound otherwise (R57, R170). -/
def State.enginesBound (s : State) : Bool := s.dom.set

/-! ### Staged writes (R9): a meaning applies them to a copy of the state, which is committed on OK and
dropped on an error. -/

/-- `OP[i] <- v`: all 17 words with zext_544(v), and VALID[i] <- 1 (R9, R41, R42). -/
def State.writeOp (s : State) (i : OpIdx) (v : Nat) : State :=
  { s with ops := s.ops.set i { valid := true, value := BitVec.ofNat 544 v } }

/-- `PT[i] <- P`, and PTSTATE[i] <- VALID (R9, R51). -/
def State.writePt (s : State) (i : PtIdx) (P : Point) : State :=
  { s with pts := s.pts.set i (.valid P) }

/-- KEY[k] <- kp (R52). -/
def State.writeKey (s : State) (k : KeySlot) (kp : KeyPair) : State :=
  match k with
  | .reg => { s with keyReg := kp }
  | .eph => { s with keyEph := kp }

/-- Both key slots cleared (R53). -/
def State.clearKeys (s : State) : State := { s with keyReg := .cleared, keyEph := .cleared }

/-- VALID to STALE (R51). -/
def PtReg.toStale : PtReg → PtReg
  | .empty => .empty
  | .valid P => .stale P
  | .stale P => .stale P

/-- Every VALID point register becomes STALE (R51). -/
def State.staleAll (s : State) : State := { s with pts := s.pts.map PtReg.toStale }

/-! ### Completion (R422) -/

/-- The completion step: STATUS.CODE, ERR, DONE and BUSY, and RESULT. The sequencer is idle afterwards, so
nothing is left of a key generation (R58, R64, R65). OVR, LASTCMD and IRQ_EN are not touched. -/
def State.close (s : State) (c : StatusCode) (v : Word) : State :=
  { s with busy := false, done := true, code := c, err := c != .ok, result := v, rngReq := false, drawn := [] }

/-- RESULT of any error completion (R38, R422). -/
def errorResult : Word := 0xFFFFFFFF

/-- `complete_ok(value)` of R422 on the state that holds the staged writes. -/
def State.completeOk (t : State) (v : Word) : State := t.close .ok v

/-- `complete_err(E)` of R422 on the state without the staged writes. -/
def State.completeErr (s : State) (e : StatusCode) : State := s.close e errorResult

/-! ### Draws ("any value", 93_implementation_defined.md; log entry 4) -/

/-- A drawn 32-bit word. -/
def State.freeWord (s : State) (k : Nat) : Word := BitVec.ofNat 32 (Config.freeNat s.choice k)

/-- A drawn number below `n`, for `n` > 0. -/
def State.freeBelow (s : State) (k n : Nat) : Nat := Config.freeNat s.choice k % n

/-- A drawn Point: INF, or any affine pair of coordinates in [0, p) (R10). It uses draws `k` to `k + 2`. -/
def State.freePoint (s : State) (k : Nat) : Point :=
  if Config.freeNat s.choice k = 0 then .inf
  else .aff (s.freeBelow (k + 1) s.dom.p) (s.freeBelow (k + 2) s.dom.p)

/-- A status code drawn from those a command can end with (draw 0). -/
def State.freeCode (s : State) (codes : List StatusCode) : StatusCode :=
  codes.getD (s.freeBelow 0 codes.length) .ok

/-- The completion of a group-law command when p is composite (41_domain.md R206): the status code is
drawn from `codes`, RESULT is drawn, and `t`, whose destinations hold drawn values, is committed if the
drawn code is OK. An error writes no destination (70_reset_and_hazards.md R484; log entry 7). -/
def State.completeAny (s : State) (codes : List StatusCode) (t : State) : State :=
  let c := s.freeCode codes
  if c = .ok then t.close .ok (s.freeWord 1) else s.close c (s.freeWord 1)

end Sys2Proof.Machine
end

