-- ==== Sys2Proof/Machine/Flags.lean ====
section
/-! DEFINITION. The status fields a host reads: the CSR values of spec 10_state.md R33 to R45, the RESULT
encodings of R60 that are shared, and the interrupt output (60_exceptions.md R429). -/

namespace Sys2Proof.Machine

/-- The number of a status code (R421). -/
def StatusCode.toByte : StatusCode → BitVec 8
  | .ok => 0x00
  | .nullInput => 0x01
  | .contextMismatch => 0x02
  | .rangeError => 0x03
  | .invalidCurveId => 0x04
  | .invalidPrivateKey => 0x05
  | .messageError => 0x06
  | .ephemeralKeyError => 0x07
  | .shareKeyError => 0x08
  | .noInverse => 0x09
  | .illegalCommand => 0x0A

/-- ID (R33): BLOCK 0xECC0, MAJOR 0x01, MINOR 0x00. -/
def idWord : Word := 0xECC0#16 ++ 0x01#8 ++ 0x00#8

/-- CAPS (R34): reserved, NPT_M1, NOP_M1, OPW, MAX_FIELD_BITS from bit 31 down. -/
def capsWord : Word :=
  0#9 ++ 7#3 ++ 15#4 ++ BitVec.ofNat 6 Config.operandWords ++ BitVec.ofNat 10 Config.maxFieldBits

/-- CTRL as read (R35): IRQ_EN in bit 0; SOFT_RESET reads 0. -/
def State.ctrlWord (s : State) : Word := 0#31 ++ BitVec.ofBool s.irqEn

/-- STATUS (R36): CODE in 15:8, OVR in 3, ERR in 2, DONE in 1, BUSY in 0. -/
def State.statusWord (s : State) : Word :=
  0#16 ++ s.code.toByte ++ 0#4 ++ BitVec.ofBool s.ovr ++ BitVec.ofBool s.err ++
    BitVec.ofBool s.done ++ BitVec.ofBool s.busy

/-- OPVALID (R39): bit i is VALID[i]. -/
def State.opValidWord (s : State) : Word :=
  BitVec.ofNat 32 ((List.finRange 16).map fun i => if (s.op i).valid then 2 ^ i.val else 0).sum

/-- The two bits of one point register: 0 = EMPTY, 1 = VALID, 2 = STALE (R44). -/
def PtReg.stateBits : PtReg → Nat
  | .empty => 0
  | .valid _ => 1
  | .stale _ => 2

/-- PTSTATE (R44): bits 2i+1 to 2i hold the state of PTi. -/
def State.ptStateWord (s : State) : Word :=
  BitVec.ofNat 32 ((List.finRange 8).map fun i => (s.pt i).stateBits * 4 ^ i.val).sum

/-- CONFIG (R45): DOM_SET, CTX_INIT, A_M3, POLICY, ORDER_BITS in 25:16, FIELD_BITS in 9:0. -/
def State.configWord (s : State) : Word :=
  BitVec.ofBool s.dom.set ++ BitVec.ofBool s.ctx.init ++
    BitVec.ofBool (s.dom.set && s.dom.aIsM3) ++
    BitVec.ofBool (s.ctx.init && s.ctx.policy == .ct) ++ 0#2 ++
    BitVec.ofNat 10 (if s.dom.set then bitlen s.dom.r else 0) ++ 0#6 ++
    BitVec.ofNat 10 (if s.ctx.init then s.ctx.fieldBits else 0)

/-- The interrupt output: irq = CTRL.IRQ_EN AND STATUS.DONE (R429). -/
def State.irq (s : State) : Bool := s.irqEn && s.done

/-- RESULT of a command whose result is a point: 1 if it is INF, else 0 (R60). -/
def infResult (P : Point) : Word :=
  match P with
  | .inf => 1
  | .aff _ _ => 0

end Sys2Proof.Machine
end

