-- ==== Sys2Proof/Machine/Catalog.lean ====
section
/-! DEFINITION. The standard-curve catalog (spec 42_curve_catalog.md R240 to R253): fixed configuration,
read by SET_STD_DOMAIN alone (R256). The constants are those the spec prints. -/

namespace Sys2Proof.Machine

/-- A domain as seven integers (p, a, b, Gx, Gy, r, h), the arguments of SET_DOMAIN (41_domain.md R203). -/
structure CurveTuple where
  p : Nat
  a : Nat
  b : Nat
  gx : Nat
  gy : Nat
  r : Nat
  h : Nat
  deriving DecidableEq, Repr

/-- Catalog entry 0x01, secp112r1 (R241). -/
def secp112r1 : CurveTuple where
  p := 0xDB7C2ABF62E35E668076BEAD208B
  a := 0xDB7C2ABF62E35E668076BEAD2088
  b := 0x659EF8BA043916EEDE8911702B22
  gx := 0x09487239995A5EE76B55F9C2F098
  gy := 0xA89CE5AF8724C0A23E0E0FF77500
  r := 0xDB7C2ABF62E35E7628DFAC6561C5
  h := 0x1

/-- Catalog entry 0x02, secp112r2 (R242). -/
def secp112r2 : CurveTuple where
  p := 0xDB7C2ABF62E35E668076BEAD208B
  a := 0x6127C24C05F38A0AAAF65C0EF02C
  b := 0x51DEF1815DB5ED74FCC34C85D709
  gx := 0x4BA30AB5E892B4E1649DD0928643
  gy := 0xADCD46F5882E3747DEF36E956E97
  r := 0x36DF0AAFD8B8D7597CA10520D04B
  h := 0x4

/-- Catalog entry 0x03, secp128r1 (R243). -/
def secp128r1 : CurveTuple where
  p := 0xFFFFFFFDFFFFFFFFFFFFFFFFFFFFFFFF
  a := 0xFFFFFFFDFFFFFFFFFFFFFFFFFFFFFFFC
  b := 0xE87579C11079F43DD824993C2CEE5ED3
  gx := 0x161FF7528B899B2D0C28607CA52C5B86
  gy := 0xCF5AC8395BAFEB13C02DA292DDED7A83
  r := 0xFFFFFFFE0000000075A30D1B9038A115
  h := 0x1

/-- Catalog entry 0x04, secp128r2 (R244). -/
def secp128r2 : CurveTuple where
  p := 0xFFFFFFFDFFFFFFFFFFFFFFFFFFFFFFFF
  a := 0xD6031998D1B3BBFEBF59CC9BBFF9AEE1
  b := 0x5EEEFCA380D02919DC2C6558BB6D8A5D
  gx := 0x7B6AA5D85E572983E6FB32A7CDEBC140
  gy := 0x27B6916A894D3AEE7106FE805FC34B44
  r := 0x3FFFFFFF7FFFFFFFBE0024720613B5A3
  h := 0x4

/-- Catalog entry 0x05, secp160r1 (R245). -/
def secp160r1 : CurveTuple where
  p := 0xFFFFFFFFFFFFFFFFFFFFFFFFFFFFFFFF7FFFFFFF
  a := 0xFFFFFFFFFFFFFFFFFFFFFFFFFFFFFFFF7FFFFFFC
  b := 0x1C97BEFC54BD7A8B65ACF89F81D4D4ADC565FA45
  gx := 0x4A96B5688EF573284664698968C38BB913CBFC82
  gy := 0x23A628553168947D59DCC912042351377AC5FB32
  r := 0x100000000000000000001F4C8F927AED3CA752257
  h := 0x1

/-- Catalog entry 0x06, secp160r2 (R246). -/
def secp160r2 : CurveTuple where
  p := 0xFFFFFFFFFFFFFFFFFFFFFFFFFFFFFFFEFFFFAC73
  a := 0xFFFFFFFFFFFFFFFFFFFFFFFFFFFFFFFEFFFFAC70
  b := 0xB4E134D3FB59EB8BAB57274904664D5AF50388BA
  gx := 0x52DCB034293A117E1F4FF11B30F7199D3144CE6D
  gy := 0xFEAFFEF2E331F296E071FA0DF9982CFEA7D43F2E
  r := 0x100000000000000000000351EE786A818F3A1A16B
  h := 0x1

/-- Catalog entry 0x07, secp192r1 (R247). -/
def secp192r1 : CurveTuple where
  p := 0xFFFFFFFFFFFFFFFFFFFFFFFFFFFFFFFEFFFFFFFFFFFFFFFF
  a := 0xFFFFFFFFFFFFFFFFFFFFFFFFFFFFFFFEFFFFFFFFFFFFFFFC
  b := 0x64210519E59C80E70FA7E9AB72243049FEB8DEECC146B9B1
  gx := 0x188DA80EB03090F67CBF20EB43A18800F4FF0AFD82FF1012
  gy := 0x07192B95FFC8DA78631011ED6B24CDD573F977A11E794811
  r := 0xFFFFFFFFFFFFFFFFFFFFFFFF99DEF836146BC9B1B4D22831
  h := 0x1

/-- Catalog entry 0x08, secp224r1 (R248). -/
def secp224r1 : CurveTuple where
  p := 0xFFFFFFFFFFFFFFFFFFFFFFFFFFFFFFFF000000000000000000000001
  a := 0xFFFFFFFFFFFFFFFFFFFFFFFFFFFFFFFEFFFFFFFFFFFFFFFFFFFFFFFE
  b := 0xB4050A850C04B3ABF54132565044B0B7D7BFD8BA270B39432355FFB4
  gx := 0xB70E0CBD6BB4BF7F321390B94A03C1D356C21122343280D6115C1D21
  gy := 0xBD376388B5F723FB4C22DFE6CD4375A05A07476444D5819985007E34
  r := 0xFFFFFFFFFFFFFFFFFFFFFFFFFFFF16A2E0B8F03E13DD29455C5C2A3D
  h := 0x1

/-- Catalog entry 0x09, secp256r1 (R249). -/
def secp256r1 : CurveTuple where
  p := 0xFFFFFFFF00000001000000000000000000000000FFFFFFFFFFFFFFFFFFFFFFFF
  a := 0xFFFFFFFF00000001000000000000000000000000FFFFFFFFFFFFFFFFFFFFFFFC
  b := 0x5AC635D8AA3A93E7B3EBBD55769886BC651D06B0CC53B0F63BCE3C3E27D2604B
  gx := 0x6B17D1F2E12C4247F8BCE6E563A440F277037D812DEB33A0F4A13945D898C296
  gy := 0x4FE342E2FE1A7F9B8EE7EB4A7C0F9E162BCE33576B315ECECBB6406837BF51F5
  r := 0xFFFFFFFF00000000FFFFFFFFFFFFFFFFBCE6FAADA7179E84F3B9CAC2FC632551
  h := 0x1

/-- Catalog entry 0x0a, secp384r1 (R250). -/
def secp384r1 : CurveTuple where
  p := 0xFFFFFFFFFFFFFFFFFFFFFFFFFFFFFFFFFFFFFFFFFFFFFFFFFFFFFFFFFFFFFFFEFFFFFFFF0000000000000000FFFFFFFF
  a := 0xFFFFFFFFFFFFFFFFFFFFFFFFFFFFFFFFFFFFFFFFFFFFFFFFFFFFFFFFFFFFFFFEFFFFFFFF0000000000000000FFFFFFFC
  b := 0xB3312FA7E23EE7E4988E056BE3F82D19181D9C6EFE8141120314088F5013875AC656398D8A2ED19D2A85C8EDD3EC2AEF
  gx := 0xAA87CA22BE8B05378EB1C71EF320AD746E1D3B628BA79B9859F741E082542A385502F25DBF55296C3A545E3872760AB7
  gy := 0x3617DE4A96262C6F5D9E98BF9292DC29F8F41DBD289A147CE9DA3113B5F0B8C00A60B1CE1D7E819D7A431D7C90EA0E5F
  r := 0xFFFFFFFFFFFFFFFFFFFFFFFFFFFFFFFFFFFFFFFFFFFFFFFFC7634D81F4372DDF581A0DB248B0A77AECEC196ACCC52973
  h := 0x1

/-- Catalog entry 0x0b, secp521r1 (R251). -/
def secp521r1 : CurveTuple where
  p := 0x1FFFFFFFFFFFFFFFFFFFFFFFFFFFFFFFFFFFFFFFFFFFFFFFFFFFFFFFFFFFFFFFFFFFFFFFFFFFFFFFFFFFFFFFFFFFFFFFFFFFFFFFFFFFFFFFFFFFFFFFFFFFFFFFFFF
  a := 0x1FFFFFFFFFFFFFFFFFFFFFFFFFFFFFFFFFFFFFFFFFFFFFFFFFFFFFFFFFFFFFFFFFFFFFFFFFFFFFFFFFFFFFFFFFFFFFFFFFFFFFFFFFFFFFFFFFFFFFFFFFFFFFFFFFC
  b := 0x051953EB9618E1C9A1F929A21A0B68540EEA2DA725B99B315F3B8B489918EF109E156193951EC7E937B1652C0BD3BB1BF073573DF883D2C34F1EF451FD46B503F00
  gx := 0x0C6858E06B70404E9CD9E3ECB662395B4429C648139053FB521F828AF606B4D3DBAA14B5E77EFE75928FE1DC127A2FFA8DE3348B3C1856A429BF97E7E31C2E5BD66
  gy := 0x11839296A789A3BC0045C8A5FB42C7D1BD998F54449579B446817AFBD17273E662C97EE72995EF42640C550B9013FAD0761353C7086A272C24088BE94769FD16650
  r := 0x1FFFFFFFFFFFFFFFFFFFFFFFFFFFFFFFFFFFFFFFFFFFFFFFFFFFFFFFFFFFFFFFFFA51868783BF2F966B7FCC0148F709A5D03BB5C9B8899C47AEBB6FB71E91386409
  h := 0x1

/-- Catalog entry 0x0c, SM2 P-256 (the "SM2" variant) (R252). -/
def sm2p256 : CurveTuple where
  p := 0xFFFFFFFEFFFFFFFFFFFFFFFFFFFFFFFFFFFFFFFF00000000FFFFFFFFFFFFFFFF
  a := 0xFFFFFFFEFFFFFFFFFFFFFFFFFFFFFFFFFFFFFFFF00000000FFFFFFFFFFFFFFFC
  b := 0x28E9FA9E9D9F5E344D5A9E4BCF6509A7F39789F515AB8F92DDBCBD414D940E93
  gx := 0x32C4AE2C1F1981195F9904466A39C9948FE30BBFF2660BE1715A4589334C74C7
  gy := 0xBC3736A2F4F6779C59BDCEE36B692153D0A9877CC62A474002DF32E52139F0A0
  r := 0xFFFFFFFEFFFFFFFFFFFFFFFFFFFFFFFF7203DF6B21C6052B53BBF40939D54123
  h := 0x1

/-- Catalog entry 0x0d, TPM BN P-256 (the "TPM-BN" variant) (R253). -/
def bnp256 : CurveTuple where
  p := 0xFFFFFFFFFFFCF0CD46E5F25EEE71A49F0CDC65FB12980A82D3292DDBAED33013
  a := 0x0
  b := 0x3
  gx := 0x1
  gy := 0x2
  r := 0xFFFFFFFFFFFCF0CD46E5F25EEE71A49E0CDC65FB1299921AF62D536CD10B500D
  h := 0x1

/-- The catalog of R240: the tuple a CID names, and none for every other CID. -/
def catalog (cid : BitVec 8) : Option CurveTuple :=
  match cid.toNat with
  | 0x01 => some secp112r1
  | 0x02 => some secp112r2
  | 0x03 => some secp128r1
  | 0x04 => some secp128r2
  | 0x05 => some secp160r1
  | 0x06 => some secp160r2
  | 0x07 => some secp192r1
  | 0x08 => some secp224r1
  | 0x09 => some secp256r1
  | 0x0a => some secp384r1
  | 0x0b => some secp521r1
  | 0x0c => some sm2p256
  | 0x0d => some bnp256
  | _ => none

/-- The field moduli of the catalog. R254: "p and r are prime". -/
def catalogPrimes : List Nat :=
  [secp112r1.p, secp128r1.p, secp160r1.p, secp160r2.p, secp192r1.p, secp224r1.p, secp256r1.p,
   secp384r1.p, secp521r1.p, sm2p256.p, bnp256.p]

/-- Whether the model takes a field modulus as prime: a catalog modulus, which R254 says is prime, or any
other number that trial division finds prime (log entry 8). -/
def primeModulus (p : Nat) : Bool := catalogPrimes.contains p || trialPrime p

end Sys2Proof.Machine
end

