-- ==== Sys2Proof/Machine/Operands.lean ====
section
/-! DEFINITION. Operand fetch and the order of checks (spec 60_exceptions.md R424, R425), and how a meaning
ends: the first failing check completes with its code, and otherwise the staged state is committed. -/

namespace Sys2Proof.Machine

/-- A source of a command: `src_op(i)` or `src_pt(i)` (R9, R425). -/
inductive Src where
  | op (i : OpIdx)
  | pt (i : PtIdx)
  deriving DecidableEq, Repr

/-- The seven fixed registers of SET_DOMAIN and GET_DOMAIN (R43). -/
def domainRegs : List OpIdx := [0, 1, 2, 3, 4, 5, 6]

/-- The source that an optional operand field gives. -/
def optOpSrc (o : Option OpIdx) : List Src := o.toList.map .op

/-- The source that an optional point field gives. -/
def optPtSrc (o : Option PtIdx) : List Src := o.toList.map .pt

/-! ### The field usage table (30_encoding.md R138) -/

/-- The sources of a command in fetch order: the `opS` and `ptS` fields of R138, and OP0 to OP6 for
SET_DOMAIN (R43). -/
def sources : Instr → List Src
  | .nop => []
  | .init _ _ => []
  | .setDomain => domainRegs.map .op
  | .setStdDomain _ => []
  | .getDomain => []
  | .getOrderBits => []
  | .mmEnc _ ra _ => [.op ra]
  | .mmDec _ ra _ => [.op ra]
  | .mmMul _ ra rb _ => [.op ra, .op rb]
  | .mmSqr _ ra _ => [.op ra]
  | .mmInv _ ra _ => [.op ra]
  | .ptSetAffine _ ra rb => [.op ra, .op rb]
  | .ptSetProj _ ra rb rc => [.op ra, .op rb, .op rc]
  | .ptSetInf _ => []
  | .ptGetAffine _ _ ra => [.pt ra]
  | .ptCheck ra => [.pt ra]
  | .ptCmp ra rb => [.pt ra, .pt rb]
  | .ptNeg _ ra => [.pt ra]
  | .ptDbl _ ra => [.pt ra]
  | .ptAdd _ ra rb => [.pt ra, .pt rb]
  | .ptMul _ ra rb => [.pt ra, .op rb]
  | .ptMulBase _ ra => [.op ra]
  | .ptMul2 _ ra rb rc re => [.pt ra, .op rb, .pt rc, .op re]
  | .genKeypair _ _ => []
  | .derivePub _ ra => [.op ra]
  | .setKeypair _ priv pub => optOpSrc priv ++ optPtSrc pub
  | .sign _ _ ra priv => [.op ra] ++ optOpSrc priv
  | .verify ra rb rc pub => [.op ra, .op rb, .op rc] ++ optPtSrc pub
  | .ecdh _ priv rb => optOpSrc priv ++ [.pt rb]

/-- The operand registers a command writes: the `opD` fields of R138, and OP0 to OP6 for GET_DOMAIN
(R476). -/
def destOps : Instr → List OpIdx
  | .nop => []
  | .init _ _ => []
  | .setDomain => []
  | .setStdDomain _ => []
  | .getDomain => domainRegs
  | .getOrderBits => []
  | .mmEnc rd _ _ => [rd]
  | .mmDec rd _ _ => [rd]
  | .mmMul rd _ _ _ => [rd]
  | .mmSqr rd _ _ => [rd]
  | .mmInv rd _ _ => [rd]
  | .ptSetAffine _ _ _ => []
  | .ptSetProj _ _ _ _ => []
  | .ptSetInf _ => []
  | .ptGetAffine rd re _ => [rd, re]
  | .ptCheck _ => []
  | .ptCmp _ _ => []
  | .ptNeg _ _ => []
  | .ptDbl _ _ => []
  | .ptAdd _ _ _ => []
  | .ptMul _ _ _ => []
  | .ptMulBase _ _ => []
  | .ptMul2 _ _ _ _ _ => []
  | .genKeypair rd _ => [rd]
  | .derivePub _ _ => []
  | .setKeypair _ _ _ => []
  | .sign rd re _ _ => [rd, re]
  | .verify _ _ _ _ => []
  | .ecdh rd _ _ => [rd]

/-- The point registers a command writes: the `ptD` fields of R138. -/
def destPts : Instr → List PtIdx
  | .nop => []
  | .init _ _ => []
  | .setDomain => []
  | .setStdDomain _ => []
  | .getDomain => []
  | .getOrderBits => []
  | .mmEnc _ _ _ => []
  | .mmDec _ _ _ => []
  | .mmMul _ _ _ _ => []
  | .mmSqr _ _ _ => []
  | .mmInv _ _ _ => []
  | .ptSetAffine rd _ _ => [rd]
  | .ptSetProj rd _ _ _ => [rd]
  | .ptSetInf rd => [rd]
  | .ptGetAffine _ _ _ => []
  | .ptCheck _ => []
  | .ptCmp _ _ => []
  | .ptNeg rd _ => [rd]
  | .ptDbl rd _ => [rd]
  | .ptAdd rd _ _ => [rd]
  | .ptMul rd _ _ => [rd]
  | .ptMulBase rd _ => [rd]
  | .ptMul2 rd _ _ _ _ => [rd]
  | .genKeypair _ re => [re]
  | .derivePub rd _ => [rd]
  | .setKeypair _ _ _ => []
  | .sign _ _ _ _ => []
  | .verify _ _ _ _ => []
  | .ecdh _ _ _ => []

/-- The error codes a command can raise: the "Exceptions" of its rule (R421). -/
def raises : Instr → List StatusCode
  | .nop => [.illegalCommand]
  | .init _ _ => [.illegalCommand, .rangeError]
  | .setDomain => [.illegalCommand, .nullInput, .contextMismatch, .rangeError]
  | .setStdDomain _ => [.illegalCommand, .contextMismatch, .invalidCurveId, .rangeError]
  | .getDomain => [.illegalCommand, .contextMismatch]
  | .getOrderBits => [.illegalCommand, .contextMismatch]
  | .mmEnc _ _ _ => [.illegalCommand, .nullInput, .contextMismatch, .rangeError]
  | .mmDec _ _ _ => [.illegalCommand, .nullInput, .contextMismatch, .rangeError]
  | .mmMul _ _ _ _ => [.illegalCommand, .nullInput, .contextMismatch, .rangeError]
  | .mmSqr _ _ _ => [.illegalCommand, .nullInput, .contextMismatch, .rangeError]
  | .mmInv _ _ _ => [.illegalCommand, .nullInput, .contextMismatch, .rangeError, .noInverse]
  | .ptSetAffine _ _ _ => [.illegalCommand, .nullInput, .contextMismatch, .rangeError]
  | .ptSetProj _ _ _ _ => [.illegalCommand, .nullInput, .contextMismatch, .rangeError]
  | .ptSetInf _ => [.illegalCommand, .contextMismatch]
  | .ptGetAffine _ _ _ => [.illegalCommand, .nullInput, .contextMismatch]
  | .ptCheck _ => [.illegalCommand, .nullInput, .contextMismatch]
  | .ptCmp _ _ => [.illegalCommand, .nullInput, .contextMismatch]
  | .ptNeg _ _ => [.illegalCommand, .nullInput, .contextMismatch]
  | .ptDbl _ _ => [.illegalCommand, .nullInput, .contextMismatch]
  | .ptAdd _ _ _ => [.illegalCommand, .nullInput, .contextMismatch]
  | .ptMul _ _ _ => [.illegalCommand, .nullInput, .contextMismatch, .rangeError]
  | .ptMulBase _ _ => [.illegalCommand, .nullInput, .contextMismatch, .rangeError]
  | .ptMul2 _ _ _ _ _ => [.illegalCommand, .nullInput, .contextMismatch, .rangeError]
  | .genKeypair _ _ => [.illegalCommand, .contextMismatch]
  | .derivePub _ _ => [.illegalCommand, .nullInput, .contextMismatch, .invalidPrivateKey]
  | .setKeypair _ _ _ => [.illegalCommand, .nullInput, .contextMismatch, .rangeError]
  | .sign _ _ _ _ =>
      [.illegalCommand, .nullInput, .contextMismatch, .messageError, .invalidPrivateKey, .ephemeralKeyError]
  | .verify _ _ _ _ => [.illegalCommand, .nullInput, .contextMismatch, .messageError]
  | .ecdh _ _ _ => [.illegalCommand, .nullInput, .contextMismatch, .rangeError, .shareKeyError]

/-! ### Fetch and checks -/

/-- Step 2 of R424 for one source: an operand is VALID, a point is not EMPTY (R425). -/
def State.present (s : State) : Src → Bool
  | .op i => (s.op i).valid
  | .pt i =>
    match s.pt i with
    | .empty => false
    | .valid _ => true
    | .stale _ => true

/-- The STALE check of step 3 for one source (R424, R425). -/
def State.fresh (s : State) : Src → Bool
  | .op _ => true
  | .pt i =>
    match s.pt i with
    | .empty => true
    | .valid _ => true
    | .stale _ => false

/-- A check: whether it holds, and the code a failure reports. -/
abbrev Check := Bool × StatusCode

/-- The first failing check, in list order (R424). -/
def firstFailure : List Check → Option StatusCode
  | [] => none
  | (holds, e) :: rest => if holds then firstFailure rest else some e

/-- Step 2 of R424: the presence of every source, in fetch order. -/
def State.presenceChecks (s : State) (srcs : List Src) : List Check :=
  srcs.map fun x => (s.present x, .nullInput)

/-- Steps 2 and 3 of R424 for a command that needs a domain: presence, CTX.init, DOM.set, then STALE
points in fetch order (R270). -/
def State.commonChecks (s : State) (srcs : List Src) : List Check :=
  s.presenceChecks srcs ++ [(s.ctx.init, .contextMismatch), (s.dom.set, .contextMismatch)] ++
    srcs.map fun x => (s.fresh x, .contextMismatch)

/-- How a meaning ends (R9, R422): the first failing check of `checks` completes with its code and drops
the staged writes; otherwise `t`, which holds the staged writes, is committed with RESULT `v`. -/
def State.finish (s : State) (checks : List Check) (t : State) (v : Word) : StepResult :=
  match firstFailure checks with
  | some e => .next (s.completeErr e)
  | none => .next (t.completeOk v)

/-- A domain is installed and its p is not prime (R206). -/
def State.compositeP (s : State) : Bool := s.ctx.init && s.dom.set && !primeModulus s.dom.p

/-- How a group-law command `i` ends: as `finish`, but for a composite p, where R206 leaves destinations,
RESULT and status code open (`any` holds drawn destination values, and the code is OK or one of those
`i` can raise). -/
def State.finishGroup (s : State) (i : Instr) (any : State) (checks : List Check) (t : State) (v : Word) :
    StepResult :=
  if s.compositeP then .next (s.completeAny (.ok :: raises i) any) else s.finish checks t v

end Sys2Proof.Machine
end

