-- ==== Sys2Proof/Machine/Bus.lean ====
section
/-! DEFINITION. The host bus (spec 20_memory.md, 70_reset_and_hazards.md R470 to R476): the address map,
reads, writes with their side effects, the behaviour while BUSY, and both resets. -/

namespace Sys2Proof.Machine

/-- What an aligned offset of the window names (10_state.md R32, 20_memory.md R96, R98). -/
inductive Target where
  | id
  | caps
  | ctrl
  | status
  | cmd
  | result
  | opValid
  | ptState
  | config
  | opWord (i : OpIdx) (j : WordIdx)
  | padding
  | reserved
  deriving DecidableEq, Repr

/-- The operand window: OPi word j at 0x100 + 0x80·i + 4·j, where j from 17 to 31 is padding (R96, R98). -/
def windowTarget (off : Nat) : Target :=
  let i := off / 0x80 % 16
  let j := off % 0x80 / 4
  if h : j < 17 then .opWord ⟨i, Nat.mod_lt _ (by decide)⟩ ⟨j, h⟩ else .padding

/-- The address map (R32, R96). -/
def target (a : Offset) : Target :=
  if 0x100 ≤ a.toNat ∧ a.toNat < 0x900 then windowTarget (a.toNat - 0x100)
  else
    match a.toNat with
    | 0x000 => .id
    | 0x004 => .caps
    | 0x008 => .ctrl
    | 0x00C => .status
    | 0x010 => .cmd
    | 0x014 => .result
    | 0x018 => .opValid
    | 0x01C => .ptState
    | 0x020 => .config
    | _ => .reserved

/-- Where the platform puts offset `a` of the window in the host's own address map (R96). No access of the block
depends on it: the bus carries the 12-bit offset (R90; log entry 15). -/
def hostAddress (a : Offset) : Nat := Config.eccBase + a.toNat

/-- Byte lane k of a bus word carries bits 8k+7 to 8k: little-endian (R93). -/
def byteLane (w : Word) (k : Fin 4) : BitVec 8 := w.extractLsb' (8 * k.val) 8

/-- A transaction the bus serves: a word access with addr[1:0] = 00 (R92). -/
def aligned (a : Offset) (width : AccessWidth) : Bool := width == .word && decide (a.toNat % 4 = 0)

/-- OPi is a destination of the in-flight command (R476). -/
def State.pendingDest (s : State) (i : OpIdx) : Bool :=
  s.busy &&
    match decode s.lastCmd with
    | .ok c => (destOps c).contains i
    | .error _ => false

/-- The word an aligned read returns (R97, R98, R476). A word of a destination of the in-flight command is
any value (93_implementation_defined.md I1). -/
def State.readWord (s : State) (a : Offset) : Word :=
  match target a with
  | .id => idWord
  | .caps => capsWord
  | .ctrl => s.ctrlWord
  | .status => s.statusWord
  | .cmd => s.lastCmd
  | .result => s.result
  | .opValid => s.opValidWord
  | .ptState => s.ptStateWord
  | .config => s.configWord
  | .opWord i j => if s.pendingDest i then s.freeWord 0 else operandWord (s.op i).value j
  | .padding => 0
  | .reserved => 0

/-- The reset state of 10_state.md R66, with the world outside as it was. -/
def State.toReset (s : State) : State :=
  { State.reset with inputs := s.inputs, choice := s.choice }

/-- A write that BUSY forbids is ignored and sets OVR (R433, R474, R475). -/
def State.overrun (s : State) : State := { s with ovr := true }

/-- Acceptance of a command word (10_state.md R37). -/
def State.accept (s : State) (v : Word) : State :=
  { s with lastCmd := v, done := false, busy := true }

/-- The host's write of one operand word: it stores the word and sets VALID (R41, R98). -/
def State.writeOpWord (s : State) (i : OpIdx) (j : WordIdx) (v : Word) : State :=
  { s with ops := s.ops.set i { valid := true, value := setOperandWord (s.op i).value j v } }

/-- A write to OPVALID: VALID[i] <- 0 for every i with v[i] = 1; the words keep their values (R39). -/
def State.clearValid (s : State) (v : Word) : State :=
  { s with ops := s.ops.mapFinIdx fun i r _ => { r with valid := r.valid && !v.getLsbD i } }

/-- The effect of an aligned write (R99, R475). -/
def State.writeWord (s : State) (a : Offset) (v : Word) : State :=
  match target a with
  | .ctrl => if v.getLsbD 1 then s.toReset else { s with irqEn := v.getLsbD 0 }
  | .status => { s with done := s.done && !v.getLsbD 1, ovr := s.ovr && !v.getLsbD 3 }
  | .cmd => if s.busy then s.overrun else s.accept v
  | .opValid => if s.busy then s.overrun else s.clearValid v
  | .opWord i j => if s.busy then s.overrun else s.writeOpWord i j v
  | .id => s
  | .caps => s
  | .result => s
  | .ptState => s
  | .config => s
  | .padding => s
  | .reserved => s

/-- A bus read: the word with OKAY, or 0 with ERROR (R92). It changes nothing else (R99). -/
def State.busRead (s : State) (a : Offset) (width : AccessWidth) : State :=
  if aligned a width then { s with resp := some { okay := true, data := s.readWord a } }
  else { s with resp := some { okay := false, data := 0 } }

/-- A bus write: its effect with OKAY, or no effect with ERROR (R92, R432). -/
def State.busWrite (s : State) (a : Offset) (width : AccessWidth) (v : Word) : State :=
  if aligned a width then { s.writeWord a v with resp := some { okay := true, data := 0 } }
  else { s with resp := some { okay := false, data := 0 } }

/-- The platform offers a word on the RNG port: it is taken when rng_req = 1, which then falls, and ignored
otherwise (60_exceptions.md R445). -/
def State.offerRng (s : State) (w : Word) : State :=
  if s.rngReq then { s with rngReq := false, drawn := s.drawn ++ [w] } else s

/-- rst_n = 0: every piece of state is held at its reset value (R470). -/
def State.assertReset (s : State) : State := { s.toReset with inReset := true }

/-- rst_n = 1 again (R470). -/
def State.releaseReset (s : State) : State := { s with inReset := false }

end Sys2Proof.Machine
end

