-- ==== Sys2Proof/Machine/GroupLaw.lean ====
section
/-! DEFINITION. The group law on abstract points (spec 43_group_law.md R271, R278, R279, R281), the curve
predicate (00_scope.md R11) and the integer conversions of points. Coordinates are exact integers, and
every result is narrowed with `residue` (00_scope.md R16). -/

namespace Sys2Proof.Machine

/-- The infinity encoding INF_ENC(b) of R271. -/
def infEnc (b : Nat) : Nat × Nat := if b = 0 then (0, 1) else (0, 0)

/-- A coordinate pair read with the infinity encoding (R207, R272). -/
def Domain.pointOf (d : Domain) (x y : Nat) : Point :=
  if (x, y) = infEnc d.b then .inf else .aff x y

/-- A point as a coordinate pair, with the infinity encoding (R209, R275). -/
def Domain.coords (d : Domain) : Point → Nat × Nat
  | .inf => infEnc d.b
  | .aff x y => (x, y)

/-- `x(P)`, with `x(INF) = 0` (R10). -/
def Point.x : Point → Nat
  | .inf => 0
  | .aff x _ => x

/-- Whether a point is INF. -/
def Point.isInf : Point → Bool
  | .inf => true
  | .aff _ _ => false

/-- `on_curve(P)`: true for INF, and y² ≡ x³ + a·x + b (mod p) for an affine point (R11). -/
def Domain.onCurve (d : Domain) : Point → Bool
  | .inf => true
  | .aff x y => decide ((y * y) % d.p = (x * x * x + d.a * x + d.b) % d.p)

/-- The negation ⊖P (R278). -/
def Domain.neg (d : Domain) : Point → Point
  | .inf => .inf
  | .aff x y => .aff x (residue (d.p - y) d.p)

/-- The doubling dbl(P) by the tangent rule (R279). -/
def Domain.dbl (d : Domain) : Point → Point
  | .inf => .inf
  | .aff x y =>
    if y = 0 then .inf
    else
      let l := (3 * x * x + d.a) * invMod d.p (2 * y) % d.p
      let x3 := residue (l * l - 2 * x) d.p
      .aff x3 (residue (l * (x - x3) - y) d.p)

/-- The addition P ⊕ Q by the chord rule (R281). -/
def Domain.add (d : Domain) : Point → Point → Point
  | .inf, Q => Q
  | .aff x1 y1, .inf => .aff x1 y1
  | .aff x1 y1, .aff x2 y2 =>
    if x1 = x2 then
      if y1 = y2 then d.dbl (.aff x1 y1) else .inf
    else
      let l := residue ((y2 - y1) * invMod d.p (residue (x2 - x1) d.p)) d.p
      let x3 := residue (l * l - x1 - x2) d.p
      .aff x3 (residue (l * (x1 - x3) - y1) d.p)

/-- [k]P by the definition of R12: [0]P = INF and [k]P = [k−1]P ⊕ P. -/
def Domain.mulRef (d : Domain) : Nat → Point → Point
  | 0, _ => .inf
  | k + 1, P => d.add (d.mulRef k P) P

/-- The affine point of a Jacobian triple, with Z = 0 meaning INF (R273). -/
def Domain.ofJacobian (d : Domain) (X Y Z : Nat) : Point :=
  if Z = 0 then .inf
  else
    let i := invMod d.p Z
    .aff (X * i ^ 2 % d.p) (Y * i ^ 3 % d.p)

/-- The getAffine/setAffine round trip of SET_KEYPAIR: norm(AFF(INF_ENC(b))) = INF (R374). -/
def Domain.norm (d : Domain) : Point → Point
  | .inf => .inf
  | .aff x y => d.pointOf x y

/-- Whether 4a³ + 27b² ≡ 0 (mod p): the curve is singular (R254; log entry 10). -/
def Domain.singular (d : Domain) : Bool := decide ((4 * d.a ^ 3 + 27 * d.b ^ 2) % d.p = 0)

end Sys2Proof.Machine
end

