-- ==== Sys2Proof/Machine/DomainCmds.lean ====
section
/-! DEFINITION. The context and domain commands (spec 41_domain.md R201 to R210). -/

namespace Sys2Proof.Machine

/-- NOP: RESULT <- 0, with no check (R201). -/
def execNop (s : State) : StepResult := s.finish [] s 0

/-- The context-bound state that INIT and the domain commands reset: both key slots are cleared and every
VALID point register becomes STALE (R51, R53, R473, R480). -/
def State.dropContextBound (s : State) : State := s.clearKeys.staleAll

/-- INIT: a fresh context, no domain, engines unbound (R202). -/
def execInit (policy : Policy) (fieldBits : BitVec 10) (s : State) : StepResult :=
  s.finish
    [(decide (Config.minFieldBits ≤ fieldBits.toNat) && decide (fieldBits.toNat ≤ Config.maxFieldBits),
      .rangeError)]
    { s.dropContextBound with
      ctx := { init := true, fieldBits := fieldBits.toNat, policy := policy }
      dom := .cleared }
    0

/-- `check_domain`: the seven conditions, in order, each a RangeError when false (R204). -/
def domainChecks (fieldBits : Nat) (t : CurveTuple) : List Check :=
  [(decide (t.p % 2 = 1) && decide (3 ≤ t.p) && decide (bitlen t.p ≤ fieldBits), .rangeError),
   (decide (t.a < t.p), .rangeError),
   (decide (t.b < t.p), .rangeError),
   (decide (t.gx < t.p), .rangeError),
   (decide (t.gy < t.p), .rangeError),
   (decide (t.r % 2 = 1) && decide (3 ≤ t.r) && decide (bitlen t.r ≤ fieldBits + 1), .rangeError),
   (decide (bitlen t.h ≤ fieldBits), .rangeError)]

/-- The domain a tuple gives: G is INF where (gx, gy) is INF_ENC(b) (R203, R207), orderBits = bitlen(r),
and aIsM3 is (a + 3) mod p = 0 (R56). -/
def domainOf (t : CurveTuple) : Domain where
  set := true
  p := t.p
  a := t.a
  b := t.b
  G := if (t.gx, t.gy) = infEnc t.b then .inf else .aff t.gx t.gy
  r := t.r
  h := t.h
  orderBits := bitlen t.r
  aIsM3 := decide ((t.a + 3) % t.p = 0)

/-- The commit of SET_DOMAIN and SET_STD_DOMAIN: the whole domain is replaced (R203, R211). -/
def State.installDomain (s : State) (t : CurveTuple) : State :=
  { s.dropContextBound with dom := domainOf t }

/-- The tuple SET_DOMAIN reads from OP0 to OP6 (R203). -/
def State.domainOperands (s : State) : CurveTuple where
  p := s.opVal 0
  a := s.opVal 1
  b := s.opVal 2
  gx := s.opVal 3
  gy := s.opVal 4
  r := s.opVal 5
  h := s.opVal 6

/-- SET_DOMAIN (R203). -/
def execSetDomain (s : State) : StepResult :=
  s.finish
    (s.presenceChecks (domainRegs.map .op) ++ [(s.ctx.init, .contextMismatch)] ++
      domainChecks s.ctx.fieldBits s.domainOperands)
    (s.installDomain s.domainOperands) 0

/-- SET_STD_DOMAIN (R208): ContextMismatch, then InvalidCurveId, then the checks of R204 on the catalog's
tuple. -/
def execSetStdDomain (cid : BitVec 8) (s : State) : StepResult :=
  match catalog cid with
  | none => s.finish [(s.ctx.init, .contextMismatch), (false, .invalidCurveId)] s 0
  | some t =>
    s.finish ([(s.ctx.init, .contextMismatch)] ++ domainChecks s.ctx.fieldBits t) (s.installDomain t) 0

/-- GET_DOMAIN: OP0 to OP6 <- p, a, b, Gx, Gy, r, h (R209). -/
def execGetDomain (s : State) : StepResult :=
  let g := s.dom.coords s.dom.G
  s.finish (s.commonChecks [])
    (((((((s.writeOp 0 s.dom.p).writeOp 1 s.dom.a).writeOp 2 s.dom.b).writeOp 3 g.1).writeOp 4 g.2).writeOp 5
      s.dom.r).writeOp 6 s.dom.h)
    0

/-- GET_ORDER_BITS: RESULT <- bitlen(r) (R210). -/
def execGetOrderBits (s : State) : StepResult :=
  s.finish (s.commonChecks []) s (BitVec.ofNat 32 (bitlen s.dom.r))

end Sys2Proof.Machine
end

