-- ==== Sys2Proof/Machine/GroupCmds.lean ====
section
/-! DEFINITION. The point commands (spec 43_group_law.md R272 to R283). For a prime p each is the function
of abstract values its rule gives; for a composite p every one but PT_SET_INF ends as 41_domain.md R206
says. In the drawn states, draws 10 and above are destination values. -/

namespace Sys2Proof.Machine

/-- A coordinate or scalar check: the value is below p (R272, R273). -/
def State.coordChecks (s : State) (srcs : List OpIdx) : List Check :=
  srcs.map fun i => (decide (s.opVal i < s.dom.p), .rangeError)

/-- PT_SET_AFFINE (R272): the pair INF_ENC(b) stands for INF, and the curve equation is not checked. -/
def execPtSetAffine (rd : PtIdx) (ra rb : OpIdx) (s : State) : StepResult :=
  s.finishGroup (.ptSetAffine rd ra rb) (s.writePt rd (s.freePoint 10))
    (s.commonChecks [.op ra, .op rb] ++ s.coordChecks [ra, rb])
    (s.writePt rd (s.dom.pointOf (s.opVal ra) (s.opVal rb))) 0

/-- PT_SET_PROJ (R273): the affine image of a Jacobian triple, INF when Z = 0. -/
def execPtSetProj (rd : PtIdx) (ra rb rc : OpIdx) (s : State) : StepResult :=
  s.finishGroup (.ptSetProj rd ra rb rc) (s.writePt rd (s.freePoint 10))
    (s.commonChecks [.op ra, .op rb, .op rc] ++ s.coordChecks [ra, rb, rc])
    (s.writePt rd (s.dom.ofJacobian (s.opVal ra) (s.opVal rb) (s.opVal rc))) 0

/-- PT_SET_INF (R274). It is not among the commands that R206 leaves open for a composite p. -/
def execPtSetInf (rd : PtIdx) (s : State) : StepResult :=
  s.finish (s.commonChecks []) (s.writePt rd .inf) 0

/-- PT_GET_AFFINE (R275): INF gives INF_ENC(b) and RESULT 1. -/
def execPtGetAffine (rd re : OpIdx) (ra : PtIdx) (s : State) : StepResult :=
  let P := s.ptVal ra
  let xy := s.dom.coords P
  s.finishGroup (.ptGetAffine rd re ra)
    ((s.writeOp rd (Config.freeNat s.choice 10)).writeOp re (Config.freeNat s.choice 11))
    (s.commonChecks [.pt ra]) ((s.writeOp rd xy.1).writeOp re xy.2) (infResult P)

/-- RESULT of PT_CHECK: 0 = Valid, 1 = AtInfinity, 2 = NotValid (R60, R276). -/
def checkResult (d : Domain) (P : Point) : Word :=
  if P.isInf then 1 else if d.onCurve P then 0 else 2

/-- PT_CHECK (R276). -/
def execPtCheck (ra : PtIdx) (s : State) : StepResult :=
  s.finishGroup (.ptCheck ra) s (s.commonChecks [.pt ra]) s (checkResult s.dom (s.ptVal ra))

/-- PT_CMP: RESULT 0 = Equal, 1 = NotEqual, by equality of abstract values (R277). -/
def execPtCmp (ra rb : PtIdx) (s : State) : StepResult :=
  s.finishGroup (.ptCmp ra rb) s (s.commonChecks [.pt ra, .pt rb]) s
    (if s.ptVal ra = s.ptVal rb then 0 else 1)

/-- PT_NEG: PT[RD] <- ⊖P (R278). -/
def execPtNeg (rd ra : PtIdx) (s : State) : StepResult :=
  let Q := s.dom.neg (s.ptVal ra)
  s.finishGroup (.ptNeg rd ra) (s.writePt rd (s.freePoint 10)) (s.commonChecks [.pt ra])
    (s.writePt rd Q) (infResult Q)

/-- PT_DBL: PT[RD] <- dbl(P) (R282). -/
def execPtDbl (rd ra : PtIdx) (s : State) : StepResult :=
  let Q := s.dom.dbl (s.ptVal ra)
  s.finishGroup (.ptDbl rd ra) (s.writePt rd (s.freePoint 10)) (s.commonChecks [.pt ra])
    (s.writePt rd Q) (infResult Q)

/-- PT_ADD: PT[RD] <- P ⊕ Q (R283). -/
def execPtAdd (rd ra rb : PtIdx) (s : State) : StepResult :=
  let S := s.dom.add (s.ptVal ra) (s.ptVal rb)
  s.finishGroup (.ptAdd rd ra rb) (s.writePt rd (s.freePoint 10)) (s.commonChecks [.pt ra, .pt rb])
    (s.writePt rd S) (infResult S)

end Sys2Proof.Machine
end

