-- ==== Sys2Proof/Machine/ScalarAlg.lean ====
section
/-! DEFINITION. The scalar-multiplication algorithms (spec 44_scalar_mul.md R323 to R332). A single-scalar
algorithm works on a file of working registers and keeps the list of the group operations it has done, each
with the registers it names, so that the operation schedule of R329 is a fact about the run and not a second
description of it. -/

namespace Sys2Proof.Machine

/-! ### The working registers (R323, R325) -/

/-- A working register of a single-scalar algorithm: a variable of its pseudocode that holds a point
(log entry 26). -/
inductive WorkReg where
  /-- The input point: T of R323, P of R325. -/
  | P
  /-- U = ⊖T of R323. -/
  | U
  /-- tbl[j] of R325. -/
  | tbl (j : Nat)
  /-- The accumulator R. -/
  | R
  /-- acc of R327 in a window: what the scan leaves for the addition. -/
  | S
  /-- The correction C of R328. -/
  | C
  /-- ⊖C, the second operand of the last addition (R325). -/
  | N
  deriving DecidableEq, Repr

/-- The contents of the working registers; one that is not listed holds INF. -/
abbrev WorkFile := List (WorkReg × Point)

/-- The point a working register holds. -/
def readReg : WorkFile → WorkReg → Point
  | [], _ => .inf
  | (r', P) :: f, r => if r' = r then P else readReg f r

/-- The file with one register written. -/
def writeReg : WorkFile → WorkReg → Point → WorkFile
  | [], r, P => [(r, P)]
  | (r', P') :: f, r, P => if r' = r then (r, P) :: f else (r', P') :: writeReg f r P

/-- A step of a schedule with its operand registers: an addition A, a doubling D, an oblivious scan S of the
table entries 1 to n (R329). -/
inductive GroupOp where
  | add (dst a b : WorkReg)
  | dbl (dst a : WorkReg)
  | scan (dst : WorkReg) (n : Nat)
  deriving DecidableEq, Repr

/-- The letter of a step: A, D or S (R329). -/
inductive OpKind where
  | add
  | dbl
  | scan
  deriving DecidableEq, Repr

/-- The letter of a step. -/
def GroupOp.kind : GroupOp → OpKind
  | .add _ _ _ => .add
  | .dbl _ _ => .dbl
  | .scan _ _ => .scan

/-- The working registers, with the steps done so far, oldest first. -/
structure Datapath where
  file : WorkFile
  ops : List GroupOp
  deriving DecidableEq, Repr

/-- The point in a register. -/
def Datapath.get (t : Datapath) (r : WorkReg) : Point := readReg t.file r

/-- The accumulator R, where an algorithm leaves its result. -/
def Datapath.acc (t : Datapath) : Point := t.get .R

/-- r <- P, which is no step of a schedule. -/
def Datapath.load (r : WorkReg) (P : Point) (t : Datapath) : Datapath :=
  { t with file := writeReg t.file r P }

/-- dst <- dbl(a). -/
def Datapath.dbl (d : Domain) (dst a : WorkReg) (t : Datapath) : Datapath :=
  { file := writeReg t.file dst (d.dbl (t.get a)), ops := t.ops ++ [.dbl dst a] }

/-- dst <- a ⊕ b. -/
def Datapath.add (d : Domain) (dst a b : WorkReg) (t : Datapath) : Datapath :=
  { file := writeReg t.file dst (d.add (t.get a) (t.get b)), ops := t.ops ++ [.add dst a b] }

/-- `n` doublings of a register in place. -/
def Datapath.dblTimes (d : Domain) (r : WorkReg) : Nat → Datapath → Datapath
  | 0, t => t
  | n + 1, t => Datapath.dblTimes d r n (t.dbl d r r)

/-! ### FAST (R323) -/

/-- One pass of the FAST loop at bit `i` of K = k and H = 3k. -/
def fastStep (d : Domain) (K H i : Nat) (t : Datapath) : Datapath :=
  let t := t.dbl d .R .R
  if H.testBit i && !K.testBit i then t.add d .R .R .P
  else if !H.testBit i && K.testBit i then t.add d .R .R .U
  else t

/-- The FAST loop from bit `i` down to bit 1. -/
def fastLoop (d : Domain) (K H : Nat) : Nat → Datapath → Datapath
  | 0, t => t
  | i + 1, t => fastLoop d K H i (fastStep d K H (i + 1) t)

/-- `fast_mul(k, P)` (R323), with decision D27 for k = 0. -/
def fastMul (d : Domain) (k : Nat) (P : Point) : Datapath :=
  if k = 0 then { file := [(.R, .inf)], ops := [] }
  else fastLoop d k (3 * k) (bitlen (3 * k) - 2) { file := [(.P, P), (.U, d.neg P), (.R, P)], ops := [] }

/-! ### CT (R324 to R328) -/

/-- `WIN(bits)`: the window width (R7, R324). -/
def windowWidth (bits : Nat) : Nat := if bits ≤ 256 then 4 else 5

/-- NW = ⌈ORDER_BITS / w⌉ (R324). -/
def windowCount (bits : Nat) : Nat := (bits + windowWidth bits - 1) / windowWidth bits

/-- The first `n` table additions, tbl[j] <- tbl[j − 1] ⊕ P from j = 2 up (R325). -/
def ctTable (d : Domain) : Nat → Datapath → Datapath
  | 0, t => t
  | n + 1, t => (ctTable d n t).add d (.tbl (n + 2)) (.tbl (n + 1)) .P

/-- `scan(tbl, digit)` (R327): every entry tbl[1] to tbl[n] is read, and the one whose index is `digit` is
kept. -/
def scan (f : WorkFile) (n digit : Nat) : Point :=
  (List.range n).foldl (fun acc i => if i + 1 = digit then readReg f (.tbl (i + 1)) else acc) .inf

/-- dst <- scan(tbl, digit), with n = 2^w entries. The digit is data: the step names only registers. -/
def Datapath.scan (dst : WorkReg) (n digit : Nat) (t : Datapath) : Datapath :=
  { file := writeReg t.file dst (Machine.scan t.file n digit), ops := t.ops ++ [.scan dst n] }

/-- The recoding loop of R326 for the digits `i`, `i + 1`, … of k', with the borrow from below. The list
has the low digit first and ends with d[NW] = e[NW] − borrow. -/
def recodeLoop (w k' : Nat) : Nat → Nat → Nat → List Nat
  | 0, i, borrow => [k' / 2 ^ (w * i) % 2 ^ w - borrow]
  | n + 1, i, borrow =>
    let e := k' / 2 ^ (w * i) % 2 ^ w
    if e ≤ borrow then (e + 2 ^ w - borrow) :: recodeLoop w k' n (i + 1) 1
    else (e - borrow) :: recodeLoop w k' n (i + 1) 0

/-- `recode(k, w, NW)` (R326): the digits d[0] to d[NW] of k' = k + 2·2^(w·NW), low digit first. -/
def recode (k w nw : Nat) : List Nat := recodeLoop w (k + 2 * 2 ^ (w * nw)) nw 0 0

/-- One window of R325: w doublings, then R <- R ⊕ scan(tbl, d[i]). -/
def ctWindow (d : Domain) (w : Nat) (t : Datapath) (digit : Nat) : Datapath :=
  ((t.dblTimes d .R w).scan .S (2 ^ w) digit).add d .R .R .S

/-- The windows of R325: the scan of d[NW], then the windows from the top. -/
def ctWindows (d : Domain) (w : Nat) (digits : List Nat) (t : Datapath) : Datapath :=
  digits.tail.foldl (ctWindow d w) (t.scan .R (2 ^ w) (digits.headD 0))

/-- The correction of R328: C <- P, `n` doublings of C, and R <- R ⊕ ⊖C. -/
def ctCorrect (d : Domain) (n : Nat) (t : Datapath) : Datapath :=
  let t := (t.load .C (t.get .P)).dblTimes d .C n
  (t.load .N (d.neg (t.get .C))).add d .R .R .N

/-- `ct_mul(k, P)` (R325): tbl[1] <- P, the table, the recoding, the windows, the correction. -/
def ctMul (d : Domain) (k : Nat) (P : Point) : Datapath :=
  let w := windowWidth d.orderBits
  let nw := windowCount d.orderBits
  let t := ctTable d (2 ^ w - 1) { file := [(.P, P), (.tbl 1, P)], ops := [] }
  ctCorrect d (w * nw + 1) (ctWindows d w (recode k w nw).reverse t)

/-- The operation schedule that R329 fixes for an order of `bits` bits, with the operand registers. -/
def ctSchedule (bits : Nat) : List GroupOp :=
  let w := windowWidth bits
  let nw := windowCount bits
  ((List.range (2 ^ w - 1)).map fun i => .add (.tbl (i + 2)) (.tbl (i + 1)) .P) ++ [.scan .R (2 ^ w)] ++
    (List.replicate nw (List.replicate w (.dbl .R .R) ++ [.scan .S (2 ^ w), .add .R .R .S])).flatten ++
    List.replicate (w * nw + 1) (.dbl .C .C) ++ [.add .R .R .N]

/-! ### The two-scalar product (R331, R332) -/

/-- The entry of the table {INF, P, Q, P ⊕ Q} at s1[i] + 2·s2[i] (R331). -/
def shamirEntry (d : Domain) (P Q : Point) (b1 b2 : Bool) : Point :=
  match b1, b2 with
  | false, false => .inf
  | true, false => P
  | false, true => Q
  | true, true => d.add P Q

/-- The loop of R331 from bit `i − 1` down to bit 0. -/
def fastLoop2 (d : Domain) (s1 : Nat) (P : Point) (s2 : Nat) (Q : Point) : Nat → Point → Point
  | 0, R => R
  | i + 1, R =>
    let R := d.dbl R
    let R := if s1.testBit i || s2.testBit i then
        d.add R (shamirEntry d P Q (s1.testBit i) (s2.testBit i)) else R
    fastLoop2 d s1 P s2 Q i R

/-- `fast_mul2(s1, P, s2, Q)`: Shamir's trick (R331). -/
def fastMul2 (d : Domain) (s1 : Nat) (P : Point) (s2 : Nat) (Q : Point) : Point :=
  fastLoop2 d s1 P s2 Q (max (bitlen s1) (bitlen s2)) .inf

/-- The CT two-scalar product: two CT multiplications and one addition (R332). -/
def ctMul2 (d : Domain) (s1 : Nat) (P : Point) (s2 : Nat) (Q : Point) : Point :=
  d.add (ctMul d s1 P).acc (ctMul d s2 Q).acc

/-- The single-scalar algorithm that the policy selects (R321). -/
def policyMul (pol : Policy) (d : Domain) (k : Nat) (P : Point) : Point :=
  match pol with
  | .fast => (fastMul d k P).acc
  | .ct => (ctMul d k P).acc

/-- The two-scalar algorithm that the policy selects (R321). On a singular curve the FAST loop of R331 can
leave the value [s1]P ⊕ [s2]Q that R322 fixes, so there R322's value is taken (log entry 10). -/
def policyMul2 (pol : Policy) (d : Domain) (s1 : Nat) (P : Point) (s2 : Nat) (Q : Point) : Point :=
  match pol with
  | .fast =>
    if d.singular then d.add (fastMul d s1 P).acc (fastMul d s2 Q).acc
    else fastMul2 d s1 P s2 Q
  | .ct => ctMul2 d s1 P s2 Q

end Sys2Proof.Machine
end

