-- ==== Sys2Proof/Machine/ScalarMul.lean ====
section
/-! DEFINITION. The scalar-multiplication commands (spec 44_scalar_mul.md R333 to R335). The result for an
on-curve point is fixed by R322; for an off-curve point it is any Point, drawn at 20 (R322,
93_implementation_defined.md I2). -/

namespace Sys2Proof.Machine

/-- The scalar check: bitlen(k) ≤ ORDER_BITS (R320). -/
def State.scalarCheck (s : State) (k : Nat) : Check := (decide (bitlen k ≤ s.dom.orderBits), .rangeError)

/-- The result point of a single-scalar multiplication (R322): the algorithm's value for an on-curve P,
any Point otherwise. -/
def State.mulPoint (s : State) (pol : Policy) (k : Nat) (P : Point) : Point :=
  if s.dom.onCurve P then policyMul pol s.dom k P else s.freePoint 20

/-- The result point of a two-scalar product (R322): any Point unless both points are on the curve. -/
def State.mulPoint2 (s : State) (s1 : Nat) (P : Point) (s2 : Nat) (Q : Point) : Point :=
  if s.dom.onCurve P && s.dom.onCurve Q then policyMul2 s.ctx.policy s.dom s1 P s2 Q else s.freePoint 20

/-- PT_MUL (R333). -/
def execPtMul (rd ra : PtIdx) (rb : OpIdx) (s : State) : StepResult :=
  let S := s.mulPoint s.ctx.policy (s.opVal rb) (s.ptVal ra)
  s.finishGroup (.ptMul rd ra rb) (s.writePt rd (s.freePoint 10))
    (s.commonChecks [.pt ra, .op rb] ++ [s.scalarCheck (s.opVal rb)])
    (s.writePt rd S) (infResult S)

/-- PT_MUL_BASE (R334). -/
def execPtMulBase (rd : PtIdx) (ra : OpIdx) (s : State) : StepResult :=
  let S := s.mulPoint s.ctx.policy (s.opVal ra) s.dom.G
  s.finishGroup (.ptMulBase rd ra) (s.writePt rd (s.freePoint 10))
    (s.commonChecks [.op ra] ++ [s.scalarCheck (s.opVal ra)])
    (s.writePt rd S) (infResult S)

/-- PT_MUL2 (R335): [s1]P ⊕ [s2]Q with P = PT[RA], s1 = OP[RB], Q = PT[RC], s2 = OP[RE]. -/
def execPtMul2 (rd ra : PtIdx) (rb : OpIdx) (rc : PtIdx) (re : OpIdx) (s : State) : StepResult :=
  let S := s.mulPoint2 (s.opVal rb) (s.ptVal ra) (s.opVal re) (s.ptVal rc)
  s.finishGroup (.ptMul2 rd ra rb rc re) (s.writePt rd (s.freePoint 10))
    (s.commonChecks [.pt ra, .op rb, .pt rc, .op re] ++
      [s.scalarCheck (s.opVal rb), s.scalarCheck (s.opVal re)])
    (s.writePt rd S) (infResult S)

end Sys2Proof.Machine
end

