-- ==== Sys2Proof/Machine/Keys.lean ====
section
/-! DEFINITION. Keys, DSA signature and ECDH (spec 45_keys_signature.md R371 to R383). Multiplications by a
private key use CT whatever the policy is (44_scalar_mul.md R321). -/

namespace Sys2Proof.Machine

/-- The number of RNG words of one try: nw = ⌈ORDER_BITS/32⌉ (R371). -/
def wordsPerTry (orderBits : Nat) : Nat := (orderBits + 31) / 32

/-- Words as an integer, least significant first (R94, R371). -/
def wordsValue : List Word → Nat
  | [] => 0
  | w :: ws => w.toNat + 2 ^ 32 * wordsValue ws

/-- One try of sample_priv: the drawn words, masked to ORDER_BITS (R371). -/
def sampleValue (orderBits : Nat) (ws : List Word) : Nat := wordsValue ws % 2 ^ orderBits

/-- GEN_KEYPAIR (R372), one move of the sequencer. While a try lacks words the move requests the next word
(rng_req, R445) and the command stays in flight; a rejected try starts the next one; an accepted try
completes. With no word offered it never completes (R482). -/
def execGenKeypair (rd : OpIdx) (re : PtIdx) (s : State) : StepResult :=
  match firstFailure (s.commonChecks []) with
  | some e => .next (s.completeErr e)
  | none =>
    if s.drawn.length < wordsPerTry s.dom.orderBits then .next { s with rngReq := true }
    else
      let d := sampleValue s.dom.orderBits s.drawn
      if 0 < d ∧ d < s.dom.r then
        s.finishGroup (.genKeypair rd re)
          ((s.writeOp rd (Config.freeNat s.choice 13)).writePt re (s.freePoint 10)) []
          ((s.writeOp rd d).writePt re (s.mulPoint .ct d s.dom.G)) 0
      else .next { s with rngReq := true, drawn := [] }

/-- The check 0 < d < r (R373, R375). -/
def State.privateKeyCheck (s : State) (d : Nat) : Check :=
  (decide (0 < d) && decide (d < s.dom.r), .invalidPrivateKey)

/-- DERIVE_PUB: PT[RD] <- [d]G for 0 < d < r (R373). -/
def execDerivePub (rd : PtIdx) (ra : OpIdx) (s : State) : StepResult :=
  let Q := s.mulPoint .ct (s.opVal ra) s.dom.G
  s.finishGroup (.derivePub rd ra) (s.writePt rd (s.freePoint 10))
    (s.commonChecks [.op ra] ++ [s.privateKeyCheck (s.opVal ra)])
    (s.writePt rd Q) (infResult Q)

/-- The key pair SET_KEYPAIR leaves in the slot: a field not supplied keeps its value, and a supplied pub is
normalised (R374). -/
def State.importedKey (s : State) (slot : KeySlot) (priv : Option OpIdx) (pub : Option PtIdx) : KeyPair where
  priv := match priv with
    | none => (s.key slot).priv
    | some i => s.opVal i
  pub := match pub with
    | none => (s.key slot).pub
    | some i => s.dom.norm (s.ptVal i)

/-- The slot with drawn contents, for a composite p (R206). -/
def State.drawnKey (s : State) (slot : KeySlot) (priv : Option OpIdx) : KeyPair where
  priv := match priv with
    | none => (s.key slot).priv
    | some _ => s.freeBelow 13 (2 ^ s.dom.orderBits)
  pub := s.freePoint 10

/-- The checks of SET_KEYPAIR (R374): neither field supplied is a NullInput, then the sources, the context
and the width of priv. -/
def State.keypairChecks (s : State) (priv : Option OpIdx) (pub : Option PtIdx) : List Check :=
  [(priv.isSome || pub.isSome, .nullInput)] ++ s.commonChecks (optOpSrc priv ++ optPtSrc pub) ++
    priv.toList.map fun i => s.scalarCheck (s.opVal i)

/-- SET_KEYPAIR (R374). With a public key it uses the group law, so a composite p leaves it open (R206);
without one it is exact. -/
def execSetKeypair (slot : KeySlot) (priv : Option OpIdx) (pub : Option PtIdx) (s : State) : StepResult :=
  match pub with
  | none => s.finish (s.keypairChecks priv pub) (s.writeKey slot (s.importedKey slot priv pub)) 0
  | some _ =>
    s.finishGroup (.setKeypair slot priv pub) (s.writeKey slot (s.drawnKey slot priv)) (s.keypairChecks priv pub)
      (s.writeKey slot (s.importedKey slot priv pub)) 0

/-- A private key from an operand register, or KEY[REG].priv when the field is absent (FL[0] = 1, R136). -/
def State.privateKey (s : State) : Option OpIdx → Nat
  | none => s.keyReg.priv
  | some i => s.opVal i

/-- signX = x(K) mod r, K the ephemeral public key (R375). -/
def State.signX (s : State) : Nat := s.keyEph.pub.x % s.dom.r

/-- signY = k⁻¹·(e + d·signX) mod r, k the ephemeral private key (R375). -/
def State.signY (s : State) (e d : Nat) : Nat :=
  invMod s.dom.r s.keyEph.priv * (e + d * s.signX) % s.dom.r

/-- SIGN (R375, R380): MessageError, InvalidPrivateKey, then EphemeralKeyError from its three causes. -/
def execSign (rd re ra : OpIdx) (priv : Option OpIdx) (s : State) : StepResult :=
  let e := s.opVal ra
  let d := s.privateKey priv
  s.finishGroup (.sign rd re ra priv)
    ((s.writeOp rd (Config.freeNat s.choice 10)).writeOp re (Config.freeNat s.choice 11))
    (s.commonChecks ([.op ra] ++ optOpSrc priv) ++
      [(decide (e < s.dom.r), .messageError),
       s.privateKeyCheck d,
       (decide (s.signX ≠ 0), .ephemeralKeyError),
       (decide (Nat.gcd s.keyEph.priv s.dom.r = 1), .ephemeralKeyError),
       (decide (s.signY e d ≠ 0), .ephemeralKeyError)])
    ((s.writeOp rd s.signX).writeOp re (s.signY e d)) 0

/-- A public key from a point register, or KEY[REG].pub when the field is absent (FL[0] = 1, R136). -/
def State.publicKey (s : State) : Option PtIdx → Point
  | none => s.keyReg.pub
  | some i => s.ptVal i

/-- RESULT of VERIFY: 0 = Valid, 1 = Invalid (R377, R383). -/
def State.verifyResult (s : State) (e sx sy : Nat) (Q : Point) : Word :=
  if s.dom.r ≤ sx ∨ s.dom.r ≤ sy then 1
  else if Nat.gcd sy s.dom.r ≠ 1 then 1
  else
    let h := invMod s.dom.r sy
    let R := s.mulPoint2 (e * h % s.dom.r) s.dom.G (sx * h % s.dom.r) Q
    if R.isInf then 1
    else if R.x % s.dom.r = sx then 0 else 1

/-- VERIFY (R377). An invalid signature is an OK completion with RESULT 1 (R378). -/
def execVerify (ra rb rc : OpIdx) (pub : Option PtIdx) (s : State) : StepResult :=
  s.finishGroup (.verify ra rb rc pub) s
    (s.commonChecks ([.op ra, .op rb, .op rc] ++ optPtSrc pub) ++
      [(decide (s.opVal ra < s.dom.r), .messageError)])
    s (s.verifyResult (s.opVal ra) (s.opVal rb) (s.opVal rc) (s.publicKey pub))

/-- ECDH (R379): OP[RD] <- x([d]P), or ShareKeyError when the product is INF. -/
def execEcdh (rd : OpIdx) (priv : Option OpIdx) (rb : PtIdx) (s : State) : StepResult :=
  let d := s.privateKey priv
  let T := s.mulPoint .ct d (s.ptVal rb)
  s.finishGroup (.ecdh rd priv rb) (s.writeOp rd (Config.freeNat s.choice 10))
    (s.commonChecks (optOpSrc priv ++ [.pt rb]) ++
      [s.scalarCheck d, (!T.isInf, .shareKeyError)])
    (s.writeOp rd T.x) 0

end Sys2Proof.Machine
end

