-- ==== Sys2Proof/Machine/Montgomery.lean ====
section
/-! DEFINITION. The Montgomery commands (spec 40_montgomery.md R172 to R177). Their results are exact for
every odd modulus, prime or not (R180). -/

namespace Sys2Proof.Machine

/-- The operand discipline of R172 steps 2 to 4: presence, context, then every source value below m_E. -/
def State.mmChecks (s : State) (e : EngineSel) (srcs : List OpIdx) : List Check :=
  s.commonChecks (srcs.map .op) ++
    srcs.map fun i => (decide (s.opVal i < (s.engine e).m), .rangeError)

/-- MM_ENC: OP[RD] <- a·R mod m (R173). -/
def execMmEnc (rd ra : OpIdx) (e : EngineSel) (s : State) : StepResult :=
  let E := s.engine e
  s.finish (s.mmChecks e [ra]) (s.writeOp rd (s.opVal ra * E.radix % E.m)) 0

/-- MM_DEC: OP[RD] <- a·R⁻¹ mod m (R174). -/
def execMmDec (rd ra : OpIdx) (e : EngineSel) (s : State) : StepResult :=
  let E := s.engine e
  s.finish (s.mmChecks e [ra]) (s.writeOp rd (s.opVal ra * invMod E.m E.radix % E.m)) 0

/-- MM_MUL: OP[RD] <- a·b·R⁻¹ mod m (R175). -/
def execMmMul (rd ra rb : OpIdx) (e : EngineSel) (s : State) : StepResult :=
  let E := s.engine e
  s.finish (s.mmChecks e [ra, rb])
    (s.writeOp rd (s.opVal ra * s.opVal rb * invMod E.m E.radix % E.m)) 0

/-- MM_SQR: OP[RD] <- a²·R⁻¹ mod m (R176). -/
def execMmSqr (rd ra : OpIdx) (e : EngineSel) (s : State) : StepResult :=
  let E := s.engine e
  s.finish (s.mmChecks e [ra])
    (s.writeOp rd (s.opVal ra * s.opVal ra * invMod E.m E.radix % E.m)) 0

/-- MM_INV: OP[RD] <- R²·a⁻¹ mod m, or NoInverse when gcd(a, m) ≠ 1 (R177). -/
def execMmInv (rd ra : OpIdx) (e : EngineSel) (s : State) : StepResult :=
  let E := s.engine e
  s.finish
    (s.mmChecks e [ra] ++ [(decide (Nat.gcd (s.opVal ra) E.m = 1), .noInverse)])
    (s.writeOp rd (E.radix * E.radix * invMod E.m (s.opVal ra) % E.m)) 0

end Sys2Proof.Machine
end

