-- ==== Sys2Proof/Machine/Dispatch.lean ====
section
/-! DEFINITION. The meaning of every command of the opcode map (spec 30_encoding.md R137). -/

namespace Sys2Proof.Machine

/-- One move of the sequencer for the in-flight command `i`. -/
def exec (i : Instr) (s : State) : Host.Outcome State Fault Refusal :=
  match i with
  -- Context and domain (41_domain.md)
  | .nop => Sys2Proof.Machine.execNop s
  | .init policy fieldBits => Sys2Proof.Machine.execInit policy fieldBits s
  | .setDomain => Sys2Proof.Machine.execSetDomain s
  | .setStdDomain cid => Sys2Proof.Machine.execSetStdDomain cid s
  | .getDomain => Sys2Proof.Machine.execGetDomain s
  | .getOrderBits => Sys2Proof.Machine.execGetOrderBits s
  -- Montgomery engines (40_montgomery.md)
  | .mmEnc rd ra e => Sys2Proof.Machine.execMmEnc rd ra e s
  | .mmDec rd ra e => Sys2Proof.Machine.execMmDec rd ra e s
  | .mmMul rd ra rb e => Sys2Proof.Machine.execMmMul rd ra rb e s
  | .mmSqr rd ra e => Sys2Proof.Machine.execMmSqr rd ra e s
  | .mmInv rd ra e => Sys2Proof.Machine.execMmInv rd ra e s
  -- Points and group law (43_group_law.md)
  | .ptSetAffine rd ra rb => Sys2Proof.Machine.execPtSetAffine rd ra rb s
  | .ptSetProj rd ra rb rc => Sys2Proof.Machine.execPtSetProj rd ra rb rc s
  | .ptSetInf rd => Sys2Proof.Machine.execPtSetInf rd s
  | .ptGetAffine rd re ra => Sys2Proof.Machine.execPtGetAffine rd re ra s
  | .ptCheck ra => Sys2Proof.Machine.execPtCheck ra s
  | .ptCmp ra rb => Sys2Proof.Machine.execPtCmp ra rb s
  | .ptNeg rd ra => Sys2Proof.Machine.execPtNeg rd ra s
  | .ptDbl rd ra => Sys2Proof.Machine.execPtDbl rd ra s
  | .ptAdd rd ra rb => Sys2Proof.Machine.execPtAdd rd ra rb s
  -- Scalar multiplication (44_scalar_mul.md)
  | .ptMul rd ra rb => Sys2Proof.Machine.execPtMul rd ra rb s
  | .ptMulBase rd ra => Sys2Proof.Machine.execPtMulBase rd ra s
  | .ptMul2 rd ra rb rc re => Sys2Proof.Machine.execPtMul2 rd ra rb rc re s
  -- Keys, signature and ECDH (45_keys_signature.md)
  | .genKeypair rd re => Sys2Proof.Machine.execGenKeypair rd re s
  | .derivePub rd ra => Sys2Proof.Machine.execDerivePub rd ra s
  | .setKeypair slot priv pub => Sys2Proof.Machine.execSetKeypair slot priv pub s
  | .sign rd re ra priv => Sys2Proof.Machine.execSign rd re ra priv s
  | .verify ra rb rc pub => Sys2Proof.Machine.execVerify ra rb rc pub s
  | .ecdh rd priv rb => Sys2Proof.Machine.execEcdh rd priv rb s

end Sys2Proof.Machine
end

