-- ==== Sys2Proof/Machine/Sequencer.lean ====
section
/-! DEFINITION. The sequencer's move and the effect of each input (spec 10_state.md R58, 20_memory.md R103,
R104). -/

namespace Sys2Proof.Machine

/-- One move of the sequencer. With a command in flight its word is decoded (R141): an illegal word
completes with IllegalCommand (R139), and any other runs. With none the block stays idle (R472). -/
def State.sequencer (s : State) : StepResult :=
  if s.busy then
    match decode s.lastCmd with
    | .error _ => .next (s.completeErr .illegalCommand)
    | .ok i => exec i s
  else .next s

/-- The effect of one input. A bus access while rst_n = 0 has no step (R470). -/
def State.applyInput (s : State) : Input → StepResult
  | .read a width => if s.inReset then .fault .accessDuringReset else .next (s.busRead a width)
  | .write a width v => if s.inReset then .fault .accessDuringReset else .next (s.busWrite a width v)
  | .rng w => .next (s.offerRng w)
  | .run => s.sequencer
  | .resetAssert => .next s.assertReset
  | .resetRelease => .next s.releaseReset

/-- The state with the next input taken and a fresh index for this step's draws (log entry 4). -/
def State.advance (s : State) : State := { s with inputs := s.inputs.tail, choice := s.choice + 1 }

/-- The next input. When the world has no more to say, the sequencer goes on by itself: a completion is
eventually enabled (R482). -/
def State.nextInput (s : State) : Input := s.inputs.headD .run

end Sys2Proof.Machine
end

