-- ==== Sys2Proof/Machine/Step.lean ====
section
/-! DEFINITION. One step of the machine: the next event of the single total order of spec 20_memory.md
R103. -/

namespace Sys2Proof.Machine

/-- One step: the next input, or a move of the sequencer when no input is left. -/
def step (s : State) : Host.Outcome State Fault Refusal := s.advance.applyInput s.nextInput

/-- The state in which the command word `w` (bits at and above `nbits` zero) has just been accepted
(10_state.md R37) and the next step is the sequencer's move: the block has no program counter (R31), and
what step runs next is the in-flight command. -/
def State.withFetchWord (s : State) (nbits w : Nat) : State :=
  { s with
    lastCmd := BitVec.ofNat 32 (w % 2 ^ nbits)
    busy := true
    done := false
    rngReq := false
    drawn := []
    inReset := false
    inputs := .run :: s.inputs }

end Sys2Proof.Machine
end

