-- ==== Sys2Proof/Machine/Asm.lean ====
section
/-! DEFINITION. The assembler spelling of a command and the pseudo-instructions (spec 30_encoding.md R142,
R143). They are host-side: nothing of the machine reads them. -/

namespace Sys2Proof.Machine

/-- `op0` to `op15`. -/
def opName (i : OpIdx) : String := "op" ++ toString i.val

/-- `pt0` to `pt7`. -/
def ptName (i : PtIdx) : String := "pt" ++ toString i.val

/-- Operands separated by a comma. -/
def operandList (l : List String) : String := ", ".intercalate l

/-- A command line: the mnemonic with its suffix, then the operands. -/
def asmLine (mnemonic : String) (operands : List String) : String :=
  if operands.isEmpty then mnemonic else mnemonic ++ " " ++ operandList operands

/-- The engine suffix of an MM command. -/
def engineSuffix : EngineSel → String
  | .p => ".p"
  | .n => ".n"

/-- An optional operand register, `-` where it is absent. -/
def optOpName : Option OpIdx → String
  | none => "-"
  | some i => opName i

/-- An optional point register, `-` where it is absent. -/
def optPtName : Option PtIdx → String
  | none => "-"
  | some i => ptName i

/-- The assembler line of a command (R142). -/
def asm : Instr → String
  | .nop => "NOP"
  | .init pol fb =>
      asmLine "INIT" [toString fb.toNat, match pol with | .fast => "fast" | .ct => "ct"]
  | .setDomain => "SET_DOMAIN"
  | .setStdDomain cid => asmLine "SET_STD_DOMAIN" [toString cid.toNat]
  | .getDomain => "GET_DOMAIN"
  | .getOrderBits => "GET_ORDER_BITS"
  | .mmEnc rd ra e => asmLine ("MM_ENC" ++ engineSuffix e) [opName rd, opName ra]
  | .mmDec rd ra e => asmLine ("MM_DEC" ++ engineSuffix e) [opName rd, opName ra]
  | .mmMul rd ra rb e => asmLine ("MM_MUL" ++ engineSuffix e) [opName rd, opName ra, opName rb]
  | .mmSqr rd ra e => asmLine ("MM_SQR" ++ engineSuffix e) [opName rd, opName ra]
  | .mmInv rd ra e => asmLine ("MM_INV" ++ engineSuffix e) [opName rd, opName ra]
  | .ptSetAffine rd ra rb => asmLine "PT_SET_AFFINE" [ptName rd, opName ra, opName rb]
  | .ptSetProj rd ra rb rc => asmLine "PT_SET_PROJ" [ptName rd, opName ra, opName rb, opName rc]
  | .ptSetInf rd => asmLine "PT_SET_INF" [ptName rd]
  | .ptGetAffine rd re ra => asmLine "PT_GET_AFFINE" [opName rd, opName re, ptName ra]
  | .ptCheck ra => asmLine "PT_CHECK" [ptName ra]
  | .ptCmp ra rb => asmLine "PT_CMP" [ptName ra, ptName rb]
  | .ptNeg rd ra => asmLine "PT_NEG" [ptName rd, ptName ra]
  | .ptDbl rd ra => asmLine "PT_DBL" [ptName rd, ptName ra]
  | .ptAdd rd ra rb => asmLine "PT_ADD" [ptName rd, ptName ra, ptName rb]
  | .ptMul rd ra rb => asmLine "PT_MUL" [ptName rd, ptName ra, opName rb]
  | .ptMulBase rd ra => asmLine "PT_MUL_BASE" [ptName rd, opName ra]
  | .ptMul2 rd ra rb rc re =>
      asmLine "PT_MUL2" [ptName rd, ptName ra, opName rb, ptName rc, opName re]
  | .genKeypair rd re => asmLine "GEN_KEYPAIR" [opName rd, ptName re]
  | .derivePub rd ra => asmLine "DERIVE_PUB" [ptName rd, opName ra]
  | .setKeypair slot priv pub =>
      asmLine ("SET_KEYPAIR" ++ match slot with | .reg => ".reg" | .eph => ".eph")
        [optOpName priv, optPtName pub]
  | .sign rd re ra (some rb) => asmLine "SIGN" [opName rd, opName re, opName ra, opName rb]
  | .sign rd re ra none => asmLine "SIGN.reg" [opName rd, opName re, opName ra]
  | .verify ra rb rc (some rd) => asmLine "VERIFY" [opName ra, opName rb, opName rc, ptName rd]
  | .verify ra rb rc none => asmLine "VERIFY.reg" [opName ra, opName rb, opName rc]
  | .ecdh rd (some ra) rb => asmLine "ECDH" [opName rd, opName ra, ptName rb]
  | .ecdh rd none rb => asmLine "ECDH.reg" [opName rd, ptName rb]

/-- The pseudo-instructions of R143. -/
inductive Pseudo where
  | fmul (e : EngineSel) (opD opA opB : OpIdx)
  | fsqr (e : EngineSel) (opD opA : OpIdx)
  | finv (e : EngineSel) (opD opA : OpIdx)
  | ptCopy (ptD ptA : PtIdx)
  | ptSub (ptD ptA ptB : PtIdx)
  deriving DecidableEq, Repr

/-- The condition column of R143. -/
def Pseudo.allowed : Pseudo → Bool
  | .fmul _ opD _ opB => opD != opB
  | .fsqr _ _ _ => true
  | .finv _ _ _ => true
  | .ptCopy _ _ => true
  | .ptSub ptD ptA _ => ptD != ptA

/-- The expansion column of R143. -/
def Pseudo.expand : Pseudo → List Instr
  | .fmul e opD opA opB => [.mmEnc opD opA e, .mmMul opD opD opB e]
  | .fsqr e opD opA => [.mmEnc opD opA e, .mmSqr opD opD e, .mmDec opD opD e]
  | .finv e opD opA => [.mmEnc opD opA e, .mmInv opD opD e, .mmDec opD opD e]
  | .ptCopy ptD ptA => [.ptNeg ptD ptA, .ptNeg ptD ptD]
  | .ptSub ptD ptA ptB => [.ptNeg ptD ptB, .ptAdd ptD ptA ptD]

end Sys2Proof.Machine
end

