-- ==== Sys2Proof/Machine/Jacobian.lean ====
section
/-! DEFINITION. The intended Jacobian datapath (spec 43_group_law.md R280, informative): doubling and
addition of projective triples. No command reads a triple back (10_state.md R62), so the meanings use the
abstract values; this file is what R280 says of the hidden form. -/

namespace Sys2Proof.Machine

/-- A projective triple (R62, R280). -/
structure Jacobian where
  X : Nat
  Y : Nat
  Z : Nat
  deriving DecidableEq, Repr

/-- The abstract value: INF when Z ≡ 0, otherwise AFF(X/Z², Y/Z³) (R62). -/
def Jacobian.toPoint (d : Domain) (J : Jacobian) : Point := d.ofJacobian J.X J.Y J.Z

/-- The affine flag: Z = 1 (R61). -/
def Jacobian.affine (J : Jacobian) : Bool := J.Z == 1

/-- Jacobian doubling (R280). -/
def Jacobian.dbl (d : Domain) (J : Jacobian) : Jacobian :=
  let X : Int := J.X
  let Y : Int := J.Y
  let Z : Int := J.Z
  let M := 3 * X ^ 2 + d.a * Z ^ 4
  let S := 4 * X * Y ^ 2
  let X3 := M ^ 2 - 2 * S
  { X := residue X3 d.p
    Y := residue (M * (S - X3) - 8 * Y ^ 4) d.p
    Z := residue (2 * Y * Z) d.p }

/-- The doubling shortcut M = 3(X − Z²)(X + Z²) for a ≡ −3 (R280, R284). -/
def Jacobian.dblM3 (d : Domain) (J : Jacobian) : Jacobian :=
  let X : Int := J.X
  let Y : Int := J.Y
  let Z : Int := J.Z
  let M := 3 * (X - Z ^ 2) * (X + Z ^ 2)
  let S := 4 * X * Y ^ 2
  let X3 := M ^ 2 - 2 * S
  { X := residue X3 d.p
    Y := residue (M * (S - X3) - 8 * Y ^ 4) d.p
    Z := residue (2 * Y * Z) d.p }

/-- Jacobian addition, infinity-aware, with the dispatch to doubling and to INF (R280). -/
def Jacobian.add (d : Domain) (J K : Jacobian) : Jacobian :=
  if J.Z = 0 then K
  else if K.Z = 0 then J
  else
    let U1 : Int := J.X * K.Z ^ 2
    let U2 : Int := K.X * J.Z ^ 2
    let S1 : Int := J.Y * K.Z ^ 3
    let S2 : Int := K.Y * J.Z ^ 3
    let H := U2 - U1
    let rr := S2 - S1
    if residue H d.p = 0 then
      if residue rr d.p = 0 then J.dbl d else { X := 1, Y := 1, Z := 0 }
    else
      let X3 := rr ^ 2 - H ^ 3 - 2 * U1 * H ^ 2
      { X := residue X3 d.p
        Y := residue (rr * (U1 * H ^ 2 - X3) - S1 * H ^ 3) d.p
        Z := residue (J.Z * K.Z * H) d.p }

end Sys2Proof.Machine
end

