-- ==== Sys2Proof/Safety.lean ====
section
/-! DEFINITION. What claims call a safe state: the invariants the spec says the block keeps
(spec 10_state.md R67, R50, R52, R54, R66; 60_exceptions.md R421; 70_reset_and_hazards.md R470). -/

namespace Sys2Proof.Machine

/-- A point whose coordinates lie in [0, p) (00_scope.md R10). -/
def Point.below (p : Nat) : Point → Prop
  | .inf => True
  | .aff x y => x < p ∧ y < p

/-- What an installed domain satisfies (R67, R204), with ORDER_BITS = bitlen(r) (R13) and the flag of
R56. -/
structure Domain.Valid (d : Domain) (fieldBits : Nat) : Prop where
  p_odd : d.p % 2 = 1
  p_ge : 3 ≤ d.p
  p_bits : bitlen d.p ≤ fieldBits
  a_lt : d.a < d.p
  b_lt : d.b < d.p
  G_below : d.G.below d.p
  r_odd : d.r % 2 = 1
  r_ge : 3 ≤ d.r
  r_bits : bitlen d.r ≤ fieldBits + 1
  h_bits : bitlen d.h ≤ fieldBits
  orderBits_eq : d.orderBits = bitlen d.r
  aIsM3_eq : d.aIsM3 = decide ((d.a + 3) % d.p = 0)

/-- A key slot holds priv in [0, 2^ORDER_BITS) and a Point (R52). -/
def KeyPair.within (k : KeyPair) (d : Domain) : Prop := k.priv < 2 ^ d.orderBits ∧ k.pub.below d.p

/-- The architectural part of the state is that of R66. -/
def State.isReset (s : State) : Prop :=
  s = { State.reset with inReset := s.inReset, inputs := s.inputs, resp := s.resp, choice := s.choice }

/-- The invariant of R67 and of the rules that fix the ranges of the state. -/
structure State.Inv (s : State) : Prop where
  /-- BUSY = 1 implies DONE = 0 (R67). -/
  busy_done : s.busy = true → s.done = false
  /-- DOM.set = 1 implies CTX.init = 1 (R67). -/
  set_init : s.dom.set = true → s.ctx.init = true
  /-- ERR is 1 exactly when CODE is not OK (R36). -/
  err_code : s.err = (s.code != .ok)
  /-- fieldBits of an initialised context (R202). -/
  ctx_range : s.ctx.init = true → Config.minFieldBits ≤ s.ctx.fieldBits ∧ s.ctx.fieldBits ≤ Config.maxFieldBits
  /-- The context before INIT (R54). -/
  ctx_cleared : s.ctx.init = false → s.ctx = .cleared
  /-- An installed domain (R67). -/
  dom_valid : s.dom.set = true → s.dom.Valid s.ctx.fieldBits
  /-- A domain that is not set is cleared (R55). -/
  dom_cleared : s.dom.set = false → s.dom = .cleared
  /-- A VALID point register was written under the current domain, so its coordinates lie in [0, p)
  (R67, R10). -/
  pt_valid : ∀ (i : PtIdx) (P : Point), s.pt i = .valid P → s.dom.set = true ∧ P.below s.dom.p
  /-- The key slots (R52). -/
  keyReg_within : s.keyReg.within s.dom
  keyEph_within : s.keyEph.within s.dom
  /-- An idle sequencer has no RNG request and no drawn word (R58, R66). -/
  idle : s.busy = false → s.rngReq = false ∧ s.drawn = []
  /-- A request is made only while a try lacks words (R371, R445). -/
  tries : s.drawn.length ≤ wordsPerTry s.dom.orderBits ∧
    (s.rngReq = true → s.drawn.length < wordsPerTry s.dom.orderBits)
  /-- While rst_n = 0 the state is the reset state (R470). -/
  held : s.inReset = true → s.isReset

/-! ### The terms of the statements -/

/-- The command has this opcode, and its word decodes to it (R131, R132, R137, R141). -/
def Encodes (i : Instr) (opc : BitVec 8) : Prop := opcField (encode i) = opc ∧ decode (encode i) = .ok i

/-- Step 2 of R424 holds: every source of the command is present. -/
def State.allPresent (s : State) (i : Instr) : Bool := (sources i).all s.present

/-- Steps 2 and 3 of R424 hold, for a command that needs a domain. -/
def State.ready (s : State) (i : Instr) : Bool :=
  s.allPresent i && s.ctx.init && s.dom.set && (sources i).all s.fresh

/-- Steps 2 and 3 of R424 come before everything else the command `i` does: a source that is not present is
a NullInput, and otherwise a missing context, a missing domain or a STALE point is a ContextMismatch. -/
def CommonFirst (i : Instr) (s : State) : Prop :=
  (s.allPresent i = false → exec i s = .next (s.completeErr .nullInput)) ∧
  (s.allPresent i = true → s.ready i = false → exec i s = .next (s.completeErr .contextMismatch))

/-- The seven conditions of check_domain (R204). -/
def CurveTuple.Fits (t : CurveTuple) (fieldBits : Nat) : Prop :=
  (t.p % 2 = 1 ∧ 3 ≤ t.p ∧ bitlen t.p ≤ fieldBits) ∧ t.a < t.p ∧ t.b < t.p ∧ t.gx < t.p ∧ t.gy < t.p ∧
    (t.r % 2 = 1 ∧ 3 ≤ t.r ∧ bitlen t.r ≤ fieldBits + 1) ∧ bitlen t.h ≤ fieldBits

/-- The state a successful SET_DOMAIN or SET_STD_DOMAIN commits: the seven integers with the derived fields
of R203, both key slots cleared (R53) and every VALID point register STALE (R51). -/
def State.withDomain (s : State) (t : CurveTuple) : State :=
  { s with
    dom := { set := true, p := t.p, a := t.a, b := t.b, r := t.r, h := t.h
             G := if (t.gx, t.gy) = (if t.b = 0 then (0, 1) else (0, 0)) then .inf else .aff t.gx t.gy
             orderBits := bitlen t.r
             aIsM3 := decide ((t.a + 3) % t.p = 0) }
    keyReg := { priv := 0, pub := .inf }
    keyEph := { priv := 0, pub := .inf }
    pts := s.pts.map PtReg.toStale }

/-- The commands that replace the context or the domain (R51, R53). -/
def changesContext : Instr → Bool
  | .nop => false
  | .init _ _ => true
  | .setDomain => true
  | .setStdDomain _ => true
  | .getDomain => false
  | .getOrderBits => false
  | .mmEnc _ _ _ => false
  | .mmDec _ _ _ => false
  | .mmMul _ _ _ _ => false
  | .mmSqr _ _ _ => false
  | .mmInv _ _ _ => false
  | .ptSetAffine _ _ _ => false
  | .ptSetProj _ _ _ _ => false
  | .ptSetInf _ => false
  | .ptGetAffine _ _ _ => false
  | .ptCheck _ => false
  | .ptCmp _ _ => false
  | .ptNeg _ _ => false
  | .ptDbl _ _ => false
  | .ptAdd _ _ _ => false
  | .ptMul _ _ _ => false
  | .ptMulBase _ _ => false
  | .ptMul2 _ _ _ _ _ => false
  | .genKeypair _ _ => false
  | .derivePub _ _ => false
  | .setKeypair _ _ _ => false
  | .sign _ _ _ _ => false
  | .verify _ _ _ _ => false
  | .ecdh _ _ _ => false

/-- Commands issued one after the other, each after the completion of the one before (R143, R477). -/
def runCmds : List Instr → State → StepResult
  | [], s => .next s
  | i :: rest, s =>
    match exec i s with
    | .next t => runCmds rest t
    | .fault f => .fault f
    | .refused r => .refused r

/-- The state with another policy in its context (R54). -/
def State.withPolicy (s : State) (pol : Policy) : State := { s with ctx := { s.ctx with policy := pol } }

/-- P is not a singular point of the curve: not both partial derivatives of y² − x³ − a·x − b vanish there, that is,
y = 0 and 3x² + a ≡ 0 (mod p) do not hold together (R285; log entry 10). -/
def Domain.smooth (d : Domain) : Point → Prop
  | .inf => True
  | .aff x y => ¬ (y = 0 ∧ (3 * x ^ 2 + d.a) % d.p = 0)

/-- The response OKAY to a write (R91). -/
def okayWrite : Option BusResponse := some { okay := true, data := 0 }

/-- The byte offset of word `j` of OPi in the window, padding included (R96). -/
def windowOffset (i : OpIdx) (j : Fin 32) : Offset := BitVec.ofNat 12 (0x100 + 0x80 * i.val + 4 * j.val)

end Sys2Proof.Machine
end

