-- ==== Sys2Proof/Certificates/Slice0/Obligations.lean ====
section
/-! DEFINITION. The statements for the provers. Each docstring says which rule of spec/ it formalises, or
that it is the model's own. -/

section Statements

open Sys2Proof Sys2Proof.Machine

/-! ### Encoding -/

/-- R137, R138, R141: the decoder gives back every well-formed command, with every operand at every value
its field admits. -/
def Obligations.DecodeEncodeRoundTrip : Prop :=
  ∀ i : Instr, i.wellFormed = true → decode (encode i) = .ok i

/-- R140: a legal word is the encoding of the one well-formed command it decodes to, so no bit of it is
ignored. -/
def Obligations.EncodeDecodeRoundTrip : Prop :=
  ∀ (v : Word) (i : Instr), decode v = .ok i → i.wellFormed = true ∧ encode i = v

/-- The words the spec writes out (R142 and the examples of R201, R202, R208, R272 to R379) decode to the
commands they stand for. -/
def Obligations.SpecWordsDecode : Prop :=
  decode 0x00000000 = .ok .nop ∧
  decode 0x81000001 = .ok (.init .ct 256) ∧
  decode 0x00090003 = .ok (.setStdDomain 9) ∧
  decode 0x10210312 = .ok (.mmMul 3 1 2 .n) ∧
  decode 0x00100020 = .ok (.ptSetAffine 0 0 1) ∧
  decode 0x00015423 = .ok (.ptGetAffine 4 5 1) ∧
  decode 0x00100228 = .ok (.ptAdd 2 0 1) ∧
  decode 0x01102232 = .ok (.ptMul2 2 0 1 1 2) ∧
  decode 0x70430042 = .ok (.setKeypair .eph (some 3) (some 4)) ∧
  decode 0x00103243 = .ok (.sign 2 3 0 (some 1)) ∧
  decode 0x03200144 = .ok (.verify 0 2 3 (some 1)) ∧
  decode 0x00000145 = .ok (.ecdh 1 (some 0) 0)

/-! ### The step -/

/-- R58, R141 and log entries 1 and 2: a move of the sequencer with a command in flight is the meaning of
the command its word decodes to, in the state with that move taken; with none in flight it changes nothing
else. A command word accepted from outside runs the same way. -/
def Obligations.StepRunsInFlightCommand : Prop :=
  (∀ (s : State) (i : Instr), s.inputs.head? = some .run ∨ s.inputs = [] → s.busy = true →
    decode s.lastCmd = .ok i → step s = exec i s.advance) ∧
  (∀ s : State, s.inputs.head? = some .run ∨ s.inputs = [] → s.busy = false → step s = .next s.advance) ∧
  (∀ (s : State) (i : Instr), i.wellFormed = true →
    step (s.withFetchWord 32 (encode i).toNat) = exec i (s.withFetchWord 32 (encode i).toNat).advance)

/-- R139, R140: a word that no well-formed command encodes to completes with IllegalCommand, and changes no
state but the completion state. -/
def Obligations.IllegalWordCompletes : Prop :=
  ∀ s : State, s.busy = true → (∀ i : Instr, i.wellFormed = true → encode i ≠ s.lastCmd) →
    s.sequencer = .next { s with
      busy := false, done := true, err := true, code := .illegalCommand, result := 0xFFFFFFFF,
      rngReq := false, drawn := [] }

/-- R67 and the ranges of R50 to R58: every step keeps the invariant. -/
def Obligations.StepKeepsInvariant : Prop :=
  ∀ s t : State, s.Inv → step s = .next t → t.Inv

/-- R66, R32: the window reads as the reset column says, and the rest of the state is that of R66 (DOM.orderBits
is 0 by R55, log entry 23). The first conjunct says that this state meets the model's invariant: R67, with the
model's own clauses on the RNG handshake and on rst_n (log entries 5 and 12). -/
def Obligations.ResetMeetsInvariant : Prop :=
  State.reset.Inv ∧
  State.reset.readWord 0x000 = 0xECC00100 ∧ State.reset.readWord 0x004 = 0x007F4609 ∧
  State.reset.readWord 0x008 = 0 ∧ State.reset.readWord 0x00C = 0 ∧ State.reset.readWord 0x010 = 0 ∧
  State.reset.readWord 0x014 = 0 ∧ State.reset.readWord 0x018 = 0 ∧ State.reset.readWord 0x01C = 0 ∧
  State.reset.readWord 0x020 = 0 ∧
  (∀ i, State.reset.op i = { valid := false, value := 0 }) ∧ (∀ i, State.reset.pt i = .empty) ∧
  State.reset.keyReg = { priv := 0, pub := .inf } ∧ State.reset.keyEph = { priv := 0, pub := .inf } ∧
  State.reset.ctx = { init := false, fieldBits := 0, policy := .fast } ∧
  State.reset.dom = { set := false, p := 0, a := 0, b := 0, G := .inf, r := 0, h := 0, orderBits := 0,
                      aIsM3 := false } ∧
  State.reset.enginesBound = false ∧ State.reset.busy = false ∧ State.reset.drawn = [] ∧
  State.reset.rngReq = false ∧ State.reset.irq = false

/-- R470 and I11: the one stop of the machine is a host access while rst_n = 0, and no step refuses. -/
def Obligations.StepStopsOnlyInReset : Prop :=
  ∀ s : State,
    (∀ r, step s ≠ .refused r) ∧
    ((∃ f, step s = .fault f) ↔
      s.inReset = true ∧ ((∃ a w, s.inputs.head? = some (.read a w)) ∨
        ∃ a w v, s.inputs.head? = some (.write a w v)))

/-- R422, R421, R482: a move of an in-flight command completes it, with one of the codes its rule lists,
unless it is a GEN_KEYPAIR that asks for its next random word. -/
def Obligations.EveryCommandCompletesOnce : Prop :=
  ∀ (i : Instr) (s : State), s.busy = true → ∃ t, exec i s = .next t ∧
    ((t.busy = false ∧ t.done = true ∧ t.code ∈ .ok :: raises i ∧ t.err = (t.code != .ok) ∧
        t.rngReq = false ∧ t.drawn = []) ∨
      ((∃ rd re, i = .genKeypair rd re) ∧ t.busy = true ∧ t.rngReq = true ∧ t.done = s.done))

/-- R423: an error changes no operand or point register, no key slot, no context and no domain, and RESULT is
0xFFFFFFFF. (For a composite p, where R206 leaves RESULT open, RESULT is not stated; that an error writes no
destination there too is the model's choice, log entry 7.) -/
def Obligations.ErrorsChangeNothing : Prop :=
  ∀ (i : Instr) (s t : State), s.busy = true → exec i s = .next t → t.busy = false → t.code ≠ .ok →
    t.ops = s.ops ∧ t.pts = s.pts ∧ t.keyReg = s.keyReg ∧ t.keyEph = s.keyEph ∧ t.ctx = s.ctx ∧
      t.dom = s.dom ∧ (s.compositeP = false → t.result = 0xFFFFFFFF)

/-- The frame of every command over the register files (R51, R172, R270, R484): an operand register that
R138 does not name as a destination keeps its words and its VALID bit, and a point register keeps its state
and value, but for the VALID to STALE of INIT, SET_DOMAIN and SET_STD_DOMAIN. -/
def Obligations.RegisterFrame : Prop :=
  ∀ (i : Instr) (s t : State), exec i s = .next t →
    (∀ j, j ∉ destOps i → t.op j = s.op j ∧
      ∀ k, operandWord (t.op j).value k = operandWord (s.op j).value k) ∧
    (∀ j, j ∉ destPts i → changesContext i = false → t.pt j = s.pt j) ∧
    (∀ j, changesContext i = true → t.pt j = s.pt j ∨ t.pt j = (s.pt j).toStale)

/-- The frame of every command over the rest of the state: the key slots change only in SET_KEYPAIR (the
selected one) and in the context commands, the context only in INIT, the domain only in the context
commands, and IRQ_EN, OVR, LASTCMD, the reset input, the bus response and the model's own fields never
(R52, R54, R55, R422). -/
def Obligations.ControlFrame : Prop :=
  ∀ (i : Instr) (s t : State), exec i s = .next t →
    (changesContext i = false → (∀ p q, i ≠ .setKeypair .reg p q) → t.keyReg = s.keyReg) ∧
    (changesContext i = false → (∀ p q, i ≠ .setKeypair .eph p q) → t.keyEph = s.keyEph) ∧
    ((∀ p f, i ≠ .init p f) → t.ctx = s.ctx) ∧
    (changesContext i = false → t.dom = s.dom) ∧
    t.irqEn = s.irqEn ∧ t.ovr = s.ovr ∧ t.lastCmd = s.lastCmd ∧ t.inReset = s.inReset ∧ t.resp = s.resp ∧
    t.inputs = s.inputs ∧ t.choice = s.choice

/-! ### Montgomery engines -/

/-- R173 with R170 and R172: MM_ENC writes a·R mod m, with m = p or r and R = 2^(32·⌈bitlen(m)/32⌉). -/
def Obligations.MmEncRule : Prop :=
  ∀ (rd ra : OpIdx) (e : EngineSel) (s : State) (m R : Nat),
    m = (if e = .p then s.dom.p else s.dom.r) → R = 2 ^ (32 * ((bitlen m + 31) / 32)) →
    Encodes (.mmEnc rd ra e) 0x10 ∧ CommonFirst (.mmEnc rd ra e) s ∧
    (s.ready (.mmEnc rd ra e) = true →
      (m ≤ s.opVal ra → exec (.mmEnc rd ra e) s = .next (s.completeErr .rangeError)) ∧
      (s.opVal ra < m →
        exec (.mmEnc rd ra e) s = .next ((s.writeOp rd (s.opVal ra * R % m)).completeOk 0)))

/-- R174: MM_DEC writes a·R⁻¹ mod m, the one value v below m with v·R ≡ a (mod m). -/
def Obligations.MmDecRule : Prop :=
  ∀ (rd ra : OpIdx) (e : EngineSel) (s : State) (m R : Nat), s.Inv →
    m = (if e = .p then s.dom.p else s.dom.r) → R = 2 ^ (32 * ((bitlen m + 31) / 32)) →
    Encodes (.mmDec rd ra e) 0x11 ∧ CommonFirst (.mmDec rd ra e) s ∧
    (s.ready (.mmDec rd ra e) = true →
      (m ≤ s.opVal ra → exec (.mmDec rd ra e) s = .next (s.completeErr .rangeError)) ∧
      (s.opVal ra < m → ∃ v, v < m ∧ v * R % m = s.opVal ra ∧
        exec (.mmDec rd ra e) s = .next ((s.writeOp rd v).completeOk 0)))

/-- R175, R176: MM_MUL writes a·b·R⁻¹ mod m, the one value v below m with v·R ≡ a·b (mod m), and MM_SQR is
MM_MUL of a with itself. -/
def Obligations.MmMulSqrRule : Prop :=
  ∀ (rd ra rb : OpIdx) (e : EngineSel) (s : State) (m R : Nat), s.Inv →
    m = (if e = .p then s.dom.p else s.dom.r) → R = 2 ^ (32 * ((bitlen m + 31) / 32)) →
    Encodes (.mmMul rd ra rb e) 0x12 ∧ CommonFirst (.mmMul rd ra rb e) s ∧
    Encodes (.mmSqr rd ra e) 0x13 ∧ CommonFirst (.mmSqr rd ra e) s ∧
    (s.ready (.mmMul rd ra rb e) = true →
      (m ≤ s.opVal ra ∨ m ≤ s.opVal rb →
        exec (.mmMul rd ra rb e) s = .next (s.completeErr .rangeError)) ∧
      (s.opVal ra < m → s.opVal rb < m → ∃ v, v < m ∧ v * R % m = s.opVal ra * s.opVal rb % m ∧
        exec (.mmMul rd ra rb e) s = .next ((s.writeOp rd v).completeOk 0))) ∧
    (s.ready (.mmSqr rd ra e) = true →
      (m ≤ s.opVal ra → exec (.mmSqr rd ra e) s = .next (s.completeErr .rangeError)) ∧
      (s.opVal ra < m → ∃ v, v < m ∧ v * R % m = s.opVal ra * s.opVal ra % m ∧
        exec (.mmSqr rd ra e) s = .next ((s.writeOp rd v).completeOk 0)))

/-- R177: MM_INV writes R²·a⁻¹ mod m, the one value v below m with v·a ≡ R² (mod m), and raises NoInverse
when a has no inverse. -/
def Obligations.MmInvRule : Prop :=
  ∀ (rd ra : OpIdx) (e : EngineSel) (s : State) (m R : Nat), s.Inv →
    m = (if e = .p then s.dom.p else s.dom.r) → R = 2 ^ (32 * ((bitlen m + 31) / 32)) →
    Encodes (.mmInv rd ra e) 0x14 ∧ CommonFirst (.mmInv rd ra e) s ∧
    (s.ready (.mmInv rd ra e) = true →
      (m ≤ s.opVal ra → exec (.mmInv rd ra e) s = .next (s.completeErr .rangeError)) ∧
      (s.opVal ra < m → Nat.gcd (s.opVal ra) m ≠ 1 →
        exec (.mmInv rd ra e) s = .next (s.completeErr .noInverse)) ∧
      (s.opVal ra < m → Nat.gcd (s.opVal ra) m = 1 → ∃ v, v < m ∧ v * s.opVal ra % m = R * R % m ∧
        exec (.mmInv rd ra e) s = .next ((s.writeOp rd v).completeOk 0)))

/-- R143: each pseudo-instruction, expanded and run, leaves the result its row gives in the destination. -/
def Obligations.PseudoInstructionsCompute : Prop :=
  ∀ (s : State) (e : EngineSel) (m : Nat), s.Inv → s.dom.set = true →
    m = (if e = .p then s.dom.p else s.dom.r) →
    (∀ d a b : OpIdx, d ≠ b → (s.op a).valid = true → (s.op b).valid = true → s.opVal a < m → s.opVal b < m →
      ∃ t, runCmds (Pseudo.fmul e d a b).expand s = .next t ∧ t.code = .ok ∧ (t.op d).valid = true ∧
        t.opVal d = s.opVal a * s.opVal b % m) ∧
    (∀ d a : OpIdx, (s.op a).valid = true → s.opVal a < m →
      ∃ t, runCmds (Pseudo.fsqr e d a).expand s = .next t ∧ t.code = .ok ∧ (t.op d).valid = true ∧
        t.opVal d = s.opVal a * s.opVal a % m) ∧
    (∀ d a : OpIdx, (s.op a).valid = true → s.opVal a < m → Nat.gcd (s.opVal a) m = 1 →
      ∃ t, runCmds (Pseudo.finv e d a).expand s = .next t ∧ t.code = .ok ∧ (t.op d).valid = true ∧
        t.opVal d < m ∧ t.opVal d * s.opVal a % m = 1) ∧
    (∀ (d a : PtIdx) (P : Point), s.compositeP = false → s.pt a = .valid P →
      ∃ t, runCmds (Pseudo.ptCopy d a).expand s = .next t ∧ t.code = .ok ∧ t.pt d = .valid P) ∧
    (∀ (d a b : PtIdx) (P Q : Point), s.compositeP = false → d ≠ a → s.pt a = .valid P → s.pt b = .valid Q →
      ∃ t, runCmds (Pseudo.ptSub d a b).expand s = .next t ∧ t.code = .ok ∧
        t.pt d = .valid (s.dom.add P (s.dom.neg Q)))

/-! ### Context and domain -/

/-- R201: NOP has one word, and completes with OK and RESULT 0 in every state. -/
def Obligations.NopRule : Prop :=
  encode .nop = 0 ∧ (∀ v : Word, opcField v = 0 → v ≠ 0 → decode v = .error .mustBeZero) ∧
  ∀ s : State, exec .nop s = .next { s with
    busy := false, done := true, err := false, code := .ok, result := 0, rngReq := false, drawn := [] }

/-- R202: INIT installs a fresh context for 2 ≤ fieldBits ≤ 521, and drops the domain, the engines, both key
slots and the freshness of every point register. -/
def Obligations.InitRule : Prop :=
  ∀ (pol : Policy) (fb : BitVec 10) (s : State),
    Encodes (.init pol fb) 0x01 ∧
    (fb.toNat < 2 ∨ 521 < fb.toNat → exec (.init pol fb) s = .next (s.completeErr .rangeError)) ∧
    (2 ≤ fb.toNat → fb.toNat ≤ 521 → exec (.init pol fb) s = .next (State.completeOk { s with
      ctx := { init := true, fieldBits := fb.toNat, policy := pol }
      dom := { set := false, p := 0, a := 0, b := 0, G := .inf, r := 0, h := 0, orderBits := 0, aIsM3 := false }
      keyReg := { priv := 0, pub := .inf }
      keyEph := { priv := 0, pub := .inf }
      pts := s.pts.map PtReg.toStale } 0))

/-- R203, R204, R207, R211: SET_DOMAIN reads OP0 to OP6 and replaces the whole domain. -/
def Obligations.SetDomainRule : Prop :=
  ∀ s : State, ∀ t : CurveTuple,
    t = { p := s.opVal 0, a := s.opVal 1, b := s.opVal 2, gx := s.opVal 3, gy := s.opVal 4,
          r := s.opVal 5, h := s.opVal 6 } →
    Encodes .setDomain 0x02 ∧
    ((∃ i : OpIdx, i.val ≤ 6 ∧ (s.op i).valid = false) →
      exec .setDomain s = .next (s.completeErr .nullInput)) ∧
    ((∀ i : OpIdx, i.val ≤ 6 → (s.op i).valid = true) →
      (s.ctx.init = false → exec .setDomain s = .next (s.completeErr .contextMismatch)) ∧
      (s.ctx.init = true →
        (¬ t.Fits s.ctx.fieldBits → exec .setDomain s = .next (s.completeErr .rangeError)) ∧
        (t.Fits s.ctx.fieldBits → exec .setDomain s = .next ((s.withDomain t).completeOk 0))))

/-- R208: SET_STD_DOMAIN checks the context, then the identifier, then the field size, and then does what
SET_DOMAIN does with the catalog's tuple. -/
def Obligations.SetStdDomainRule : Prop :=
  ∀ (cid : BitVec 8) (s : State),
    Encodes (.setStdDomain cid) 0x03 ∧
    (s.ctx.init = false → exec (.setStdDomain cid) s = .next (s.completeErr .contextMismatch)) ∧
    (s.ctx.init = true →
      (catalog cid = none → exec (.setStdDomain cid) s = .next (s.completeErr .invalidCurveId)) ∧
      ∀ t, catalog cid = some t →
        (¬ t.Fits s.ctx.fieldBits → exec (.setStdDomain cid) s = .next (s.completeErr .rangeError)) ∧
        (t.Fits s.ctx.fieldBits → exec (.setStdDomain cid) s = .next ((s.withDomain t).completeOk 0)))

/-- R240, R254 and the corner case of R208: the catalog has the 13 entries of the table, each with the bit
lengths, the cofactor and the a = −3 flag listed there and with its base point on its curve, and only a bit
length can make SET_STD_DOMAIN refuse one. -/
def Obligations.CatalogEntries : Prop :=
  (∀ cid : BitVec 8, (catalog cid).isSome = true ↔ 1 ≤ cid.toNat ∧ cid.toNat ≤ 13) ∧
  ([1, 2, 3, 4, 5, 6, 7, 8, 9, 10, 11, 12, 13].map fun cid : BitVec 8 => (catalog cid).map fun t =>
      (bitlen t.p, bitlen t.r, t.h, decide ((t.a + 3) % t.p = 0))) =
    [some (112, 112, 1, true), some (112, 110, 4, false), some (128, 128, 1, true),
     some (128, 126, 4, false), some (160, 161, 1, true), some (160, 161, 1, true),
     some (192, 192, 1, true), some (224, 224, 1, true), some (256, 256, 1, true),
     some (384, 384, 1, true), some (521, 521, 1, true), some (256, 256, 1, true),
     some (256, 256, 1, false)] ∧
  ∀ (cid : BitVec 8) (t : CurveTuple), catalog cid = some t →
    (t.gy * t.gy) % t.p = (t.gx * t.gx * t.gx + t.a * t.gx + t.b) % t.p ∧
    ∀ fieldBits, t.Fits fieldBits ↔ bitlen t.p ≤ fieldBits ∧ bitlen t.r ≤ fieldBits + 1

/-- R209, R210: GET_DOMAIN writes p, a, b, Gx, Gy, r, h to OP0 to OP6, with an infinite G as INF_ENC(b), and
GET_ORDER_BITS answers bitlen(r) in RESULT. -/
def Obligations.GetDomainOrderBitsRule : Prop :=
  ∀ s : State,
    Encodes .getDomain 0x04 ∧ CommonFirst .getDomain s ∧
    Encodes .getOrderBits 0x05 ∧ CommonFirst .getOrderBits s ∧
    (s.ready .getDomain = true → ∃ t : State, exec .getDomain s = .next (t.completeOk 0) ∧
      t = { s with ops := t.ops } ∧ (∀ j : OpIdx, 7 ≤ j.val → t.op j = s.op j) ∧
      t.op 0 = { valid := true, value := BitVec.ofNat 544 s.dom.p } ∧
      t.op 1 = { valid := true, value := BitVec.ofNat 544 s.dom.a } ∧
      t.op 2 = { valid := true, value := BitVec.ofNat 544 s.dom.b } ∧
      (match s.dom.G with
        | .inf => t.op 3 = { valid := true, value := 0 } ∧
            t.op 4 = { valid := true, value := if s.dom.b = 0 then 1 else 0 }
        | .aff x y => t.op 3 = { valid := true, value := BitVec.ofNat 544 x } ∧
            t.op 4 = { valid := true, value := BitVec.ofNat 544 y }) ∧
      t.op 5 = { valid := true, value := BitVec.ofNat 544 s.dom.r } ∧
      t.op 6 = { valid := true, value := BitVec.ofNat 544 s.dom.h }) ∧
    (s.ready .getOrderBits = true →
      exec .getOrderBits s = .next (s.completeOk (BitVec.ofNat 32 (bitlen s.dom.r))))

/-- The corner case of R209: GET_DOMAIN after SET_DOMAIN returns exactly the seven values installed. -/
def Obligations.DomainReadsBack : Prop :=
  ∀ s t : State, exec .setDomain s = .next t → t.code = .ok →
    ∃ u, exec .getDomain t = .next u ∧ u.code = .ok ∧ ∀ j : OpIdx, j.val ≤ 6 → u.opVal j = s.opVal j

/-! ### Points -/

/-- R272, R271, R274: PT_SET_AFFINE stores AFF(x, y), or INF for the pair INF_ENC(b), without a curve check;
PT_SET_INF stores INF, whatever the register held. -/
def Obligations.PtSetAffineInfRule : Prop :=
  ∀ (rd : PtIdx) (ra rb : OpIdx) (s : State),
    Encodes (.ptSetAffine rd ra rb) 0x20 ∧
    (s.compositeP = false → CommonFirst (.ptSetAffine rd ra rb) s ∧
      (s.ready (.ptSetAffine rd ra rb) = true →
        (s.dom.p ≤ s.opVal ra ∨ s.dom.p ≤ s.opVal rb →
          exec (.ptSetAffine rd ra rb) s = .next (s.completeErr .rangeError)) ∧
        (s.opVal ra < s.dom.p → s.opVal rb < s.dom.p →
          exec (.ptSetAffine rd ra rb) s = .next ((s.writePt rd
            (if (s.opVal ra, s.opVal rb) = (if s.dom.b = 0 then (0, 1) else (0, 0)) then .inf
              else .aff (s.opVal ra) (s.opVal rb))).completeOk 0)))) ∧
    Encodes (.ptSetInf rd) 0x22 ∧ CommonFirst (.ptSetInf rd) s ∧
    (s.ready (.ptSetInf rd) = true → exec (.ptSetInf rd) s = .next ((s.writePt rd .inf).completeOk 0))

/-- R273: PT_SET_PROJ stores AFF(X·Z⁻², Y·Z⁻³), or INF for Z = 0. The point for Z ≠ 0 is stated by its
equations, for a prime p. -/
def Obligations.PtSetProjRule : Prop :=
  ∀ (rd : PtIdx) (ra rb rc : OpIdx) (s : State),
    Encodes (.ptSetProj rd ra rb rc) 0x21 ∧
    (s.compositeP = false → CommonFirst (.ptSetProj rd ra rb rc) s ∧
      (s.ready (.ptSetProj rd ra rb rc) = true →
        (s.dom.p ≤ s.opVal ra ∨ s.dom.p ≤ s.opVal rb ∨ s.dom.p ≤ s.opVal rc →
          exec (.ptSetProj rd ra rb rc) s = .next (s.completeErr .rangeError)) ∧
        (s.opVal ra < s.dom.p → s.opVal rb < s.dom.p → s.opVal rc < s.dom.p →
          (s.opVal rc = 0 →
            exec (.ptSetProj rd ra rb rc) s = .next ((s.writePt rd .inf).completeOk 0)) ∧
          (s.opVal rc ≠ 0 → s.dom.p.Prime → ∃ x y, x < s.dom.p ∧ y < s.dom.p ∧
            x * s.opVal rc ^ 2 % s.dom.p = s.opVal ra ∧ y * s.opVal rc ^ 3 % s.dom.p = s.opVal rb ∧
            exec (.ptSetProj rd ra rb rc) s = .next ((s.writePt rd (.aff x y)).completeOk 0)))))

/-- R275, R271: PT_GET_AFFINE writes x and y with RESULT 0, or INF_ENC(b) with RESULT 1 for INF. -/
def Obligations.PtGetAffineRule : Prop :=
  ∀ (rd re : OpIdx) (ra : PtIdx) (s : State), rd ≠ re →
    Encodes (.ptGetAffine rd re ra) 0x23 ∧
    (s.compositeP = false → CommonFirst (.ptGetAffine rd re ra) s ∧
      (s.ready (.ptGetAffine rd re ra) = true →
        (s.pt ra = .valid .inf → exec (.ptGetAffine rd re ra) s =
          .next (((s.writeOp rd 0).writeOp re (if s.dom.b = 0 then 1 else 0)).completeOk 1)) ∧
        (∀ x y, s.pt ra = .valid (.aff x y) → exec (.ptGetAffine rd re ra) s =
          .next (((s.writeOp rd x).writeOp re y).completeOk 0))))

/-- R276, R277, R11: PT_CHECK answers 1 for INF, 0 on the curve and 2 off it, and PT_CMP answers 0 for equal
abstract values and 1 otherwise. -/
def Obligations.PtCheckCmpRule : Prop :=
  ∀ (ra rb : PtIdx) (s : State),
    Encodes (.ptCheck ra) 0x24 ∧ Encodes (.ptCmp ra rb) 0x25 ∧
    (s.compositeP = false →
      CommonFirst (.ptCheck ra) s ∧ CommonFirst (.ptCmp ra rb) s ∧
      (s.ready (.ptCheck ra) = true →
        (s.pt ra = .valid .inf → exec (.ptCheck ra) s = .next (s.completeOk 1)) ∧
        (∀ x y, s.pt ra = .valid (.aff x y) →
          exec (.ptCheck ra) s = .next (s.completeOk
            (if y ^ 2 % s.dom.p = (x ^ 3 + s.dom.a * x + s.dom.b) % s.dom.p then 0 else 2)))) ∧
      (s.ready (.ptCmp ra rb) = true → ∀ P Q, s.pt ra = .valid P → s.pt rb = .valid Q →
        (P = Q → exec (.ptCmp ra rb) s = .next (s.completeOk 0)) ∧
        (P ≠ Q → exec (.ptCmp ra rb) s = .next (s.completeOk 1))))

/-- R278, R282, R283: PT_NEG, PT_DBL and PT_ADD write ⊖P, dbl(P) and P ⊕ Q, with RESULT 1 exactly when the
result is INF. ⊖ is written out; dbl and ⊕ are characterised by DblIsTangentRule and AddIsChordRule. -/
def Obligations.PtNegDblAddRule : Prop :=
  ∀ (rd ra rb : PtIdx) (s : State),
    Encodes (.ptNeg rd ra) 0x26 ∧ Encodes (.ptDbl rd ra) 0x27 ∧ Encodes (.ptAdd rd ra rb) 0x28 ∧
    (s.compositeP = false →
      CommonFirst (.ptNeg rd ra) s ∧ CommonFirst (.ptDbl rd ra) s ∧ CommonFirst (.ptAdd rd ra rb) s ∧
      (s.ready (.ptNeg rd ra) = true →
        (s.pt ra = .valid .inf →
          exec (.ptNeg rd ra) s = .next ((s.writePt rd .inf).completeOk 1)) ∧
        (∀ x y, s.pt ra = .valid (.aff x y) → y < s.dom.p →
          exec (.ptNeg rd ra) s = .next ((s.writePt rd (.aff x ((s.dom.p - y) % s.dom.p))).completeOk 0))) ∧
      (s.ready (.ptDbl rd ra) = true → ∀ P, s.pt ra = .valid P →
        exec (.ptDbl rd ra) s = .next ((s.writePt rd (s.dom.dbl P)).completeOk
          (if s.dom.dbl P = .inf then 1 else 0))) ∧
      (s.ready (.ptAdd rd ra rb) = true → ∀ P Q, s.pt ra = .valid P → s.pt rb = .valid Q →
        exec (.ptAdd rd ra rb) s = .next ((s.writePt rd (s.dom.add P Q)).completeOk
          (if s.dom.add P Q = .inf then 1 else 0))))

/-- R8: `inv_m(x)` is the y in [1, m) with x·y ≡ 1 (mod m) whenever gcd(x, m) = 1. -/
def Obligations.InverseIsInverse : Prop :=
  ∀ m x : Nat, 1 < m → Nat.gcd x m = 1 → 1 ≤ invMod m x ∧ invMod m x < m ∧ x * invMod m x % m = 1

/-- R279: dbl is the tangent rule, on every affine input. -/
def Obligations.DblIsTangentRule : Prop :=
  ∀ d : Domain, d.p.Prime → d.p ≠ 2 → d.dbl .inf = .inf ∧
    ∀ x y : Nat, x < d.p → y < d.p →
      (y = 0 → d.dbl (.aff x y) = .inf) ∧
      (y ≠ 0 → ∃ l x3 y3 : Nat, x3 < d.p ∧ y3 < d.p ∧ d.dbl (.aff x y) = .aff x3 y3 ∧
        (l * (2 * y) : Int) ≡ 3 * x ^ 2 + d.a [ZMOD d.p] ∧
        (x3 : Int) ≡ l ^ 2 - 2 * x [ZMOD d.p] ∧
        (y3 : Int) ≡ l * (x - x3) - y [ZMOD d.p])

/-- R281: ⊕ is the chord rule, with its special cases, on every input. -/
def Obligations.AddIsChordRule : Prop :=
  ∀ d : Domain, d.p.Prime → d.p ≠ 2 → (∀ Q, d.add .inf Q = Q) ∧ (∀ P, d.add P .inf = P) ∧
    ∀ x1 y1 x2 y2 : Nat, x1 < d.p → y1 < d.p → x2 < d.p → y2 < d.p →
      (x1 = x2 → y1 = y2 → d.add (.aff x1 y1) (.aff x2 y2) = d.dbl (.aff x1 y1)) ∧
      (x1 = x2 → y1 ≠ y2 → d.add (.aff x1 y1) (.aff x2 y2) = .inf) ∧
      (x1 ≠ x2 → ∃ l x3 y3 : Nat, x3 < d.p ∧ y3 < d.p ∧ d.add (.aff x1 y1) (.aff x2 y2) = .aff x3 y3 ∧
        (l * (x2 - x1) : Int) ≡ y2 - y1 [ZMOD d.p] ∧
        (x3 : Int) ≡ l ^ 2 - x1 - x2 [ZMOD d.p] ∧
        (y3 : Int) ≡ l * (x1 - x3) - y1 [ZMOD d.p])

/-- R285, the four quoted properties: they hold of all points, on the curve or off it. -/
def Obligations.GroupLawIdentities : Prop :=
  ∀ d : Domain, d.p.Prime → d.p ≠ 2 → ∀ P Q : Point, P.below d.p → Q.below d.p →
    d.add P Q = d.add Q P ∧ d.add P (d.neg P) = .inf ∧ d.add P .inf = P ∧ d.dbl P = d.add P P ∧
    d.neg (d.neg P) = P

/-- R285, the abelian group: INF and the on-curve points that are not singular are closed under ⊕ and ⊖, ⊕ is
associative and commutative on them, INF is neutral and ⊖P is the inverse of P. On a curve that is not singular
these are all the on-curve points. (On a singular curve R285's sentence cannot hold of the singular point, log
entry 10.) -/
def Obligations.OnCurvePointsFormGroup : Prop :=
  ∀ d : Domain, d.p.Prime → d.p ≠ 2 →
    (∀ P Q S : Point, P.below d.p → Q.below d.p → S.below d.p →
      d.onCurve P = true → d.onCurve Q = true → d.onCurve S = true →
      d.smooth P → d.smooth Q → d.smooth S →
      (d.onCurve (d.add P Q) = true ∧ (d.add P Q).below d.p ∧ d.smooth (d.add P Q)) ∧
      (d.onCurve (d.neg P) = true ∧ (d.neg P).below d.p ∧ d.smooth (d.neg P)) ∧
      d.add (d.add P Q) S = d.add P (d.add Q S) ∧ d.add P Q = d.add Q P ∧
      d.add P .inf = P ∧ d.add .inf P = P ∧ d.add P (d.neg P) = .inf ∧ d.add (d.neg P) P = .inf) ∧
    ((4 * d.a ^ 3 + 27 * d.b ^ 2) % d.p ≠ 0 → ∀ P : Point, P.below d.p → d.onCurve P = true → d.smooth P)

/-- R280, R284: the Jacobian datapath, with its shortcut for a ≡ −3, gives the abstract values of dbl and ⊕
on every input. -/
def Obligations.JacobianDatapathRefines : Prop :=
  ∀ d : Domain, d.p.Prime → d.p ≠ 2 → ∀ J K : Jacobian,
    J.X < d.p → J.Y < d.p → J.Z < d.p → K.X < d.p → K.Y < d.p → K.Z < d.p →
    (J.dbl d).toPoint d = d.dbl (J.toPoint d) ∧
    ((d.a + 3) % d.p = 0 → J.dblM3 d = J.dbl d) ∧
    (J.add d K).toPoint d = d.add (J.toPoint d) (K.toPoint d)

/-! ### Scalar multiplication -/

/-- R322 for R323: FAST returns exactly [k]P for every on-curve P, whatever the scalar. -/
def Obligations.FastMulIsMultiple : Prop :=
  ∀ d : Domain, d.p.Prime → d.p ≠ 2 → ∀ (k : Nat) (P : Point), P.below d.p → d.onCurve P = true →
    (fastMul d k P).acc = d.mulRef k P

/-- R322 for R325: CT returns exactly [k]P for every on-curve P and every scalar of R320. -/
def Obligations.CtMulIsMultiple : Prop :=
  ∀ d : Domain, d.p.Prime → d.p ≠ 2 → ∀ (k : Nat) (P : Point), bitlen k ≤ d.orderBits → P.below d.p →
    d.onCurve P = true → (ctMul d k P).acc = d.mulRef k P

/-- R322 for R331 and R332: under either policy the two-scalar product is [s1]P ⊕ [s2]Q for on-curve P and Q.
On a singular curve FAST takes that value by the model's choice (log entry 10). -/
def Obligations.TwoScalarProductIsSum : Prop :=
  ∀ d : Domain, d.p.Prime → d.p ≠ 2 → ∀ (pol : Policy) (s1 s2 : Nat) (P Q : Point),
    bitlen s1 ≤ d.orderBits → bitlen s2 ≤ d.orderBits → P.below d.p → Q.below d.p →
    d.onCurve P = true → d.onCurve Q = true →
    policyMul2 pol d s1 P s2 Q = d.add (d.mulRef s1 P) (d.mulRef s2 Q)

/-- R326: the digits of the recoding lie in [1, 2^w], the last one is 1 or 2, and they sum to
k + 2·2^(w·NW); so no window is zero. The TOY digit sequences of the rule are among them. -/
def Obligations.RecodingDigits : Prop :=
  (∀ w nw k : Nat, 2 ≤ w → k < 2 ^ (w * nw) →
    (recode k w nw).length = nw + 1 ∧ (∀ x ∈ recode k w nw, 1 ≤ x ∧ x ≤ 2 ^ w) ∧
    ((recode k w nw).getLastD 0 = 1 ∨ (recode k w nw).getLastD 0 = 2) ∧
    (((recode k w nw).zipIdx).map fun e => e.1 * 2 ^ (w * e.2)).sum = k + 2 * 2 ^ (w * nw)) ∧
  recode 0 4 2 = [16, 15, 1] ∧ recode 7 4 2 = [7, 16, 1] ∧ recode 16 4 2 = [16, 16, 1] ∧
  recode 31 4 2 = [15, 1, 2]

/-- R329: the sequence of group operations of a CT multiplication, with the operand registers of each (log entry
26), depends on ORDER_BITS alone, and not on the scalar, the point or the rest of the domain: it is the schedule
written out here, with the counts of the table: 2^w − 1 table additions, 2·w·NW + 1 doublings, NW + 1 additions
and NW + 1 scans. -/
def Obligations.CtScheduleIndependentOfScalar : Prop :=
  (∀ (d d' : Domain) (k k' : Nat) (P P' : Point), d.orderBits = d'.orderBits →
    (ctMul d k P).ops = (ctMul d' k' P').ops) ∧
  ∀ (d : Domain) (k : Nat) (P : Point), ∀ w nw : Nat, w = (if d.orderBits ≤ 256 then 4 else 5) →
    nw = (d.orderBits + w - 1) / w →
    (ctMul d k P).ops = ctSchedule d.orderBits ∧
    ctSchedule d.orderBits =
      ((List.range (2 ^ w - 1)).map fun i => .add (.tbl (i + 2)) (.tbl (i + 1)) .P) ++ [.scan .R (2 ^ w)] ++
        (List.replicate nw (List.replicate w (.dbl .R .R) ++ [.scan .S (2 ^ w), .add .R .R .S])).flatten ++
        List.replicate (w * nw + 1) (.dbl .C .C) ++ [.add .R .R .N] ∧
    ((ctMul d k P).ops.map GroupOp.kind).count .dbl = 2 * w * nw + 1 ∧
    ((ctMul d k P).ops.map GroupOp.kind).count .add = (2 ^ w - 1) + (nw + 1) ∧
    ((ctMul d k P).ops.map GroupOp.kind).count .scan = nw + 1

/-- R333, R334, R320, R322: PT_MUL and PT_MUL_BASE write [k]P and [k]G for an on-curve point, some Point for
an off-curve one, and raise RangeError for a scalar longer than ORDER_BITS. -/
def Obligations.PtMulRule : Prop :=
  ∀ (rd ra : PtIdx) (rb : OpIdx) (s : State), s.Inv →
    Encodes (.ptMul rd ra rb) 0x30 ∧ Encodes (.ptMulBase rd rb) 0x31 ∧
    (s.compositeP = false → CommonFirst (.ptMul rd ra rb) s ∧ CommonFirst (.ptMulBase rd rb) s) ∧
    (s.dom.p.Prime → s.ready (.ptMul rd ra rb) = true → ∀ P, s.pt ra = .valid P →
      (bitlen s.dom.r < bitlen (s.opVal rb) →
        exec (.ptMul rd ra rb) s = .next (s.completeErr .rangeError)) ∧
      (bitlen (s.opVal rb) ≤ bitlen s.dom.r → ∃ Q, Q.below s.dom.p ∧
        (s.dom.onCurve P = true → Q = s.dom.mulRef (s.opVal rb) P) ∧
        exec (.ptMul rd ra rb) s = .next ((s.writePt rd Q).completeOk (if Q = .inf then 1 else 0)))) ∧
    (s.dom.p.Prime → s.ready (.ptMulBase rd rb) = true →
      (bitlen s.dom.r < bitlen (s.opVal rb) →
        exec (.ptMulBase rd rb) s = .next (s.completeErr .rangeError)) ∧
      (bitlen (s.opVal rb) ≤ bitlen s.dom.r → ∃ Q, Q.below s.dom.p ∧
        (s.dom.onCurve s.dom.G = true → Q = s.dom.mulRef (s.opVal rb) s.dom.G) ∧
        exec (.ptMulBase rd rb) s = .next ((s.writePt rd Q).completeOk (if Q = .inf then 1 else 0))))

/-- R335, R322: PT_MUL2 writes [s1]P ⊕ [s2]Q for on-curve points, some Point otherwise, and raises RangeError
when either scalar is longer than ORDER_BITS. -/
def Obligations.PtMul2Rule : Prop :=
  ∀ (rd ra rc : PtIdx) (rb re : OpIdx) (s : State), s.Inv →
    Encodes (.ptMul2 rd ra rb rc re) 0x32 ∧
    (s.compositeP = false → CommonFirst (.ptMul2 rd ra rb rc re) s) ∧
    (s.dom.p.Prime → s.ready (.ptMul2 rd ra rb rc re) = true → ∀ P Q, s.pt ra = .valid P → s.pt rc = .valid Q →
      (bitlen s.dom.r < bitlen (s.opVal rb) ∨ bitlen s.dom.r < bitlen (s.opVal re) →
        exec (.ptMul2 rd ra rb rc re) s = .next (s.completeErr .rangeError)) ∧
      (bitlen (s.opVal rb) ≤ bitlen s.dom.r → bitlen (s.opVal re) ≤ bitlen s.dom.r → ∃ S, S.below s.dom.p ∧
        (s.dom.onCurve P = true → s.dom.onCurve Q = true →
          S = s.dom.add (s.dom.mulRef (s.opVal rb) P) (s.dom.mulRef (s.opVal re) Q)) ∧
        exec (.ptMul2 rd ra rb rc re) s =
          .next ((s.writePt rd S).completeOk (if S = .inf then 1 else 0))))

/-- R321, R322: the policy is not observable in results, for on-curve points. With a prime p and every point on
the curve (off it R322 lets the policies differ) every command but INIT leaves the same state under either
policy, but for the policy itself. -/
def Obligations.PolicyUnobservable : Prop :=
  ∀ (i : Instr) (s t : State) (pol : Policy), s.Inv → s.dom.p.Prime → s.dom.onCurve s.dom.G = true →
    (∀ j P, s.pt j = .valid P → s.dom.onCurve P = true) → s.dom.onCurve s.keyReg.pub = true →
    (∀ q f, i ≠ .init q f) →
    exec i s = .next t → exec i (s.withPolicy pol) = .next (t.withPolicy pol)

/-! ### Keys, signature and ECDH -/

/-- R371, R372, R445 and log entry 5 (one move a word): GEN_KEYPAIR asks for a word while its try lacks one,
completes with priv and [priv]G when the try lies in (0, r), and starts the next try otherwise. For a composite p,
where R206 leaves GEN_KEYPAIR open, the asking and the rejecting are the model's choice (log entry 17). -/
def Obligations.GenKeypairRule : Prop :=
  ∀ (rd : OpIdx) (re : PtIdx) (s : State) (nw d : Nat), s.Inv →
    nw = (bitlen s.dom.r + 31) / 32 →
    d = ((s.drawn.zipIdx).map fun e => e.1.toNat * 2 ^ (32 * e.2)).sum % 2 ^ bitlen s.dom.r →
    Encodes (.genKeypair rd re) 0x40 ∧ CommonFirst (.genKeypair rd re) s ∧
    (s.ready (.genKeypair rd re) = true →
      (s.drawn.length < nw → exec (.genKeypair rd re) s = .next { s with rngReq := true }) ∧
      (s.drawn.length = nw → ¬ (0 < d ∧ d < s.dom.r) →
        exec (.genKeypair rd re) s = .next { s with rngReq := true, drawn := [] }) ∧
      (s.drawn.length = nw → 0 < d → d < s.dom.r → s.dom.p.Prime → ∃ Q, Q.below s.dom.p ∧
        (s.dom.onCurve s.dom.G = true → Q = s.dom.mulRef d s.dom.G) ∧
        exec (.genKeypair rd re) s = .next (((s.writeOp rd d).writePt re Q).completeOk 0)))

/-- R371, R372, R445, R482: when the platform delivers words, any number of rejected tries and then an
accepted one, a GEN_KEYPAIR in flight takes exactly those words and completes with the accepted key pair. That the
world is a list of inputs (log entry 1) and that moves and words alternate, so the number of steps (log entry 5),
are the model's choice. -/
def Obligations.GenKeypairCompletesAfterRejections : Prop :=
  ∀ (rd : OpIdx) (re : PtIdx) (s : State) (tries : List (List Word)) (ws : List Word) (rest : List Input)
    (nw d : Nat), s.Inv → s.ready (.genKeypair rd re) = true → s.dom.p.Prime →
    s.dom.onCurve s.dom.G = true → s.busy = true → s.lastCmd = encode (.genKeypair rd re) → s.drawn = [] →
    s.rngReq = false → nw = (bitlen s.dom.r + 31) / 32 →
    (∀ l ∈ tries, l.length = nw ∧
      ¬ (0 < sampleValue (bitlen s.dom.r) l ∧ sampleValue (bitlen s.dom.r) l < s.dom.r)) →
    ws.length = nw → d = sampleValue (bitlen s.dom.r) ws → 0 < d → d < s.dom.r →
    s.inputs = ((tries.flatten ++ ws).flatMap fun w => [Input.run, Input.rng w]) ++ .run :: rest →
    ∃ t, Host.Core.run Sys2Proof.core (2 * (nw * (tries.length + 1)) + 1) s = .next t ∧ t.inputs = rest ∧
      t.busy = false ∧ t.done = true ∧ t.code = .ok ∧ t.result = 0 ∧
      t.op rd = { valid := true, value := BitVec.ofNat 544 d } ∧ t.pt re = .valid (s.dom.mulRef d s.dom.G)

/-- R445: a word offered on the RNG port is taken exactly when rng_req = 1, and nothing else takes one; only
a GEN_KEYPAIR in flight raises rng_req. -/
def Obligations.RngWordsTakenOnlyOnRequest : Prop :=
  (∀ (s : State) (w : Word), (s.rngReq = true → s.offerRng w = { s with rngReq := false, drawn := s.drawn ++ [w] }) ∧
    (s.rngReq = false → s.offerRng w = s)) ∧
  (∀ s t : State, step s = .next t → s.drawn.length < t.drawn.length →
    s.rngReq = true ∧ ∃ w, s.inputs.head? = some (.rng w)) ∧
  (∀ s t : State, step s = .next t → s.rngReq = false → t.rngReq = true →
    s.busy = true ∧ ∃ rd re, decode s.lastCmd = .ok (.genKeypair rd re))

/-- R373: DERIVE_PUB writes [priv]G for 0 < priv < r, and raises InvalidPrivateKey otherwise. -/
def Obligations.DerivePubRule : Prop :=
  ∀ (rd : PtIdx) (ra : OpIdx) (s : State), s.Inv →
    Encodes (.derivePub rd ra) 0x41 ∧
    (s.compositeP = false → CommonFirst (.derivePub rd ra) s) ∧
    (s.dom.p.Prime → s.ready (.derivePub rd ra) = true →
      (s.opVal ra = 0 ∨ s.dom.r ≤ s.opVal ra →
        exec (.derivePub rd ra) s = .next (s.completeErr .invalidPrivateKey)) ∧
      (0 < s.opVal ra → s.opVal ra < s.dom.r → ∃ Q, Q.below s.dom.p ∧
        (s.dom.onCurve s.dom.G = true → Q = s.dom.mulRef (s.opVal ra) s.dom.G) ∧
        exec (.derivePub rd ra) s = .next ((s.writePt rd Q).completeOk (if Q = .inf then 1 else 0))))

/-- R374: SET_KEYPAIR writes the fields supplied and keeps the others, normalises a public key, and checks
nothing but presence, context and the width of priv. Without a public key this holds for every p; with one, for a
p that is not composite (R206, log entry 24). -/
def Obligations.SetKeypairRule : Prop :=
  ∀ (slot : KeySlot) (priv : Option OpIdx) (pub : Option PtIdx) (s : State),
    Encodes (.setKeypair slot priv pub) 0x42 ∧
    (priv = none → pub = none →
      exec (.setKeypair slot priv pub) s = .next (s.completeErr .nullInput)) ∧
    ((s.compositeP = false ∨ pub = none) → (priv ≠ none ∨ pub ≠ none) →
      CommonFirst (.setKeypair slot priv pub) s ∧
      (s.ready (.setKeypair slot priv pub) = true →
        ((∃ i, priv = some i ∧ s.dom.orderBits < bitlen (s.opVal i)) →
          exec (.setKeypair slot priv pub) s = .next (s.completeErr .rangeError)) ∧
        ((∀ i, priv = some i → bitlen (s.opVal i) ≤ s.dom.orderBits) →
          ∃ kp : KeyPair,
            (priv = none → kp.priv = (s.key slot).priv) ∧ (∀ i, priv = some i → kp.priv = s.opVal i) ∧
            (pub = none → kp.pub = (s.key slot).pub) ∧
            (∀ j P, pub = some j → s.pt j = .valid P →
              kp.pub = if P = (if s.dom.b = 0 then Point.aff 0 1 else Point.aff 0 0) then .inf else P) ∧
            exec (.setKeypair slot priv pub) s = .next (State.completeOk
              (match slot with
                | .reg => { s with keyReg := kp }
                | .eph => { s with keyEph := kp }) 0))))

/-- R375, R380: SIGN raises MessageError, InvalidPrivateKey and EphemeralKeyError in that order, and otherwise
writes sx = x(K) mod r and the one sy below r with k·sy ≡ e + d·sx (mod r). -/
def Obligations.SignRule : Prop :=
  ∀ (rd re ra : OpIdx) (priv : Option OpIdx) (s : State) (e d k sx : Nat), s.Inv → rd ≠ re →
    e = s.opVal ra → d = (match priv with | none => s.keyReg.priv | some i => s.opVal i) →
    k = s.keyEph.priv → sx = (match s.keyEph.pub with | .inf => 0 | .aff x _ => x) % s.dom.r →
    Encodes (.sign rd re ra priv) 0x43 ∧
    (s.compositeP = false → CommonFirst (.sign rd re ra priv) s ∧
      (s.ready (.sign rd re ra priv) = true →
        (s.dom.r ≤ e → exec (.sign rd re ra priv) s = .next (s.completeErr .messageError)) ∧
        (e < s.dom.r → d = 0 ∨ s.dom.r ≤ d →
          exec (.sign rd re ra priv) s = .next (s.completeErr .invalidPrivateKey)) ∧
        (e < s.dom.r → 0 < d → d < s.dom.r →
          (sx = 0 ∨ Nat.gcd k s.dom.r ≠ 1 ∨ (e + d * sx) % s.dom.r = 0 →
            exec (.sign rd re ra priv) s = .next (s.completeErr .ephemeralKeyError)) ∧
          (sx ≠ 0 → Nat.gcd k s.dom.r = 1 → (e + d * sx) % s.dom.r ≠ 0 →
            ∃ sy, 0 < sy ∧ sy < s.dom.r ∧ k * sy % s.dom.r = (e + d * sx) % s.dom.r ∧
              exec (.sign rd re ra priv) s = .next (((s.writeOp rd sx).writeOp re sy).completeOk 0)))))

/-- R377, R378, R383: VERIFY raises MessageError for a digest not below r and otherwise completes with OK:
Invalid for a component out of range or without an inverse, and for on-curve points Valid exactly when
R = [e·h]G ⊕ [sx·h]Q is finite with x(R) ≡ sx (mod r). -/
def Obligations.VerifyRule : Prop :=
  ∀ (ra rb rc : OpIdx) (pub : Option PtIdx) (s : State) (e sx sy : Nat), s.Inv →
    e = s.opVal ra → sx = s.opVal rb → sy = s.opVal rc →
    Encodes (.verify ra rb rc pub) 0x44 ∧
    (s.compositeP = false → CommonFirst (.verify ra rb rc pub) s ∧
      (s.ready (.verify ra rb rc pub) = true →
        (s.dom.r ≤ e → exec (.verify ra rb rc pub) s = .next (s.completeErr .messageError)) ∧
        (e < s.dom.r →
          (∃ v : Word, (v = 0 ∨ v = 1) ∧ exec (.verify ra rb rc pub) s = .next (s.completeOk v)) ∧
          (s.dom.r ≤ sx ∨ s.dom.r ≤ sy ∨ Nat.gcd sy s.dom.r ≠ 1 →
            exec (.verify ra rb rc pub) s = .next (s.completeOk 1))))) ∧
    (s.dom.p.Prime → s.ready (.verify ra rb rc pub) = true → e < s.dom.r → sx < s.dom.r → sy < s.dom.r →
      Nat.gcd sy s.dom.r = 1 → ∀ Q : Point, (∀ j, pub = some j → s.pt j = .valid Q) →
      (pub = none → Q = s.keyReg.pub) → s.dom.onCurve s.dom.G = true → s.dom.onCurve Q = true →
      ∀ h : Nat, h < s.dom.r → sy * h % s.dom.r = 1 →
        exec (.verify ra rb rc pub) s = .next (s.completeOk
          (match s.dom.add (s.dom.mulRef (e * h % s.dom.r) s.dom.G) (s.dom.mulRef (sx * h % s.dom.r) Q) with
            | .inf => 1
            | .aff x _ => if x % s.dom.r = sx then 0 else 1)))

/-- R379, R382: ECDH writes x([d]P), raises ShareKeyError when the product is INF, and checks nothing of the
key or the point but presence, context and the scalar's width. -/
def Obligations.EcdhRule : Prop :=
  ∀ (rd : OpIdx) (priv : Option OpIdx) (rb : PtIdx) (s : State) (d : Nat), s.Inv →
    d = (match priv with | none => s.keyReg.priv | some i => s.opVal i) →
    Encodes (.ecdh rd priv rb) 0x45 ∧
    (s.compositeP = false → CommonFirst (.ecdh rd priv rb) s) ∧
    (s.dom.p.Prime → s.ready (.ecdh rd priv rb) = true → ∀ P, s.pt rb = .valid P →
      (s.dom.orderBits < bitlen d → exec (.ecdh rd priv rb) s = .next (s.completeErr .rangeError)) ∧
      (bitlen d ≤ s.dom.orderBits → ∃ T : Point, T.below s.dom.p ∧
        (s.dom.onCurve P = true → T = s.dom.mulRef d P) ∧
        (T = .inf → exec (.ecdh rd priv rb) s = .next (s.completeErr .shareKeyError)) ∧
        (∀ x y, T = .aff x y → exec (.ecdh rd priv rb) s = .next ((s.writeOp rd x).completeOk 0))))

/-- R384, the round trip: for an on-curve G of prime order r on a prime p, a signature made with a matching
ephemeral pair verifies under the public key of its private key. The private key may come from an operand
register or from KEY[REG] (SIGN.reg), and the public key from a point register or from KEY[REG] (VERIFY.reg). -/
def Obligations.SignThenVerifyIsValid : Prop :=
  ∀ (s t : State) (rd re ra : OpIdx) (priv : Option OpIdx) (pub : Option PtIdx) (d : Nat) (Q : Point),
    s.Inv → s.busy = true → s.dom.p.Prime → s.dom.r.Prime →
    s.dom.onCurve s.dom.G = true → s.dom.mulRef s.dom.r s.dom.G = .inf →
    s.keyEph.pub = s.dom.mulRef s.keyEph.priv s.dom.G →
    d = (match priv with | none => s.keyReg.priv | some i => s.opVal i) →
    (match pub with | none => s.keyReg.pub = Q | some q => s.pt q = .valid Q) → Q = s.dom.mulRef d s.dom.G →
    rd ≠ re → ra ≠ rd → ra ≠ re →
    exec (.sign rd re ra priv) s = .next t → t.code = .ok →
    ∃ u, exec (.verify ra rd re pub) t = .next u ∧ u.code = .ok ∧ u.result = 0

/-- R384, ECDH symmetry: for matching key pairs the two sides derive the same secret. Each private key may come
from an operand register or from KEY[REG] (ECDH.reg). -/
def Obligations.EcdhSymmetry : Prop :=
  ∀ (s t : State) (rd rd' : OpIdx) (a b : Option OpIdx) (da db : Nat) (pa pb : PtIdx),
    s.Inv → s.busy = true → s.dom.p.Prime → s.dom.onCurve s.dom.G = true →
    da = (match a with | none => s.keyReg.priv | some i => s.opVal i) →
    db = (match b with | none => s.keyReg.priv | some i => s.opVal i) →
    s.pt pa = .valid (s.dom.mulRef da s.dom.G) → s.pt pb = .valid (s.dom.mulRef db s.dom.G) →
    (∀ i, b = some i → (s.op i).valid = true ∧ bitlen (s.opVal i) ≤ s.dom.orderBits) →
    exec (.ecdh rd a pb) s = .next t → t.code = .ok →
    ∃ u, exec (.ecdh rd' b pa) s = .next u ∧ u.code = .ok ∧ u.opVal rd' = t.opVal rd

/-! ### The bus, the flags and reset -/

/-- R37, R474: a CMD write is accepted when idle (LASTCMD, DONE and BUSY change together) and its word runs
next; while BUSY it is ignored and sets OVR. A read of CMD returns LASTCMD. -/
def Obligations.CmdWriteRule : Prop :=
  (∀ (s : State) (v : Word), s.busy = false →
    s.busWrite 0x010 .word v = { s with lastCmd := v, done := false, busy := true, resp := okayWrite }) ∧
  (∀ (s : State) (v : Word), s.busy = true →
    s.busWrite 0x010 .word v = { s with ovr := true, resp := okayWrite }) ∧
  (∀ s : State, s.readWord 0x010 = s.lastCmd) ∧ State.reset.lastCmd = 0 ∧
  (∀ (s : State) (i : Instr) (rest : List Input), i.wellFormed = true → s.busy = false → s.inReset = false →
    s.inputs = .write 0x010 .word (encode i) :: .run :: rest →
    ∃ t, step s = .next t ∧ t.busy = true ∧ t.lastCmd = encode i ∧ step t = exec i t.advance)

/-- R475, R35, R36, R99, R32, R97, R98: what a write does. While BUSY, writes to operand words and OPVALID are
ignored and set OVR. Whether BUSY or not: a CTRL write sets IRQ_EN, or resets; a STATUS write clears the bits
DONE and OVR where it has a 1; a write to a read-only register, a reserved address or a padding word does nothing
at all. -/
def Obligations.WritesWhileBusy : Prop :=
  ∀ (s : State) (v : Word),
    (s.busy = true →
      (∀ (i : OpIdx) (j : Fin 32), j.val ≤ 16 →
        s.busWrite (windowOffset i j) .word v = { s with ovr := true, resp := okayWrite }) ∧
      s.busWrite 0x018 .word v = { s with ovr := true, resp := okayWrite }) ∧
    (v.getLsbD 1 = false →
      s.busWrite 0x008 .word v = { s with irqEn := v.getLsbD 0, resp := okayWrite }) ∧
    (v.getLsbD 1 = true → s.busWrite 0x008 .word v =
      { State.reset with resp := okayWrite, inputs := s.inputs, choice := s.choice }) ∧
    s.busWrite 0x00C .word v =
      { s with done := s.done && !v.getLsbD 1, ovr := s.ovr && !v.getLsbD 3, resp := okayWrite } ∧
    (∀ (i : OpIdx) (j : Fin 32), 17 ≤ j.val →
      s.busWrite (windowOffset i j) .word v = { s with resp := okayWrite }) ∧
    (∀ a : Offset, a.toNat % 4 = 0 →
      (a ∈ [(0x000 : Offset), 0x004, 0x014, 0x01C, 0x020] ∨ (0x024 ≤ a.toNat ∧ a.toNat < 0x100) ∨
        0x900 ≤ a.toNat) → s.busWrite a .word v = { s with resp := okayWrite })

/-- R98, R39, R41, R42: the operand window while idle. A write to word j ≤ 16 stores that word alone and sets
VALID; a padding word reads 0 and ignores writes; an OPVALID write clears VALID bits and keeps the words. -/
def Obligations.OperandWindowRule : Prop :=
  ∀ (s : State) (v : Word), s.busy = false →
    (∀ (i : OpIdx) (j : Fin 32) (h : j.val < 17), ∃ t, s.busWrite (windowOffset i j) .word v = t ∧
      (t.op i).valid = true ∧ operandWord (t.op i).value ⟨j, h⟩ = v ∧
      (∀ k : WordIdx, k.val ≠ j.val → operandWord (t.op i).value k = operandWord (s.op i).value k) ∧
      (∀ i', i' ≠ i → t.op i' = s.op i') ∧ t = { s with ops := t.ops, resp := okayWrite } ∧
      t.readWord (windowOffset i j) = v ∧
      s.readWord (windowOffset i j) = operandWord (s.op i).value ⟨j, h⟩) ∧
    (∀ (i : OpIdx) (j : Fin 32), 17 ≤ j.val →
      s.readWord (windowOffset i j) = 0 ∧ s.busWrite (windowOffset i j) .word v = { s with resp := okayWrite }) ∧
    (∃ t, s.busWrite 0x018 .word v = t ∧ t = { s with ops := t.ops, resp := okayWrite } ∧
      ∀ i : OpIdx, t.op i = { valid := (s.op i).valid && !v.getLsbD i.val, value := (s.op i).value })

/-- R33 to R39, R44, R45: the fields of the nine CSRs, as a read of each returns them. -/
def Obligations.CsrReads : Prop :=
  ∀ s : State,
    s.readWord 0x000 = 0xECC00100 ∧ s.readWord 0x004 = 0x007F4609 ∧
    s.readWord 0x008 = BitVec.ofNat 32 s.irqEn.toNat ∧
    s.readWord 0x00C = BitVec.ofNat 32 (s.busy.toNat + 2 * s.done.toNat + 4 * s.err.toNat + 8 * s.ovr.toNat +
      256 * s.code.toByte.toNat) ∧
    s.readWord 0x010 = s.lastCmd ∧ s.readWord 0x014 = s.result ∧
    (∀ i : OpIdx, (s.readWord 0x018).getLsbD i.val = (s.op i).valid) ∧
    (s.readWord 0x018).extractLsb' 16 16 = 0 ∧
    (∀ i : PtIdx, (s.readWord 0x01C).extractLsb' (2 * i.val) 2 =
      (match s.pt i with | .empty => 0#2 | .valid _ => 1#2 | .stale _ => 2#2)) ∧
    (s.readWord 0x01C).extractLsb' 16 16 = 0 ∧
    (s.Inv → s.readWord 0x020 = BitVec.ofNat 32
      ((if s.ctx.init then s.ctx.fieldBits else 0) + 2 ^ 16 * (if s.dom.set then bitlen s.dom.r else 0) +
        2 ^ 28 * (s.ctx.init && s.ctx.policy == .ct).toNat + 2 ^ 29 * (s.dom.set && s.dom.aIsM3).toNat +
        2 ^ 30 * s.ctx.init.toNat + 2 ^ 31 * s.dom.set.toNat))

/-- R92, R97, and the part of R99 and R476 about reads: a read changes nothing but the response; an access that
is not an aligned word access answers ERROR and does nothing; a reserved address reads 0 and ignores writes; and
a word of an operand register that is no destination of the in-flight command reads as its contents. -/
def Obligations.ReadsHaveNoEffect : Prop :=
  (∀ (s : State) (a : Offset) (w : AccessWidth), ∃ r, s.busRead a w = { s with resp := some r } ∧
    (w = .word → a.toNat % 4 = 0 → r = { okay := true, data := s.readWord a }) ∧
    (w ≠ .word ∨ a.toNat % 4 ≠ 0 → r = { okay := false, data := 0 })) ∧
  (∀ (s : State) (a : Offset) (w : AccessWidth) (v : Word), w ≠ .word ∨ a.toNat % 4 ≠ 0 →
    s.busWrite a w v = { s with resp := some { okay := false, data := 0 } }) ∧
  (∀ (s : State) (a : Offset), a.toNat % 4 = 0 → (0x024 ≤ a.toNat ∧ a.toNat < 0x100) ∨ 0x900 ≤ a.toNat →
    s.readWord a = 0 ∧ ∀ v, s.busWrite a .word v = { s with resp := okayWrite }) ∧
  (∀ (s : State) (i : OpIdx) (j : Fin 32) (h : j.val < 17),
    (∀ c, decode s.lastCmd = .ok c → i ∉ destOps c) →
    s.readWord (windowOffset i j) = operandWord (s.op i).value ⟨j, h⟩)

/-- R470, R471: a soft reset is accepted whether BUSY or not and leaves the state of R66, with OKAY and
IRQ_EN = 0 whatever bit 0 of the written value is; rst_n = 0 holds that same state, and its return to 1 keeps it.
That rst_n is a flag with two edges (log entry 12) and that a hardware reset forgets the last bus response (log
entry 14) are the model's choice. -/
def Obligations.ResetRule : Prop :=
  (∀ (s : State) (v : Word), v.getLsbD 1 = true → s.busWrite 0x008 .word v =
    { State.reset with resp := okayWrite, inputs := s.inputs, choice := s.choice }) ∧
  (∀ s : State, s.assertReset =
    { State.reset with inReset := true, inputs := s.inputs, choice := s.choice }) ∧
  (∀ s : State, s.isReset → s.releaseReset.isReset ∧ s.releaseReset.inReset = false) ∧
  (∀ s t : State, s.Inv → s.inReset = true → step s = .next t → t.isReset)

/-- R429: irq = IRQ_EN AND DONE. It is asserted after every completion when enabled, never while BUSY, and
is lowered by a write of 1 to DONE, by an acceptance, by clearing IRQ_EN and by a reset. -/
def Obligations.IrqLevel : Prop :=
  (∀ s : State, s.irq = (s.irqEn && s.done)) ∧
  (∀ s : State, s.Inv → s.busy = true → s.irq = false) ∧
  (∀ (i : Instr) (s t : State), s.busy = true → exec i s = .next t → t.busy = false → t.irq = s.irqEn) ∧
  (∀ (s : State) (v : Word), v.getLsbD 1 = true → (s.busWrite 0x00C .word v).irq = false) ∧
  (∀ (s : State) (v : Word), s.busy = false → (s.busWrite 0x010 .word v).irq = false) ∧
  (∀ (s : State) (v : Word), v.getLsbD 0 = false ∨ v.getLsbD 1 = true →
    (s.busWrite 0x008 .word v).irq = false) ∧
  (∀ s : State, s.assertReset.irq = false) ∧
  (∀ (s : State) (v : Word), v.getLsbD 1 = false → (s.busWrite 0x008 .word v).done = s.done) ∧
  State.reset.irq = false

end Statements
end

