-- ==== Sys2Proof/Laws/Arith.lean ====
section
/-! SUPPORT. The integer arithmetic of the rules, characterised once (spec 00_scope.md R8, R16): bit
lengths as bounds, residues as elements of ZMod m, the modular inverse, and trial division. -/

namespace Sys2Proof.Machine

/-! ### Bit length -/

theorem bitlen_eq_size (v : Nat) : bitlen v = Nat.size v := by
  by_cases h : v = 0
  · simp [bitlen, h]
  · rw [bitlen, if_neg h]
    refine le_antisymm ?_ (Nat.size_le.2 (Nat.lt_log2_self))
    exact Nat.lt_size.2 (Nat.log2_self_le h)

/-- `bitlen(v) ≤ n` says that v fits in n bits (R8). -/
theorem bitlen_le_iff (v n : Nat) : bitlen v ≤ n ↔ v < 2 ^ n := by
  rw [bitlen_eq_size, Nat.size_le]

theorem lt_two_pow_bitlen (v : Nat) : v < 2 ^ bitlen v := (bitlen_le_iff v _).1 le_rfl

theorem bitlen_mono {a b : Nat} (h : a ≤ b) : bitlen a ≤ bitlen b :=
  (bitlen_le_iff a _).2 (lt_of_le_of_lt h (lt_two_pow_bitlen b))

theorem bitlen_pos {v : Nat} (h : 0 < v) : 0 < bitlen v := by
  rw [bitlen_eq_size]; exact Nat.size_pos.2 h

theorem testBit_bitlen_sub_one {v : Nat} (h : 0 < v) : v.testBit (bitlen v - 1) = true := by
  have hne : v ≠ 0 := by omega
  rw [bitlen, if_neg hne, Nat.add_sub_cancel]
  exact Nat.testBit_log2 hne

/-! ### Residues -/

theorem residue_lt (x : Int) {m : Nat} (h : 0 < m) : residue x m < m := by
  unfold residue
  have h1 := Int.emod_lt_of_pos x (by exact_mod_cast h : (0 : Int) < m)
  have h2 := Int.emod_nonneg x (by exact_mod_cast h.ne' : (m : Int) ≠ 0)
  omega

/-- A residue is the element of ZMod m that it stands for. -/
theorem residue_cast (x : Int) {m : Nat} (h : 0 < m) : ((residue x m : Nat) : ZMod m) = (x : ZMod m) := by
  have h2 := Int.emod_nonneg x (by exact_mod_cast h.ne' : (m : Int) ≠ 0)
  have h3 : ((residue x m : Nat) : Int) = x % m := Int.toNat_of_nonneg h2
  calc ((residue x m : Nat) : ZMod m) = (((residue x m : Nat) : Int) : ZMod m) := by push_cast; rfl
    _ = ((x % m : Int) : ZMod m) := by rw [h3]
    _ = (x : ZMod m) := by simp

theorem cast_natMod (x m : Nat) : ((x % m : Nat) : ZMod m) = (x : ZMod m) := ZMod.natCast_mod x m

/-- Numbers below m are equal when they are equal in ZMod m. -/
theorem eq_of_cast_eq {a b m : Nat} (ha : a < m) (hb : b < m) (h : (a : ZMod m) = (b : ZMod m)) :
    a = b := by
  have := (ZMod.natCast_eq_natCast_iff a b m).1 h
  rwa [Nat.ModEq, Nat.mod_eq_of_lt ha, Nat.mod_eq_of_lt hb] at this

theorem cast_eq_zero_iff {a m : Nat} (ha : a < m) : (a : ZMod m) = 0 ↔ a = 0 := by
  constructor
  · intro h
    exact eq_of_cast_eq ha (by omega) (by simpa using h)
  · rintro rfl; simp

/-! ### The modular inverse -/

/-- What the loop answers: for an argument x with r0 = t0·x and r1 = t1·x mod m and gcd(r0, r1) = 1, an
inverse of x. -/
theorem invLoop_spec {m : Nat} (hm : 0 < m) (x : ZMod m) :
    ∀ (rounds r0 r1 : Nat) (t0 t1 : Int), r1 < rounds → Nat.gcd r0 r1 = 1 →
      (r0 : ZMod m) = t0 * x → (r1 : ZMod m) = t1 * x →
      ((invLoop m rounds r0 r1 t0 t1 : Nat) : ZMod m) * x = 1 ∧ invLoop m rounds r0 r1 t0 t1 < m
  | 0, _, _, _, _, h, _, _, _ => by omega
  | rounds + 1, r0, r1, t0, t1, h, hg, h0, h1 => by
    unfold invLoop
    split
    · next hz =>
      subst hz
      rw [Nat.gcd_zero_right] at hg
      subst hg
      exact ⟨by rw [residue_cast _ hm, ← h0]; simp, residue_lt _ hm⟩
    · next hz =>
      have hlt : r0 % r1 < r1 := Nat.mod_lt _ (Nat.pos_of_ne_zero hz)
      refine invLoop_spec hm x rounds r1 (r0 % r1) t1 _ (by omega) ?_ h1 ?_
      · rw [Nat.gcd_comm, ← Nat.gcd_rec, Nat.gcd_comm, hg]
      · have hd : (r0 : ZMod m) = r1 * ((r0 / r1 : Nat) : ZMod m) + ((r0 % r1 : Nat) : ZMod m) := by
          conv_lhs => rw [← Nat.div_add_mod r0 r1]
          push_cast; ring
        have : ((r0 % r1 : Nat) : ZMod m) = (r0 : ZMod m) - r1 * ((r0 / r1 : Nat) : ZMod m) := by
          rw [hd]; ring
        rw [this, h0, h1, Int.cast_sub, Int.cast_mul, Int.cast_natCast]
        ring

/-- The inverse in ZMod m (R8). -/
theorem invMod_cast_mul {m x : Nat} (hm : 1 < m) (h : Nat.gcd x m = 1) :
    ((invMod m x : Nat) : ZMod m) * (x : ZMod m) = 1 := by
  have := (invLoop_spec (by omega : 0 < m) (x : ZMod m) (m + 1) m (x % m) 0 1
    (by have := Nat.mod_lt x (by omega : 0 < m); omega)
    (by rw [Nat.gcd_comm, ← Nat.gcd_rec, Nat.gcd_comm]; exact h) (by simp) (by simp)).1
  exact this

theorem invMod_lt {m x : Nat} (hm : 1 < m) (h : Nat.gcd x m = 1) : invMod m x < m :=
  (invLoop_spec (by omega : 0 < m) (x : ZMod m) (m + 1) m (x % m) 0 1
    (by have := Nat.mod_lt x (by omega : 0 < m); omega)
    (by rw [Nat.gcd_comm, ← Nat.gcd_rec, Nat.gcd_comm]; exact h) (by simp) (by simp)).2

/-- The inverse as a natural number: `inv_m(x)·x mod m = 1` (R8). -/
theorem invMod_mul_mod {m x : Nat} (hm : 1 < m) (h : Nat.gcd x m = 1) : invMod m x * x % m = 1 := by
  have := invMod_cast_mul hm h
  apply eq_of_cast_eq (m := m) (Nat.mod_lt _ (by omega)) hm
  rw [cast_natMod]; push_cast; rw [this]

/-- For a prime modulus the inverse of a nonzero residue is the field inverse. -/
theorem invMod_cast_prime {p x : Nat} [Fact p.Prime] (hx : (x : ZMod p) ≠ 0) :
    ((invMod p x : Nat) : ZMod p) = (x : ZMod p)⁻¹ := by
  have hp : p.Prime := Fact.out
  have hg : Nat.gcd x p = 1 := by
    rw [Nat.gcd_comm]
    refine (Nat.Prime.coprime_iff_not_dvd hp).2 fun hd => hx ?_
    exact (ZMod.natCast_eq_zero_iff x p).2 hd
  exact eq_inv_of_mul_eq_one_left (invMod_cast_mul hp.one_lt hg)

/-! ### The Montgomery radix -/

theorem lt_radix (m : Nat) : m < radix m := by
  refine lt_of_lt_of_le (lt_two_pow_bitlen m) (Nat.pow_le_pow_right (by decide) ?_)
  unfold Config.wordBits
  omega

/-- The radix of an odd modulus is invertible (R170). -/
theorem radix_coprime {m : Nat} (h : m % 2 = 1) : Nat.gcd (radix m) m = 1 :=
  Nat.Coprime.pow_left _ ((Nat.coprime_two_left).2 (Nat.odd_iff.2 h))

/-! ### Trial division -/

theorem trialLoop_eq_true {p : Nat} (hp : 2 ≤ p) :
    ∀ (trials d : Nat), 2 ≤ d → p < (d + trials) * (d + trials) → (∀ k, 2 ≤ k → k < d → ¬ k ∣ p) →
      (trialLoop p trials d = true ↔ p.Prime)
  | 0, d, hd, hb, hk => by
    simp only [trialLoop, true_iff]
    refine Nat.prime_def_le_sqrt.2 ⟨hp, fun k h2 hs => hk k h2 ?_⟩
    exact lt_of_le_of_lt hs (Nat.sqrt_lt.2 (by simpa using hb))
  | trials + 1, d, hd, hb, hk => by
    unfold trialLoop
    split
    · next h =>
      simp only [true_iff]
      exact Nat.prime_def_le_sqrt.2 ⟨hp, fun k h2 hs => hk k h2 (lt_of_le_of_lt hs (Nat.sqrt_lt.2 h))⟩
    · next h =>
      split
      · next hz =>
        simp only [Bool.false_eq_true, false_iff]
        intro hpr
        rcases (Nat.dvd_prime hpr).1 (Nat.dvd_of_mod_eq_zero hz) with h1 | h1
        · omega
        · subst h1
          have : d * 1 < d * d := Nat.mul_lt_mul_of_pos_left (by omega) (by omega)
          omega
      · next hz =>
        refine trialLoop_eq_true hp trials (d + 1) (by omega) ?_ fun k h2 hlt => ?_
        · have : d + 1 + trials = d + (trials + 1) := by omega
          rwa [this]
        · rcases Nat.lt_succ_iff_lt_or_eq.1 hlt with h3 | h3
          · exact hk k h2 h3
          · subst h3; exact fun hdv => hz (Nat.mod_eq_zero_of_dvd hdv)

/-- Trial division decides primality. -/
theorem trialPrime_iff (p : Nat) : trialPrime p = true ↔ p.Prime := by
  unfold trialPrime
  by_cases hp : 2 ≤ p
  · simp only [hp, decide_true, Bool.true_and]
    refine trialLoop_eq_true hp p 2 le_rfl ?_ fun k h2 hlt => by omega
    nlinarith
  · simp only [hp, decide_false, Bool.false_and, Bool.false_eq_true, false_iff]
    exact fun h => hp h.two_le

theorem primeModulus_of_prime {p : Nat} (h : p.Prime) : primeModulus p = true := by
  simp [primeModulus, (trialPrime_iff p).2 h]

end Sys2Proof.Machine
end

