-- ==== Sys2Proof/Laws/State.lean ====
section
/-! SUPPORT. What each named update of the state leaves in each field: one lemma a field, so that no later
proof unfolds a record update. -/

namespace Sys2Proof.Machine

variable (s : State)

/-! ### writeOp -/

@[simp] theorem State.writeOp_irqEn (i : OpIdx) (v : Nat) : (s.writeOp i v).irqEn = s.irqEn := rfl
@[simp] theorem State.writeOp_busy (i : OpIdx) (v : Nat) : (s.writeOp i v).busy = s.busy := rfl
@[simp] theorem State.writeOp_done (i : OpIdx) (v : Nat) : (s.writeOp i v).done = s.done := rfl
@[simp] theorem State.writeOp_err (i : OpIdx) (v : Nat) : (s.writeOp i v).err = s.err := rfl
@[simp] theorem State.writeOp_ovr (i : OpIdx) (v : Nat) : (s.writeOp i v).ovr = s.ovr := rfl
@[simp] theorem State.writeOp_code (i : OpIdx) (v : Nat) : (s.writeOp i v).code = s.code := rfl
@[simp] theorem State.writeOp_lastCmd (i : OpIdx) (v : Nat) : (s.writeOp i v).lastCmd = s.lastCmd := rfl
@[simp] theorem State.writeOp_result (i : OpIdx) (v : Nat) : (s.writeOp i v).result = s.result := rfl
@[simp] theorem State.writeOp_ops (i : OpIdx) (v : Nat) : (s.writeOp i v).ops = s.ops.set i { valid := true, value := BitVec.ofNat 544 v } := rfl
@[simp] theorem State.writeOp_pts (i : OpIdx) (v : Nat) : (s.writeOp i v).pts = s.pts := rfl
@[simp] theorem State.writeOp_keyReg (i : OpIdx) (v : Nat) : (s.writeOp i v).keyReg = s.keyReg := rfl
@[simp] theorem State.writeOp_keyEph (i : OpIdx) (v : Nat) : (s.writeOp i v).keyEph = s.keyEph := rfl
@[simp] theorem State.writeOp_ctx (i : OpIdx) (v : Nat) : (s.writeOp i v).ctx = s.ctx := rfl
@[simp] theorem State.writeOp_dom (i : OpIdx) (v : Nat) : (s.writeOp i v).dom = s.dom := rfl
@[simp] theorem State.writeOp_rngReq (i : OpIdx) (v : Nat) : (s.writeOp i v).rngReq = s.rngReq := rfl
@[simp] theorem State.writeOp_drawn (i : OpIdx) (v : Nat) : (s.writeOp i v).drawn = s.drawn := rfl
@[simp] theorem State.writeOp_inReset (i : OpIdx) (v : Nat) : (s.writeOp i v).inReset = s.inReset := rfl
@[simp] theorem State.writeOp_inputs (i : OpIdx) (v : Nat) : (s.writeOp i v).inputs = s.inputs := rfl
@[simp] theorem State.writeOp_resp (i : OpIdx) (v : Nat) : (s.writeOp i v).resp = s.resp := rfl
@[simp] theorem State.writeOp_choice (i : OpIdx) (v : Nat) : (s.writeOp i v).choice = s.choice := rfl

/-! ### writePt -/

@[simp] theorem State.writePt_irqEn (i : PtIdx) (P : Point) : (s.writePt i P).irqEn = s.irqEn := rfl
@[simp] theorem State.writePt_busy (i : PtIdx) (P : Point) : (s.writePt i P).busy = s.busy := rfl
@[simp] theorem State.writePt_done (i : PtIdx) (P : Point) : (s.writePt i P).done = s.done := rfl
@[simp] theorem State.writePt_err (i : PtIdx) (P : Point) : (s.writePt i P).err = s.err := rfl
@[simp] theorem State.writePt_ovr (i : PtIdx) (P : Point) : (s.writePt i P).ovr = s.ovr := rfl
@[simp] theorem State.writePt_code (i : PtIdx) (P : Point) : (s.writePt i P).code = s.code := rfl
@[simp] theorem State.writePt_lastCmd (i : PtIdx) (P : Point) : (s.writePt i P).lastCmd = s.lastCmd := rfl
@[simp] theorem State.writePt_result (i : PtIdx) (P : Point) : (s.writePt i P).result = s.result := rfl
@[simp] theorem State.writePt_ops (i : PtIdx) (P : Point) : (s.writePt i P).ops = s.ops := rfl
@[simp] theorem State.writePt_pts (i : PtIdx) (P : Point) : (s.writePt i P).pts = s.pts.set i (.valid P) := rfl
@[simp] theorem State.writePt_keyReg (i : PtIdx) (P : Point) : (s.writePt i P).keyReg = s.keyReg := rfl
@[simp] theorem State.writePt_keyEph (i : PtIdx) (P : Point) : (s.writePt i P).keyEph = s.keyEph := rfl
@[simp] theorem State.writePt_ctx (i : PtIdx) (P : Point) : (s.writePt i P).ctx = s.ctx := rfl
@[simp] theorem State.writePt_dom (i : PtIdx) (P : Point) : (s.writePt i P).dom = s.dom := rfl
@[simp] theorem State.writePt_rngReq (i : PtIdx) (P : Point) : (s.writePt i P).rngReq = s.rngReq := rfl
@[simp] theorem State.writePt_drawn (i : PtIdx) (P : Point) : (s.writePt i P).drawn = s.drawn := rfl
@[simp] theorem State.writePt_inReset (i : PtIdx) (P : Point) : (s.writePt i P).inReset = s.inReset := rfl
@[simp] theorem State.writePt_inputs (i : PtIdx) (P : Point) : (s.writePt i P).inputs = s.inputs := rfl
@[simp] theorem State.writePt_resp (i : PtIdx) (P : Point) : (s.writePt i P).resp = s.resp := rfl
@[simp] theorem State.writePt_choice (i : PtIdx) (P : Point) : (s.writePt i P).choice = s.choice := rfl

/-! ### clearKeys -/

@[simp] theorem State.clearKeys_irqEn : (s.clearKeys).irqEn = s.irqEn := rfl
@[simp] theorem State.clearKeys_busy : (s.clearKeys).busy = s.busy := rfl
@[simp] theorem State.clearKeys_done : (s.clearKeys).done = s.done := rfl
@[simp] theorem State.clearKeys_err : (s.clearKeys).err = s.err := rfl
@[simp] theorem State.clearKeys_ovr : (s.clearKeys).ovr = s.ovr := rfl
@[simp] theorem State.clearKeys_code : (s.clearKeys).code = s.code := rfl
@[simp] theorem State.clearKeys_lastCmd : (s.clearKeys).lastCmd = s.lastCmd := rfl
@[simp] theorem State.clearKeys_result : (s.clearKeys).result = s.result := rfl
@[simp] theorem State.clearKeys_ops : (s.clearKeys).ops = s.ops := rfl
@[simp] theorem State.clearKeys_pts : (s.clearKeys).pts = s.pts := rfl
@[simp] theorem State.clearKeys_keyReg : (s.clearKeys).keyReg = .cleared := rfl
@[simp] theorem State.clearKeys_keyEph : (s.clearKeys).keyEph = .cleared := rfl
@[simp] theorem State.clearKeys_ctx : (s.clearKeys).ctx = s.ctx := rfl
@[simp] theorem State.clearKeys_dom : (s.clearKeys).dom = s.dom := rfl
@[simp] theorem State.clearKeys_rngReq : (s.clearKeys).rngReq = s.rngReq := rfl
@[simp] theorem State.clearKeys_drawn : (s.clearKeys).drawn = s.drawn := rfl
@[simp] theorem State.clearKeys_inReset : (s.clearKeys).inReset = s.inReset := rfl
@[simp] theorem State.clearKeys_inputs : (s.clearKeys).inputs = s.inputs := rfl
@[simp] theorem State.clearKeys_resp : (s.clearKeys).resp = s.resp := rfl
@[simp] theorem State.clearKeys_choice : (s.clearKeys).choice = s.choice := rfl

/-! ### staleAll -/

@[simp] theorem State.staleAll_irqEn : (s.staleAll).irqEn = s.irqEn := rfl
@[simp] theorem State.staleAll_busy : (s.staleAll).busy = s.busy := rfl
@[simp] theorem State.staleAll_done : (s.staleAll).done = s.done := rfl
@[simp] theorem State.staleAll_err : (s.staleAll).err = s.err := rfl
@[simp] theorem State.staleAll_ovr : (s.staleAll).ovr = s.ovr := rfl
@[simp] theorem State.staleAll_code : (s.staleAll).code = s.code := rfl
@[simp] theorem State.staleAll_lastCmd : (s.staleAll).lastCmd = s.lastCmd := rfl
@[simp] theorem State.staleAll_result : (s.staleAll).result = s.result := rfl
@[simp] theorem State.staleAll_ops : (s.staleAll).ops = s.ops := rfl
@[simp] theorem State.staleAll_pts : (s.staleAll).pts = s.pts.map PtReg.toStale := rfl
@[simp] theorem State.staleAll_keyReg : (s.staleAll).keyReg = s.keyReg := rfl
@[simp] theorem State.staleAll_keyEph : (s.staleAll).keyEph = s.keyEph := rfl
@[simp] theorem State.staleAll_ctx : (s.staleAll).ctx = s.ctx := rfl
@[simp] theorem State.staleAll_dom : (s.staleAll).dom = s.dom := rfl
@[simp] theorem State.staleAll_rngReq : (s.staleAll).rngReq = s.rngReq := rfl
@[simp] theorem State.staleAll_drawn : (s.staleAll).drawn = s.drawn := rfl
@[simp] theorem State.staleAll_inReset : (s.staleAll).inReset = s.inReset := rfl
@[simp] theorem State.staleAll_inputs : (s.staleAll).inputs = s.inputs := rfl
@[simp] theorem State.staleAll_resp : (s.staleAll).resp = s.resp := rfl
@[simp] theorem State.staleAll_choice : (s.staleAll).choice = s.choice := rfl

/-! ### dropContextBound -/

@[simp] theorem State.dropContextBound_irqEn : (s.dropContextBound).irqEn = s.irqEn := rfl
@[simp] theorem State.dropContextBound_busy : (s.dropContextBound).busy = s.busy := rfl
@[simp] theorem State.dropContextBound_done : (s.dropContextBound).done = s.done := rfl
@[simp] theorem State.dropContextBound_err : (s.dropContextBound).err = s.err := rfl
@[simp] theorem State.dropContextBound_ovr : (s.dropContextBound).ovr = s.ovr := rfl
@[simp] theorem State.dropContextBound_code : (s.dropContextBound).code = s.code := rfl
@[simp] theorem State.dropContextBound_lastCmd : (s.dropContextBound).lastCmd = s.lastCmd := rfl
@[simp] theorem State.dropContextBound_result : (s.dropContextBound).result = s.result := rfl
@[simp] theorem State.dropContextBound_ops : (s.dropContextBound).ops = s.ops := rfl
@[simp] theorem State.dropContextBound_pts : (s.dropContextBound).pts = s.pts.map PtReg.toStale := rfl
@[simp] theorem State.dropContextBound_keyReg : (s.dropContextBound).keyReg = .cleared := rfl
@[simp] theorem State.dropContextBound_keyEph : (s.dropContextBound).keyEph = .cleared := rfl
@[simp] theorem State.dropContextBound_ctx : (s.dropContextBound).ctx = s.ctx := rfl
@[simp] theorem State.dropContextBound_dom : (s.dropContextBound).dom = s.dom := rfl
@[simp] theorem State.dropContextBound_rngReq : (s.dropContextBound).rngReq = s.rngReq := rfl
@[simp] theorem State.dropContextBound_drawn : (s.dropContextBound).drawn = s.drawn := rfl
@[simp] theorem State.dropContextBound_inReset : (s.dropContextBound).inReset = s.inReset := rfl
@[simp] theorem State.dropContextBound_inputs : (s.dropContextBound).inputs = s.inputs := rfl
@[simp] theorem State.dropContextBound_resp : (s.dropContextBound).resp = s.resp := rfl
@[simp] theorem State.dropContextBound_choice : (s.dropContextBound).choice = s.choice := rfl

/-! ### close -/

@[simp] theorem State.close_irqEn (c : StatusCode) (v : Word) : (s.close c v).irqEn = s.irqEn := rfl
@[simp] theorem State.close_busy (c : StatusCode) (v : Word) : (s.close c v).busy = false := rfl
@[simp] theorem State.close_done (c : StatusCode) (v : Word) : (s.close c v).done = true := rfl
@[simp] theorem State.close_err (c : StatusCode) (v : Word) : (s.close c v).err = (c != .ok) := rfl
@[simp] theorem State.close_ovr (c : StatusCode) (v : Word) : (s.close c v).ovr = s.ovr := rfl
@[simp] theorem State.close_code (c : StatusCode) (v : Word) : (s.close c v).code = c := rfl
@[simp] theorem State.close_lastCmd (c : StatusCode) (v : Word) : (s.close c v).lastCmd = s.lastCmd := rfl
@[simp] theorem State.close_result (c : StatusCode) (v : Word) : (s.close c v).result = v := rfl
@[simp] theorem State.close_ops (c : StatusCode) (v : Word) : (s.close c v).ops = s.ops := rfl
@[simp] theorem State.close_pts (c : StatusCode) (v : Word) : (s.close c v).pts = s.pts := rfl
@[simp] theorem State.close_keyReg (c : StatusCode) (v : Word) : (s.close c v).keyReg = s.keyReg := rfl
@[simp] theorem State.close_keyEph (c : StatusCode) (v : Word) : (s.close c v).keyEph = s.keyEph := rfl
@[simp] theorem State.close_ctx (c : StatusCode) (v : Word) : (s.close c v).ctx = s.ctx := rfl
@[simp] theorem State.close_dom (c : StatusCode) (v : Word) : (s.close c v).dom = s.dom := rfl
@[simp] theorem State.close_rngReq (c : StatusCode) (v : Word) : (s.close c v).rngReq = false := rfl
@[simp] theorem State.close_drawn (c : StatusCode) (v : Word) : (s.close c v).drawn = [] := rfl
@[simp] theorem State.close_inReset (c : StatusCode) (v : Word) : (s.close c v).inReset = s.inReset := rfl
@[simp] theorem State.close_inputs (c : StatusCode) (v : Word) : (s.close c v).inputs = s.inputs := rfl
@[simp] theorem State.close_resp (c : StatusCode) (v : Word) : (s.close c v).resp = s.resp := rfl
@[simp] theorem State.close_choice (c : StatusCode) (v : Word) : (s.close c v).choice = s.choice := rfl

/-! ### completeOk -/

@[simp] theorem State.completeOk_irqEn (v : Word) : (s.completeOk v).irqEn = s.irqEn := rfl
@[simp] theorem State.completeOk_busy (v : Word) : (s.completeOk v).busy = false := rfl
@[simp] theorem State.completeOk_done (v : Word) : (s.completeOk v).done = true := rfl
@[simp] theorem State.completeOk_err (v : Word) : (s.completeOk v).err = false := rfl
@[simp] theorem State.completeOk_ovr (v : Word) : (s.completeOk v).ovr = s.ovr := rfl
@[simp] theorem State.completeOk_code (v : Word) : (s.completeOk v).code = .ok := rfl
@[simp] theorem State.completeOk_lastCmd (v : Word) : (s.completeOk v).lastCmd = s.lastCmd := rfl
@[simp] theorem State.completeOk_result (v : Word) : (s.completeOk v).result = v := rfl
@[simp] theorem State.completeOk_ops (v : Word) : (s.completeOk v).ops = s.ops := rfl
@[simp] theorem State.completeOk_pts (v : Word) : (s.completeOk v).pts = s.pts := rfl
@[simp] theorem State.completeOk_keyReg (v : Word) : (s.completeOk v).keyReg = s.keyReg := rfl
@[simp] theorem State.completeOk_keyEph (v : Word) : (s.completeOk v).keyEph = s.keyEph := rfl
@[simp] theorem State.completeOk_ctx (v : Word) : (s.completeOk v).ctx = s.ctx := rfl
@[simp] theorem State.completeOk_dom (v : Word) : (s.completeOk v).dom = s.dom := rfl
@[simp] theorem State.completeOk_rngReq (v : Word) : (s.completeOk v).rngReq = false := rfl
@[simp] theorem State.completeOk_drawn (v : Word) : (s.completeOk v).drawn = [] := rfl
@[simp] theorem State.completeOk_inReset (v : Word) : (s.completeOk v).inReset = s.inReset := rfl
@[simp] theorem State.completeOk_inputs (v : Word) : (s.completeOk v).inputs = s.inputs := rfl
@[simp] theorem State.completeOk_resp (v : Word) : (s.completeOk v).resp = s.resp := rfl
@[simp] theorem State.completeOk_choice (v : Word) : (s.completeOk v).choice = s.choice := rfl

/-! ### completeErr -/

@[simp] theorem State.completeErr_irqEn (e : StatusCode) : (s.completeErr e).irqEn = s.irqEn := rfl
@[simp] theorem State.completeErr_busy (e : StatusCode) : (s.completeErr e).busy = false := rfl
@[simp] theorem State.completeErr_done (e : StatusCode) : (s.completeErr e).done = true := rfl
@[simp] theorem State.completeErr_err (e : StatusCode) : (s.completeErr e).err = (e != .ok) := rfl
@[simp] theorem State.completeErr_ovr (e : StatusCode) : (s.completeErr e).ovr = s.ovr := rfl
@[simp] theorem State.completeErr_code (e : StatusCode) : (s.completeErr e).code = e := rfl
@[simp] theorem State.completeErr_lastCmd (e : StatusCode) : (s.completeErr e).lastCmd = s.lastCmd := rfl
@[simp] theorem State.completeErr_result (e : StatusCode) : (s.completeErr e).result = errorResult := rfl
@[simp] theorem State.completeErr_ops (e : StatusCode) : (s.completeErr e).ops = s.ops := rfl
@[simp] theorem State.completeErr_pts (e : StatusCode) : (s.completeErr e).pts = s.pts := rfl
@[simp] theorem State.completeErr_keyReg (e : StatusCode) : (s.completeErr e).keyReg = s.keyReg := rfl
@[simp] theorem State.completeErr_keyEph (e : StatusCode) : (s.completeErr e).keyEph = s.keyEph := rfl
@[simp] theorem State.completeErr_ctx (e : StatusCode) : (s.completeErr e).ctx = s.ctx := rfl
@[simp] theorem State.completeErr_dom (e : StatusCode) : (s.completeErr e).dom = s.dom := rfl
@[simp] theorem State.completeErr_rngReq (e : StatusCode) : (s.completeErr e).rngReq = false := rfl
@[simp] theorem State.completeErr_drawn (e : StatusCode) : (s.completeErr e).drawn = [] := rfl
@[simp] theorem State.completeErr_inReset (e : StatusCode) : (s.completeErr e).inReset = s.inReset := rfl
@[simp] theorem State.completeErr_inputs (e : StatusCode) : (s.completeErr e).inputs = s.inputs := rfl
@[simp] theorem State.completeErr_resp (e : StatusCode) : (s.completeErr e).resp = s.resp := rfl
@[simp] theorem State.completeErr_choice (e : StatusCode) : (s.completeErr e).choice = s.choice := rfl

/-! ### installDomain -/

@[simp] theorem State.installDomain_irqEn (t : CurveTuple) : (s.installDomain t).irqEn = s.irqEn := rfl
@[simp] theorem State.installDomain_busy (t : CurveTuple) : (s.installDomain t).busy = s.busy := rfl
@[simp] theorem State.installDomain_done (t : CurveTuple) : (s.installDomain t).done = s.done := rfl
@[simp] theorem State.installDomain_err (t : CurveTuple) : (s.installDomain t).err = s.err := rfl
@[simp] theorem State.installDomain_ovr (t : CurveTuple) : (s.installDomain t).ovr = s.ovr := rfl
@[simp] theorem State.installDomain_code (t : CurveTuple) : (s.installDomain t).code = s.code := rfl
@[simp] theorem State.installDomain_lastCmd (t : CurveTuple) : (s.installDomain t).lastCmd = s.lastCmd := rfl
@[simp] theorem State.installDomain_result (t : CurveTuple) : (s.installDomain t).result = s.result := rfl
@[simp] theorem State.installDomain_ops (t : CurveTuple) : (s.installDomain t).ops = s.ops := rfl
@[simp] theorem State.installDomain_pts (t : CurveTuple) : (s.installDomain t).pts = s.pts.map PtReg.toStale := rfl
@[simp] theorem State.installDomain_keyReg (t : CurveTuple) : (s.installDomain t).keyReg = .cleared := rfl
@[simp] theorem State.installDomain_keyEph (t : CurveTuple) : (s.installDomain t).keyEph = .cleared := rfl
@[simp] theorem State.installDomain_ctx (t : CurveTuple) : (s.installDomain t).ctx = s.ctx := rfl
@[simp] theorem State.installDomain_dom (t : CurveTuple) : (s.installDomain t).dom = domainOf t := rfl
@[simp] theorem State.installDomain_rngReq (t : CurveTuple) : (s.installDomain t).rngReq = s.rngReq := rfl
@[simp] theorem State.installDomain_drawn (t : CurveTuple) : (s.installDomain t).drawn = s.drawn := rfl
@[simp] theorem State.installDomain_inReset (t : CurveTuple) : (s.installDomain t).inReset = s.inReset := rfl
@[simp] theorem State.installDomain_inputs (t : CurveTuple) : (s.installDomain t).inputs = s.inputs := rfl
@[simp] theorem State.installDomain_resp (t : CurveTuple) : (s.installDomain t).resp = s.resp := rfl
@[simp] theorem State.installDomain_choice (t : CurveTuple) : (s.installDomain t).choice = s.choice := rfl

/-! ### accept -/

@[simp] theorem State.accept_irqEn (v : Word) : (s.accept v).irqEn = s.irqEn := rfl
@[simp] theorem State.accept_busy (v : Word) : (s.accept v).busy = true := rfl
@[simp] theorem State.accept_done (v : Word) : (s.accept v).done = false := rfl
@[simp] theorem State.accept_err (v : Word) : (s.accept v).err = s.err := rfl
@[simp] theorem State.accept_ovr (v : Word) : (s.accept v).ovr = s.ovr := rfl
@[simp] theorem State.accept_code (v : Word) : (s.accept v).code = s.code := rfl
@[simp] theorem State.accept_lastCmd (v : Word) : (s.accept v).lastCmd = v := rfl
@[simp] theorem State.accept_result (v : Word) : (s.accept v).result = s.result := rfl
@[simp] theorem State.accept_ops (v : Word) : (s.accept v).ops = s.ops := rfl
@[simp] theorem State.accept_pts (v : Word) : (s.accept v).pts = s.pts := rfl
@[simp] theorem State.accept_keyReg (v : Word) : (s.accept v).keyReg = s.keyReg := rfl
@[simp] theorem State.accept_keyEph (v : Word) : (s.accept v).keyEph = s.keyEph := rfl
@[simp] theorem State.accept_ctx (v : Word) : (s.accept v).ctx = s.ctx := rfl
@[simp] theorem State.accept_dom (v : Word) : (s.accept v).dom = s.dom := rfl
@[simp] theorem State.accept_rngReq (v : Word) : (s.accept v).rngReq = s.rngReq := rfl
@[simp] theorem State.accept_drawn (v : Word) : (s.accept v).drawn = s.drawn := rfl
@[simp] theorem State.accept_inReset (v : Word) : (s.accept v).inReset = s.inReset := rfl
@[simp] theorem State.accept_inputs (v : Word) : (s.accept v).inputs = s.inputs := rfl
@[simp] theorem State.accept_resp (v : Word) : (s.accept v).resp = s.resp := rfl
@[simp] theorem State.accept_choice (v : Word) : (s.accept v).choice = s.choice := rfl

/-! ### overrun -/

@[simp] theorem State.overrun_irqEn : (s.overrun).irqEn = s.irqEn := rfl
@[simp] theorem State.overrun_busy : (s.overrun).busy = s.busy := rfl
@[simp] theorem State.overrun_done : (s.overrun).done = s.done := rfl
@[simp] theorem State.overrun_err : (s.overrun).err = s.err := rfl
@[simp] theorem State.overrun_ovr : (s.overrun).ovr = true := rfl
@[simp] theorem State.overrun_code : (s.overrun).code = s.code := rfl
@[simp] theorem State.overrun_lastCmd : (s.overrun).lastCmd = s.lastCmd := rfl
@[simp] theorem State.overrun_result : (s.overrun).result = s.result := rfl
@[simp] theorem State.overrun_ops : (s.overrun).ops = s.ops := rfl
@[simp] theorem State.overrun_pts : (s.overrun).pts = s.pts := rfl
@[simp] theorem State.overrun_keyReg : (s.overrun).keyReg = s.keyReg := rfl
@[simp] theorem State.overrun_keyEph : (s.overrun).keyEph = s.keyEph := rfl
@[simp] theorem State.overrun_ctx : (s.overrun).ctx = s.ctx := rfl
@[simp] theorem State.overrun_dom : (s.overrun).dom = s.dom := rfl
@[simp] theorem State.overrun_rngReq : (s.overrun).rngReq = s.rngReq := rfl
@[simp] theorem State.overrun_drawn : (s.overrun).drawn = s.drawn := rfl
@[simp] theorem State.overrun_inReset : (s.overrun).inReset = s.inReset := rfl
@[simp] theorem State.overrun_inputs : (s.overrun).inputs = s.inputs := rfl
@[simp] theorem State.overrun_resp : (s.overrun).resp = s.resp := rfl
@[simp] theorem State.overrun_choice : (s.overrun).choice = s.choice := rfl

/-! ### advance -/

@[simp] theorem State.advance_irqEn : (s.advance).irqEn = s.irqEn := rfl
@[simp] theorem State.advance_busy : (s.advance).busy = s.busy := rfl
@[simp] theorem State.advance_done : (s.advance).done = s.done := rfl
@[simp] theorem State.advance_err : (s.advance).err = s.err := rfl
@[simp] theorem State.advance_ovr : (s.advance).ovr = s.ovr := rfl
@[simp] theorem State.advance_code : (s.advance).code = s.code := rfl
@[simp] theorem State.advance_lastCmd : (s.advance).lastCmd = s.lastCmd := rfl
@[simp] theorem State.advance_result : (s.advance).result = s.result := rfl
@[simp] theorem State.advance_ops : (s.advance).ops = s.ops := rfl
@[simp] theorem State.advance_pts : (s.advance).pts = s.pts := rfl
@[simp] theorem State.advance_keyReg : (s.advance).keyReg = s.keyReg := rfl
@[simp] theorem State.advance_keyEph : (s.advance).keyEph = s.keyEph := rfl
@[simp] theorem State.advance_ctx : (s.advance).ctx = s.ctx := rfl
@[simp] theorem State.advance_dom : (s.advance).dom = s.dom := rfl
@[simp] theorem State.advance_rngReq : (s.advance).rngReq = s.rngReq := rfl
@[simp] theorem State.advance_drawn : (s.advance).drawn = s.drawn := rfl
@[simp] theorem State.advance_inReset : (s.advance).inReset = s.inReset := rfl
@[simp] theorem State.advance_inputs : (s.advance).inputs = s.inputs.tail := rfl
@[simp] theorem State.advance_resp : (s.advance).resp = s.resp := rfl
@[simp] theorem State.advance_choice : (s.advance).choice = s.choice + 1 := rfl

/-! ### writeKey -/

@[simp] theorem State.writeKey_irqEn (k : KeySlot) (kp : KeyPair) :
    (s.writeKey k kp).irqEn = s.irqEn := by cases k <;> rfl
@[simp] theorem State.writeKey_busy (k : KeySlot) (kp : KeyPair) :
    (s.writeKey k kp).busy = s.busy := by cases k <;> rfl
@[simp] theorem State.writeKey_done (k : KeySlot) (kp : KeyPair) :
    (s.writeKey k kp).done = s.done := by cases k <;> rfl
@[simp] theorem State.writeKey_err (k : KeySlot) (kp : KeyPair) :
    (s.writeKey k kp).err = s.err := by cases k <;> rfl
@[simp] theorem State.writeKey_ovr (k : KeySlot) (kp : KeyPair) :
    (s.writeKey k kp).ovr = s.ovr := by cases k <;> rfl
@[simp] theorem State.writeKey_code (k : KeySlot) (kp : KeyPair) :
    (s.writeKey k kp).code = s.code := by cases k <;> rfl
@[simp] theorem State.writeKey_lastCmd (k : KeySlot) (kp : KeyPair) :
    (s.writeKey k kp).lastCmd = s.lastCmd := by cases k <;> rfl
@[simp] theorem State.writeKey_result (k : KeySlot) (kp : KeyPair) :
    (s.writeKey k kp).result = s.result := by cases k <;> rfl
@[simp] theorem State.writeKey_ops (k : KeySlot) (kp : KeyPair) :
    (s.writeKey k kp).ops = s.ops := by cases k <;> rfl
@[simp] theorem State.writeKey_pts (k : KeySlot) (kp : KeyPair) :
    (s.writeKey k kp).pts = s.pts := by cases k <;> rfl
@[simp] theorem State.writeKey_keyReg (k : KeySlot) (kp : KeyPair) :
    (s.writeKey k kp).keyReg = (match k with | .reg => kp | .eph => s.keyReg) := by cases k <;> rfl
@[simp] theorem State.writeKey_keyEph (k : KeySlot) (kp : KeyPair) :
    (s.writeKey k kp).keyEph = (match k with | .reg => s.keyEph | .eph => kp) := by cases k <;> rfl
@[simp] theorem State.writeKey_ctx (k : KeySlot) (kp : KeyPair) :
    (s.writeKey k kp).ctx = s.ctx := by cases k <;> rfl
@[simp] theorem State.writeKey_dom (k : KeySlot) (kp : KeyPair) :
    (s.writeKey k kp).dom = s.dom := by cases k <;> rfl
@[simp] theorem State.writeKey_rngReq (k : KeySlot) (kp : KeyPair) :
    (s.writeKey k kp).rngReq = s.rngReq := by cases k <;> rfl
@[simp] theorem State.writeKey_drawn (k : KeySlot) (kp : KeyPair) :
    (s.writeKey k kp).drawn = s.drawn := by cases k <;> rfl
@[simp] theorem State.writeKey_inReset (k : KeySlot) (kp : KeyPair) :
    (s.writeKey k kp).inReset = s.inReset := by cases k <;> rfl
@[simp] theorem State.writeKey_inputs (k : KeySlot) (kp : KeyPair) :
    (s.writeKey k kp).inputs = s.inputs := by cases k <;> rfl
@[simp] theorem State.writeKey_resp (k : KeySlot) (kp : KeyPair) :
    (s.writeKey k kp).resp = s.resp := by cases k <;> rfl
@[simp] theorem State.writeKey_choice (k : KeySlot) (kp : KeyPair) :
    (s.writeKey k kp).choice = s.choice := by cases k <;> rfl

end Sys2Proof.Machine
end

