-- ==== Sys2Proof/Laws/Registers.lean ====
section
/-! SUPPORT. Read-after-write of the register files (spec 10_state.md R40 to R42, R50, R51) and of the words
of an operand register (20_memory.md R94, R98). -/

namespace Sys2Proof.Machine

/-! ### Operand registers -/

theorem State.op_writeOp (s : State) (i j : OpIdx) (v : Nat) :
    (s.writeOp i v).op j = if i = j then { valid := true, value := BitVec.ofNat 544 v } else s.op j := by
  simp only [State.op, State.writeOp_ops, Fin.getElem_fin, Vector.getElem_set, Fin.val_inj]

@[simp] theorem State.op_writeOp_self (s : State) (i : OpIdx) (v : Nat) :
    (s.writeOp i v).op i = { valid := true, value := BitVec.ofNat 544 v } := by
  simp [State.op_writeOp]

theorem State.op_writeOp_ne (s : State) {i j : OpIdx} (v : Nat) (h : i ≠ j) :
    (s.writeOp i v).op j = s.op j := by
  simp [State.op_writeOp, h]

/-- The value read back is the value written, for a value of at most 544 bits (R9 `zext_544`). -/
theorem State.opVal_writeOp_self (s : State) (i : OpIdx) {v : Nat} (h : v < 2 ^ 544) :
    (s.writeOp i v).opVal i = v := by
  rw [State.opVal, State.op_writeOp_self, BitVec.toNat_ofNat, Nat.mod_eq_of_lt h]

theorem State.opVal_writeOp_ne (s : State) {i j : OpIdx} (v : Nat) (h : i ≠ j) :
    (s.writeOp i v).opVal j = s.opVal j := by
  simp [State.opVal, State.op_writeOp_ne s v h]

theorem State.op_congr {s t : State} (h : t.ops = s.ops) (i : OpIdx) : t.op i = s.op i := by
  simp only [State.op, h]

theorem State.opVal_congr {s t : State} (h : t.ops = s.ops) (i : OpIdx) : t.opVal i = s.opVal i := by
  simp only [State.opVal, State.op, h]

/-- A value is always below 2^544 (R40). -/
theorem State.opVal_lt (s : State) (i : OpIdx) : s.opVal i < 2 ^ 544 := (s.op i).value.isLt

/-! ### Point registers -/

theorem State.pt_writePt (s : State) (i j : PtIdx) (P : Point) :
    (s.writePt i P).pt j = if i = j then .valid P else s.pt j := by
  simp only [State.pt, State.writePt_pts, Fin.getElem_fin, Vector.getElem_set, Fin.val_inj]

@[simp] theorem State.pt_writePt_self (s : State) (i : PtIdx) (P : Point) :
    (s.writePt i P).pt i = .valid P := by
  simp [State.pt_writePt]

theorem State.pt_writePt_ne (s : State) {i j : PtIdx} (P : Point) (h : i ≠ j) :
    (s.writePt i P).pt j = s.pt j := by
  simp [State.pt_writePt, h]

theorem State.pt_congr {s t : State} (h : t.pts = s.pts) (i : PtIdx) : t.pt i = s.pt i := by
  simp only [State.pt, h]

theorem State.ptVal_congr {s t : State} (h : t.pts = s.pts) (i : PtIdx) : t.ptVal i = s.ptVal i := by
  simp only [State.ptVal, State.pt, h]

theorem State.pt_of_map_toStale {s t : State} (h : t.pts = s.pts.map PtReg.toStale) (i : PtIdx) :
    t.pt i = (s.pt i).toStale := by
  simp only [State.pt, h, Fin.getElem_fin, Vector.getElem_map]

/-- A register that is VALID holds the value read. -/
theorem State.ptVal_of_valid {s : State} {i : PtIdx} {P : Point} (h : s.pt i = .valid P) :
    s.ptVal i = P := by
  simp [State.ptVal, h]

/-- A source is present and fresh exactly when its register is VALID. -/
theorem State.pt_valid_iff (s : State) (i : PtIdx) :
    (∃ P, s.pt i = .valid P) ↔ s.present (.pt i) = true ∧ s.fresh (.pt i) = true := by
  cases h : s.pt i <;> simp [State.present, State.fresh, h]

/-! ### Words of an operand register -/

theorem operandWord_getLsbD (v : Operand) (j : WordIdx) (b : Nat) :
    (operandWord v j).getLsbD b = (decide (b < 32) && v.getLsbD (32 * j.val + b)) := by
  simp [operandWord, BitVec.getLsbD_extractLsb']

theorem setOperandWord_getLsbD (v : Operand) (j : WordIdx) (w : Word) (b : Nat) :
    (setOperandWord v j w).getLsbD b =
      if 32 * j.val ≤ b ∧ b < 32 * j.val + 32 then w.getLsbD (b - 32 * j.val) else v.getLsbD b := by
  have hj := j.isLt
  simp only [setOperandWord, BitVec.getLsbD_or, BitVec.getLsbD_and, BitVec.getLsbD_not,
    BitVec.getLsbD_shiftLeft, BitVec.getLsbD_setWidth, BitVec.getLsbD_allOnes]
  by_cases h1 : 32 * j.val ≤ b
  · by_cases h2 : b < 32 * j.val + 32
    · have h3 : b - 32 * j.val < 32 := by omega
      have h4 : ¬ b < 32 * j.val := by omega
      have h5 : b - 32 * j.val < 544 := by omega
      have h6 : b < 544 := by omega
      simp only [h1, h2, h3, h4, h5, h6, and_self, if_true, decide_true, decide_false, Bool.not_true,
        Bool.not_false, Bool.and_true, Bool.true_and, Bool.and_false, Bool.false_or]
    · have h3 : ¬ b - 32 * j.val < 32 := by omega
      have h7 := BitVec.getLsbD_of_ge w (b - 32 * j.val) (by omega)
      by_cases hb : b < 544
      · simp only [h2, h3, h7, hb, and_false, if_false, decide_true, decide_false, Bool.and_false,
          Bool.not_false, Bool.and_true, Bool.or_false]
      · simp only [BitVec.getLsbD_of_ge v b (by omega), h2, h7, and_false, if_false, Bool.false_and,
          Bool.and_false, Bool.or_false]
  · have h4 : b < 32 * j.val := by omega
    have hb : b < 544 := by omega
    simp only [h1, h4, hb, false_and, if_false, decide_true, Bool.not_true, Bool.and_false,
      Bool.false_and, Bool.not_false, Bool.and_true, Bool.or_false]

/-- A word read after it is written is the word written (R98). -/
theorem operandWord_setOperandWord_self (v : Operand) (j : WordIdx) (w : Word) :
    operandWord (setOperandWord v j w) j = w := by
  apply BitVec.eq_of_getLsbD_eq
  intro b hb
  have h1 : 32 * j.val ≤ 32 * j.val + b ∧ 32 * j.val + b < 32 * j.val + 32 := by omega
  rw [operandWord_getLsbD, setOperandWord_getLsbD, if_pos h1, Nat.add_sub_cancel_left, decide_eq_true hb,
    Bool.true_and]

/-- Writing one word leaves every other word (R95, R98). -/
theorem operandWord_setOperandWord_ne (v : Operand) {i j : WordIdx} (w : Word) (h : i ≠ j) :
    operandWord (setOperandWord v i w) j = operandWord v j := by
  apply BitVec.eq_of_getLsbD_eq
  intro b hb
  have h2 : i.val ≠ j.val := fun e => h (Fin.ext e)
  have h3 : ¬ (32 * i.val ≤ 32 * j.val + b ∧ 32 * j.val + b < 32 * i.val + 32) := by omega
  rw [operandWord_getLsbD, operandWord_getLsbD, setOperandWord_getLsbD, if_neg h3]

end Sys2Proof.Machine
end

