-- ==== Sys2Proof/Laws/Completion.lean ====
section
/-! SUPPORT. How a meaning ends (spec 60_exceptions.md R422, R424): what the first failing check is, and all
that `finish`, `finishGroup` and `completeAny` can answer. -/

namespace Sys2Proof.Machine

/-! ### The first failing check -/

@[simp] theorem firstFailure_nil : firstFailure [] = none := rfl

theorem firstFailure_cons (b : Bool) (e : StatusCode) (rest : List Check) :
    firstFailure ((b, e) :: rest) = if b then firstFailure rest else some e := rfl

theorem firstFailure_append (xs ys : List Check) :
    firstFailure (xs ++ ys) = (firstFailure xs).or (firstFailure ys) := by
  induction xs with
  | nil => rfl
  | cons x xs ih =>
    obtain ⟨b, e⟩ := x
    cases b <;> simp [firstFailure_cons, ih]

theorem firstFailure_map {α : Type} (f : α → Bool) (e : StatusCode) (l : List α) :
    firstFailure (l.map fun x => (f x, e)) = if l.all f then none else some e := by
  induction l with
  | nil => rfl
  | cons x xs ih =>
    rw [List.map_cons, firstFailure_cons, ih, List.all_cons]
    cases f x <;> simp

/-- A failing check reports one of the listed codes. -/
theorem firstFailure_mem {cs : List Check} {e : StatusCode} (h : firstFailure cs = some e) :
    e ∈ cs.map Prod.snd := by
  induction cs with
  | nil => simp at h
  | cons c cs ih =>
    obtain ⟨b, e'⟩ := c
    rw [firstFailure_cons] at h
    cases b
    · simp at h; simp [h]
    · simp at h; simp [ih h]

theorem firstFailure_eq_none {cs : List Check} (h : ∀ c ∈ cs, c.1 = true) : firstFailure cs = none := by
  induction cs with
  | nil => rfl
  | cons c cs ih =>
    obtain ⟨b, e⟩ := c
    have hb : b = true := h _ (List.mem_cons_self ..)
    rw [firstFailure_cons, hb, if_pos rfl]
    exact ih fun c hc => h c (List.mem_cons_of_mem _ hc)

theorem all_of_firstFailure {cs : List Check} (h : firstFailure cs = none) : ∀ c ∈ cs, c.1 = true := by
  induction cs with
  | nil => simp
  | cons c cs ih =>
    obtain ⟨b, e⟩ := c
    rw [firstFailure_cons] at h
    cases b
    · simp at h
    · simp at h
      rintro c (_ | ⟨_, hc⟩)
      · rfl
      · exact ih h c hc

/-- Steps 2 and 3 of R424 in one value. -/
theorem firstFailure_common (s : State) (i : Instr) :
    firstFailure (s.commonChecks (sources i)) =
      if s.allPresent i then (if s.ready i then none else some .contextMismatch) else some .nullInput := by
  unfold State.commonChecks State.presenceChecks State.ready State.allPresent
  rw [firstFailure_append, firstFailure_append, firstFailure_map, firstFailure_map, firstFailure_cons,
    firstFailure_cons, firstFailure_nil]
  cases (sources i).all s.present <;> cases s.ctx.init <;> cases s.dom.set <;>
    cases (sources i).all s.fresh <;> rfl

/-! ### The end of a meaning -/

theorem State.finish_nil (s t : State) (v : Word) : s.finish [] t v = .next (t.completeOk v) := rfl

theorem State.finish_cons (s t : State) (v : Word) (b : Bool) (e : StatusCode) (rest : List Check) :
    s.finish ((b, e) :: rest) t v = if b then s.finish rest t v else .next (s.completeErr e) := by
  cases b <;> rfl

theorem State.finish_append (s t : State) (v : Word) (xs ys : List Check) :
    s.finish (xs ++ ys) t v =
      match firstFailure xs with
      | some e => .next (s.completeErr e)
      | none => s.finish ys t v := by
  unfold State.finish
  rw [firstFailure_append]
  cases firstFailure xs <;> rfl

/-- The common checks first, then the command's own. -/
theorem State.finish_common (s t : State) (v : Word) (i : Instr) (rest : List Check) :
    s.finish (s.commonChecks (sources i) ++ rest) t v =
      if s.allPresent i then
        (if s.ready i then s.finish rest t v else .next (s.completeErr .contextMismatch))
      else .next (s.completeErr .nullInput) := by
  rw [State.finish_append, firstFailure_common]
  cases s.allPresent i <;> cases s.ready i <;> rfl

theorem State.allPresent_of_ready {s : State} {i : Instr} (h : s.ready i = true) : s.allPresent i = true := by
  simp only [State.ready, Bool.and_eq_true] at h; exact h.1.1.1

/-- A meaning of this form makes the common checks first, and for a ready command goes on. -/
theorem commonFirst_of_finish {i : Instr} {s t : State} {v : Word} {rest : List Check}
    (h : exec i s = s.finish (s.commonChecks (sources i) ++ rest) t v) :
    CommonFirst i s ∧ (s.ready i = true → exec i s = s.finish rest t v) := by
  rw [State.finish_common] at h
  refine ⟨⟨fun h1 => by simp [h, h1], fun h1 h2 => by simp [h, h1, h2]⟩, fun hr => ?_⟩
  rw [h, if_pos (State.allPresent_of_ready hr), if_pos hr]

/-- All that `finish` can answer. -/
theorem State.finish_cases (s t : State) (v : Word) (cs : List Check) :
    (firstFailure cs = none ∧ s.finish cs t v = .next (t.completeOk v)) ∨
      ∃ e ∈ cs.map Prod.snd, firstFailure cs = some e ∧ s.finish cs t v = .next (s.completeErr e) := by
  unfold State.finish
  cases h : firstFailure cs with
  | none => exact .inl ⟨rfl, rfl⟩
  | some e => exact .inr ⟨e, firstFailure_mem h, rfl, rfl⟩

theorem State.finishGroup_of_not (s : State) (h : s.compositeP = false) (i : Instr) (any : State)
    (cs : List Check) (t : State) (v : Word) : s.finishGroup i any cs t v = s.finish cs t v := by
  simp [State.finishGroup, h]

theorem State.compositeP_of_prime {s : State} (h : s.dom.p.Prime) : s.compositeP = false := by
  simp [State.compositeP, primeModulus_of_prime h]

/-- A code drawn from a list is in the list. -/
theorem State.freeCode_mem (s : State) (c : StatusCode) (cs : List StatusCode) :
    s.freeCode (c :: cs) ∈ c :: cs := by
  unfold State.freeCode State.freeBelow
  have h : Config.freeNat s.choice 0 % (c :: cs).length < (c :: cs).length := Nat.mod_lt _ (by simp)
  rw [List.getD_eq_getElem _ _ h]
  exact List.getElem_mem h

/-- All that the end of a group-law command with a composite p can answer (R206). -/
theorem State.completeAny_cases (s t : State) (c : StatusCode) (cs : List StatusCode) :
    s.completeAny (c :: cs) t = t.close .ok (s.freeWord 1) ∨
      ∃ e ∈ c :: cs, e ≠ .ok ∧ s.completeAny (c :: cs) t = s.close e (s.freeWord 1) := by
  by_cases h : s.freeCode (c :: cs) = .ok
  · exact .inl (if_pos h)
  · exact .inr ⟨_, s.freeCode_mem c cs, h, if_neg h⟩

/-- All that `finishGroup` can answer. -/
theorem State.finishGroup_cases (s : State) (i : Instr) (any : State) (cs : List Check) (t : State)
    (v : Word) :
    (s.compositeP = false ∧ firstFailure cs = none ∧ s.finishGroup i any cs t v = .next (t.completeOk v)) ∨
    (s.compositeP = false ∧ ∃ e ∈ cs.map Prod.snd, firstFailure cs = some e ∧
      s.finishGroup i any cs t v = .next (s.completeErr e)) ∨
    (s.compositeP = true ∧ s.finishGroup i any cs t v = .next (any.close .ok (s.freeWord 1))) ∨
    (s.compositeP = true ∧ ∃ e ∈ .ok :: raises i, e ≠ .ok ∧
      s.finishGroup i any cs t v = .next (s.close e (s.freeWord 1))) := by
  by_cases hc : s.compositeP = true
  swap
  · rw [Bool.not_eq_true] at hc
    rw [s.finishGroup_of_not hc]
    rcases s.finish_cases t v cs with h | ⟨e, he, h1, h2⟩
    · exact .inl ⟨hc, h⟩
    · exact .inr (.inl ⟨hc, e, he, h1, h2⟩)
  · have hg : s.finishGroup i any cs t v = .next (s.completeAny (.ok :: raises i) any) := if_pos hc
    rw [hg]
    rcases s.completeAny_cases any .ok (raises i) with h | ⟨e, he, h1, h2⟩
    · exact .inr (.inr (.inl ⟨hc, by rw [h]⟩))
    · exact .inr (.inr (.inr ⟨hc, e, he, h1, by rw [h2]⟩))

end Sys2Proof.Machine
end

