-- ==== Sys2Proof/Laws/Curve.lean ====
section
/-! SUPPORT. The group law of spec 43_group_law.md seen in the field ZMod p, and its link to the group of
nonsingular points of a Weierstrass curve: for a prime p > 2 every on-curve point lies in an abelian group
on which `neg`, `dbl` and `add` are the group's own operations (R285). -/

namespace Sys2Proof.Machine

open WeierstrassCurve

/-! ### The operations in ZMod p -/

section field

variable {d : Domain} [Fact d.p.Prime]

theorem Domain.p_pos (d : Domain) [h : Fact d.p.Prime] : 0 < d.p := h.out.pos

theorem two_ne_zero_of_odd (hp : d.p ≠ 2) : (2 : ZMod d.p) ≠ 0 := by
  intro h
  have h2 : ((2 : Nat) : ZMod d.p) = 0 := by exact_mod_cast h
  exact hp ((Nat.prime_dvd_prime_iff_eq Fact.out Nat.prime_two).1 ((ZMod.natCast_eq_zero_iff 2 d.p).1 h2))

/-- ⊖P in the field (R278). -/
theorem Domain.neg_aff (d : Domain) [Fact d.p.Prime] (x y : Nat) :
    ∃ y', d.neg (.aff x y) = .aff x y' ∧ y' < d.p ∧ (y' : ZMod d.p) = -(y : ZMod d.p) := by
  refine ⟨_, rfl, residue_lt _ d.p_pos, ?_⟩
  rw [residue_cast _ d.p_pos]; simp

/-- dbl(P) in the field, for y ≠ 0 (R279). -/
theorem Domain.dbl_aff (d : Domain) [Fact d.p.Prime] (hp : d.p ≠ 2) {x y : Nat} (hy : y < d.p) (h0 : y ≠ 0) :
    ∃ x3 y3, d.dbl (.aff x y) = .aff x3 y3 ∧ x3 < d.p ∧ y3 < d.p ∧
      (x3 : ZMod d.p) = ((3 * (x : ZMod d.p) ^ 2 + d.a) / (2 * y)) ^ 2 - 2 * x ∧
      (y3 : ZMod d.p) = ((3 * (x : ZMod d.p) ^ 2 + d.a) / (2 * y)) * (x - x3) - y := by
  have hyz : (y : ZMod d.p) ≠ 0 := fun h => h0 ((cast_eq_zero_iff hy).1 h)
  have h2 : ((2 * y : Nat) : ZMod d.p) ≠ 0 := by
    push_cast; exact mul_ne_zero (two_ne_zero_of_odd hp) hyz
  have hl : (((3 * x * x + d.a) * invMod d.p (2 * y) % d.p : Nat) : ZMod d.p) =
      (3 * (x : ZMod d.p) ^ 2 + d.a) / (2 * y) := by
    rw [cast_natMod, Nat.cast_mul, invMod_cast_prime h2, div_eq_mul_inv]
    push_cast; ring
  generalize hL : (3 * x * x + d.a) * invMod d.p (2 * y) % d.p = L at hl
  refine ⟨_, _, by simp only [Domain.dbl, if_neg h0, hL]; rfl, residue_lt _ d.p_pos, residue_lt _ d.p_pos, ?_, ?_⟩
  · rw [residue_cast _ d.p_pos, ← hl]; push_cast; ring
  · rw [residue_cast _ d.p_pos, ← hl]; push_cast; rfl

/-- P ⊕ Q in the field, for different x (R281). -/
theorem Domain.add_aff (d : Domain) [Fact d.p.Prime] {x1 y1 x2 y2 : Nat} (h1 : x1 < d.p) (h2 : x2 < d.p)
    (hx : x1 ≠ x2) :
    ∃ x3 y3, d.add (.aff x1 y1) (.aff x2 y2) = .aff x3 y3 ∧ x3 < d.p ∧ y3 < d.p ∧
      (x3 : ZMod d.p) = (((y2 : ZMod d.p) - y1) / (x2 - x1)) ^ 2 - x1 - x2 ∧
      (y3 : ZMod d.p) = (((y2 : ZMod d.p) - y1) / (x2 - x1)) * (x1 - x3) - y1 := by
  have hr : ((residue ((x2 : Int) - x1) d.p : Nat) : ZMod d.p) = (x2 : ZMod d.p) - x1 := by
    rw [residue_cast _ d.p_pos]; push_cast; rfl
  have hne : ((residue ((x2 : Int) - x1) d.p : Nat) : ZMod d.p) ≠ 0 := by
    rw [hr, sub_ne_zero]
    exact fun h => hx (eq_of_cast_eq h1 h2 h.symm)
  have hl : ((residue (((y2 : Int) - y1) * invMod d.p (residue (x2 - x1) d.p)) d.p : Nat) : ZMod d.p) =
      ((y2 : ZMod d.p) - y1) / (x2 - x1) := by
    rw [residue_cast _ d.p_pos, Int.cast_mul, Int.cast_natCast, invMod_cast_prime hne, hr, div_eq_mul_inv]
    push_cast; rfl
  generalize hL : residue (((y2 : Int) - y1) * invMod d.p (residue (x2 - x1) d.p)) d.p = L at hl
  refine ⟨_, _, by simp only [Domain.add, if_neg hx, hL]; rfl, residue_lt _ d.p_pos, residue_lt _ d.p_pos, ?_, ?_⟩
  · rw [residue_cast _ d.p_pos, ← hl]; push_cast; ring
  · rw [residue_cast _ d.p_pos, ← hl]; push_cast; rfl

theorem Domain.onCurve_aff_iff (d : Domain) [Fact d.p.Prime] (x y : Nat) :
    d.onCurve (.aff x y) = true ↔ (y : ZMod d.p) ^ 2 = (x : ZMod d.p) ^ 3 + d.a * x + d.b := by
  simp only [Domain.onCurve, decide_eq_true_eq]
  rw [← Nat.ModEq, ← ZMod.natCast_eq_natCast_iff]
  push_cast
  constructor <;> intro h <;> linear_combination h

end field

/-! ### A group behind the operations -/

/-- `ρ P g` says that the point P stands for the element g of the group G. The fields say that the
operations of the spec are those of the group, and that an element has one point. -/
structure GroupModel (d : Domain) (G : Type) [AddCommGroup G] (ρ : Point → G → Prop) : Prop where
  inf : ρ .inf 0
  neg : ∀ {P g}, ρ P g → ρ (d.neg P) (-g)
  dbl : ∀ {P g}, ρ P g → ρ (d.dbl P) (g + g)
  add : ∀ {P g Q h}, ρ P g → ρ Q h → ρ (d.add P Q) (g + h)
  unique : ∀ {P Q g}, ρ P g → ρ Q g → P = Q
  onCurve : ∀ {P g}, ρ P g → d.onCurve P = true ∧ P.below d.p

/-- The multiples of R12 are the group's multiples. -/
theorem GroupModel.mulRef {d : Domain} {G : Type} [AddCommGroup G] {ρ : Point → G → Prop}
    (M : GroupModel d G ρ) {P : Point} {g : G} (h : ρ P g) : ∀ k : Nat, ρ (d.mulRef k P) (k • g)
  | 0 => by rw [zero_nsmul]; exact M.inf
  | k + 1 => by rw [succ_nsmul]; exact M.add (M.mulRef h k) h

/-- The Weierstrass curve of a domain. -/
def Domain.curve (d : Domain) : WeierstrassCurve.Affine (ZMod d.p) where
  a₁ := 0
  a₂ := 0
  a₃ := 0
  a₄ := d.a
  a₆ := d.b

/-- A point of the spec and a nonsingular point of the curve with the same coordinates. -/
def Domain.Rep (d : Domain) [Fact d.p.Prime] : Point → d.curve.Point → Prop
  | .inf, Q => Q = 0
  | .aff x y, Q => x < d.p ∧ y < d.p ∧ ∃ h : d.curve.Nonsingular (x : ZMod d.p) (y : ZMod d.p), Q = .some _ _ h

section rep

variable (d : Domain) [Fact d.p.Prime]

theorem Domain.nonsingular_iff (x y : ZMod d.p) :
    d.curve.Nonsingular x y ↔ y ^ 2 = x ^ 3 + d.a * x + d.b ∧ (3 * x ^ 2 + d.a ≠ 0 ∨ 2 * y ≠ 0) := by
  rw [Affine.nonsingular_iff', Affine.equation_iff]
  simp only [Domain.curve]
  constructor
  · rintro ⟨h1, h2⟩
    refine ⟨by linear_combination h1, h2.imp (fun h e => h ?_) (fun h e => h ?_)⟩
    · linear_combination -e
    · linear_combination e
  · rintro ⟨h1, h2⟩
    refine ⟨by linear_combination h1, h2.imp (fun h e => h ?_) (fun h e => h ?_)⟩
    · linear_combination -e
    · linear_combination e

theorem Domain.Rep.neg {P : Point} {Q : d.curve.Point} (h : d.Rep P Q) : d.Rep (d.neg P) (-Q) := by
  cases P with
  | inf => simp only [Domain.Rep] at h; subst h; simp [Domain.neg, Domain.Rep]
  | aff x y =>
    obtain ⟨hx, hy, hn, rfl⟩ := h
    obtain ⟨y', he, hy', hc⟩ := d.neg_aff x y
    have hneg : d.curve.negY (x : ZMod d.p) (y : ZMod d.p) = (y' : ZMod d.p) := by
      rw [hc]; simp [Affine.negY, Domain.curve]
    rw [he]
    refine ⟨hx, hy', ?_, ?_⟩
    · rw [← hneg]; exact (Affine.nonsingular_neg _ _).2 hn
    · rw [Affine.Point.neg_some]; simp only [hneg]

theorem Domain.Rep.dbl (hp : d.p ≠ 2) {P : Point} {Q : d.curve.Point} (h : d.Rep P Q) :
    d.Rep (d.dbl P) (Q + Q) := by
  cases P with
  | inf => simp only [Domain.Rep] at h; subst h; simp [Domain.dbl, Domain.Rep]
  | aff x y =>
    obtain ⟨hx, hy, hn, rfl⟩ := h
    have hnegY : d.curve.negY (x : ZMod d.p) (y : ZMod d.p) = -(y : ZMod d.p) := by
      simp [Affine.negY, Domain.curve]
    by_cases h0 : y = 0
    · subst h0
      rw [Affine.Point.add_self_of_Y_eq (by rw [hnegY]; simp)]
      simp [Domain.dbl, Domain.Rep]
    · have hyz : (y : ZMod d.p) ≠ 0 := fun e => h0 ((cast_eq_zero_iff hy).1 e)
      have h2 := two_ne_zero_of_odd (d := d) hp
      have hne : (y : ZMod d.p) ≠ d.curve.negY (x : ZMod d.p) (y : ZMod d.p) := by
        rw [hnegY]
        intro e
        have : 2 * (y : ZMod d.p) = 0 := by linear_combination e
        exact (mul_ne_zero h2 hyz) this
      obtain ⟨x3, y3, he, hx3, hy3, hcx, hcy⟩ := d.dbl_aff hp (x := x) hy h0
      have hslope : d.curve.slope (x : ZMod d.p) x y y = (3 * (x : ZMod d.p) ^ 2 + d.a) / (2 * y) := by
        rw [Affine.slope_of_Y_ne rfl hne, hnegY]
        simp only [Domain.curve]
        congr 1 <;> ring
      rw [he, Affine.Point.add_self_of_Y_ne hne]
      have e1 : d.curve.addX (x : ZMod d.p) x (d.curve.slope (x : ZMod d.p) x y y) = (x3 : ZMod d.p) := by
        rw [hslope, hcx]; simp only [Affine.addX, Domain.curve]; ring
      have e2 : d.curve.addY (x : ZMod d.p) x y (d.curve.slope (x : ZMod d.p) x y y) = (y3 : ZMod d.p) := by
        rw [Affine.addY, Affine.negAddY, e1, hcy, hslope]; simp only [Affine.negY, Domain.curve]; ring
      have hns := Affine.nonsingular_add hn hn (fun e => hne e.2)
      rw [e1, e2] at hns
      exact ⟨hx3, hy3, hns, by simp only [e1, e2]⟩

theorem Domain.Rep.add (hp : d.p ≠ 2) {P P' : Point} {Q Q' : d.curve.Point} (h : d.Rep P Q)
    (h' : d.Rep P' Q') : d.Rep (d.add P P') (Q + Q') := by
  cases P with
  | inf => simp only [Domain.Rep] at h; subst h; simpa [Domain.add] using h'
  | aff x1 y1 =>
    cases P' with
    | inf => simp only [Domain.Rep] at h'; subst h'; simpa [Domain.add] using h
    | aff x2 y2 =>
      by_cases hx : x1 = x2
      · by_cases hy : y1 = y2
        · subst hx hy
          have hq : Q' = Q := by
            obtain ⟨_, _, _, rfl⟩ := h
            obtain ⟨_, _, _, rfl⟩ := h'
            rfl
          subst hq
          simpa [Domain.add] using h.dbl d hp
        · subst hx
          obtain ⟨hx1, hy1, hn1, rfl⟩ := h
          obtain ⟨_, hy2, hn2, rfl⟩ := h'
          have hyne : (y1 : ZMod d.p) ≠ (y2 : ZMod d.p) := fun e => hy (eq_of_cast_eq hy1 hy2 e)
          have hneg : (y1 : ZMod d.p) = d.curve.negY (x1 : ZMod d.p) (y2 : ZMod d.p) :=
            (Affine.Y_eq_of_X_eq hn1.1 hn2.1 rfl).resolve_left hyne
          rw [Affine.Point.add_of_Y_eq rfl hneg]
          simp [Domain.add, Domain.Rep, hy]
      · obtain ⟨hx1, hy1, hn1, rfl⟩ := h
        obtain ⟨hx2, hy2, hn2, rfl⟩ := h'
        have hxz : (x1 : ZMod d.p) ≠ (x2 : ZMod d.p) := fun e => hx (eq_of_cast_eq hx1 hx2 e)
        obtain ⟨x3, y3, he, hx3, hy3, hcx, hcy⟩ := d.add_aff (y1 := y1) (y2 := y2) hx1 hx2 hx
        have hslope : d.curve.slope (x1 : ZMod d.p) x2 y1 y2 = ((y2 : ZMod d.p) - y1) / (x2 - x1) := by
          rw [Affine.slope_of_X_ne hxz, ← neg_sub (y2 : ZMod d.p), ← neg_sub (x2 : ZMod d.p), neg_div_neg_eq]
        rw [he, Affine.Point.add_of_X_ne hxz]
        have e1 : d.curve.addX (x1 : ZMod d.p) x2 (d.curve.slope (x1 : ZMod d.p) x2 y1 y2) = (x3 : ZMod d.p) := by
          rw [hslope, hcx]; simp only [Affine.addX, Domain.curve]; ring
        have e2 : d.curve.addY (x1 : ZMod d.p) x2 y1 (d.curve.slope (x1 : ZMod d.p) x2 y1 y2) =
            (y3 : ZMod d.p) := by
          rw [Affine.addY, Affine.negAddY, e1, hcy, hslope]; simp only [Affine.negY, Domain.curve]; ring
        have hns := Affine.nonsingular_add hn1 hn2 (fun e => hxz e.1)
        rw [e1, e2] at hns
        exact ⟨hx3, hy3, hns, by simp only [e1, e2]⟩

theorem Domain.Rep.unique {P P' : Point} {Q : d.curve.Point} (h : d.Rep P Q) (h' : d.Rep P' Q) : P = P' := by
  cases P with
  | inf =>
    cases P' with
    | inf => rfl
    | aff x y =>
      simp only [Domain.Rep] at h; subst h
      obtain ⟨_, _, hn, e⟩ := h'
      exact absurd e.symm (Affine.Point.some_ne_zero hn)
  | aff x y =>
    obtain ⟨hx, hy, hn, rfl⟩ := h
    cases P' with
    | inf => exact absurd h' (Affine.Point.some_ne_zero hn)
    | aff x' y' =>
      obtain ⟨hx', hy', hn', e⟩ := h'
      injection e with e1 e2
      rw [eq_of_cast_eq hx hx' e1, eq_of_cast_eq hy hy' e2]

theorem Domain.Rep.onCurve {P : Point} {Q : d.curve.Point} (h : d.Rep P Q) :
    d.onCurve P = true ∧ P.below d.p := by
  cases P with
  | inf => exact ⟨rfl, trivial⟩
  | aff x y =>
    obtain ⟨hx, hy, hn, -⟩ := h
    exact ⟨(d.onCurve_aff_iff x y).2 ((d.nonsingular_iff _ _).1 hn).1, hx, hy⟩

/-- The nonsingular points of the curve. -/
theorem Domain.curveModel (hp : d.p ≠ 2) : GroupModel d d.curve.Point d.Rep where
  inf := rfl
  neg h := h.neg d
  dbl h := h.dbl d hp
  add h h' := h.add d hp h'
  unique h h' := h.unique d h'
  onCurve h := h.onCurve d

/-- A singular point S with INF: a group of two elements. -/
theorem Domain.singularModel (x : Nat) (hx : x < d.p) (hc : d.onCurve (.aff x 0) = true) :
    GroupModel d (ZMod 2) (fun P g => (P = .inf ∧ g = 0) ∨ (P = .aff x 0 ∧ g = 1)) where
  inf := .inl ⟨rfl, rfl⟩
  neg := by
    rintro P g (⟨rfl, rfl⟩ | ⟨rfl, rfl⟩)
    · exact .inl ⟨rfl, rfl⟩
    · exact .inr ⟨by simp [Domain.neg, residue], rfl⟩
  dbl := by
    rintro P g (⟨rfl, rfl⟩ | ⟨rfl, rfl⟩)
    · exact .inl ⟨rfl, rfl⟩
    · exact .inl ⟨by simp [Domain.dbl], rfl⟩
  add := by
    rintro P g Q h (⟨rfl, rfl⟩ | ⟨rfl, rfl⟩) (⟨rfl, rfl⟩ | ⟨rfl, rfl⟩)
    · exact .inl ⟨rfl, rfl⟩
    · exact .inr ⟨rfl, rfl⟩
    · exact .inr ⟨rfl, rfl⟩
    · exact .inl ⟨by simp [Domain.add, Domain.dbl], rfl⟩
  unique := by
    rintro P Q g (⟨rfl, rfl⟩ | ⟨rfl, rfl⟩) (⟨rfl, h⟩ | ⟨rfl, h⟩)
    · rfl
    · exact absurd h (by decide)
    · exact absurd h (by decide)
    · rfl
  onCurve := by
    rintro P g (⟨rfl, -⟩ | ⟨rfl, -⟩)
    · exact ⟨rfl, trivial⟩
    · exact ⟨hc, hx, d.p_pos⟩

/-- Every on-curve point lies in a group on which the spec's operations are the group's (R285). -/
theorem Domain.exists_groupModel (hp : d.p ≠ 2) {P : Point} (hb : P.below d.p) (hc : d.onCurve P = true) :
    ∃ (G : Type) (_ : AddCommGroup G) (ρ : Point → G → Prop) (g : G), GroupModel d G ρ ∧ ρ P g := by
  cases P with
  | inf => exact ⟨_, inferInstance, d.Rep, 0, d.curveModel hp, rfl⟩
  | aff x y =>
    by_cases hn : d.curve.Nonsingular (x : ZMod d.p) (y : ZMod d.p)
    · exact ⟨_, inferInstance, d.Rep, .some _ _ hn, d.curveModel hp, hb.1, hb.2, hn, rfl⟩
    · have h := (d.onCurve_aff_iff x y).1 hc
      have hy : y = 0 := by
        by_contra hy
        refine hn ((d.nonsingular_iff _ _).2 ⟨h, .inr ?_⟩)
        exact mul_ne_zero (two_ne_zero_of_odd hp) fun e => hy ((cast_eq_zero_iff hb.2).1 e)
      subst hy
      exact ⟨ZMod 2, inferInstance, _, 1, d.singularModel x hb.1 hc, .inr ⟨rfl, rfl⟩⟩

/-- On a curve that is not singular every on-curve point is a point of the one group. -/
theorem Domain.exists_rep (hp : d.p ≠ 2) (hs : (4 * d.a ^ 3 + 27 * d.b ^ 2) % d.p ≠ 0) {P : Point}
    (hb : P.below d.p) (hc : d.onCurve P = true) : ∃ Q, d.Rep P Q := by
  cases P with
  | inf => exact ⟨0, rfl⟩
  | aff x y =>
    refine ⟨.some _ _ ((d.nonsingular_iff _ _).2 ⟨(d.onCurve_aff_iff x y).1 hc, ?_⟩), hb.1, hb.2, _, rfl⟩
    by_contra hn
    rw [not_or, not_not, not_not] at hn
    have h := (d.onCurve_aff_iff x y).1 hc
    have hy : (y : ZMod d.p) = 0 := (mul_eq_zero.1 hn.2).resolve_left (two_ne_zero_of_odd hp)
    rw [hy] at h
    refine hs (Nat.mod_eq_zero_of_dvd ((ZMod.natCast_eq_zero_iff _ d.p).1 ?_))
    have ha : (d.a : ZMod d.p) = -(3 * (x : ZMod d.p) ^ 2) := by linear_combination hn.1
    have hbb : (d.b : ZMod d.p) = 2 * (x : ZMod d.p) ^ 3 := by rw [ha] at h; linear_combination -h
    push_cast
    rw [ha, hbb]; ring

end rep

end Sys2Proof.Machine
end

