-- ==== Sys2Proof/Laws/Datapath.lean ====
section
/-! SUPPORT. The working registers of the single-scalar algorithms (spec 44_scalar_mul.md R323, R325): what a
register holds after each step, and which step the list of operations gains. -/

namespace Sys2Proof.Machine

/-- Read after write. -/
@[simp] theorem readReg_writeReg (f : WorkFile) (r r' : WorkReg) (P : Point) :
    readReg (writeReg f r P) r' = if r = r' then P else readReg f r' := by
  induction f with
  | nil => rfl
  | cons e f ih =>
    obtain ⟨q, Q⟩ := e
    simp only [writeReg]
    by_cases hq : q = r
    · subst hq
      simp only [if_pos, readReg]
      split <;> rfl
    · simp only [if_neg hq, readReg, ih]
      split
      · next h => subst h; rw [if_neg (Ne.symm hq)]
      · rfl

namespace Datapath

variable (d : Domain) (t : Datapath)

@[simp] theorem get_load (r r' : WorkReg) (P : Point) :
    (t.load r P).get r' = if r = r' then P else t.get r' := readReg_writeReg ..
@[simp] theorem ops_load (r : WorkReg) (P : Point) : (t.load r P).ops = t.ops := rfl

@[simp] theorem get_dbl (dst a r : WorkReg) :
    (t.dbl d dst a).get r = if dst = r then d.dbl (t.get a) else t.get r := readReg_writeReg ..
@[simp] theorem ops_dbl (dst a : WorkReg) : (t.dbl d dst a).ops = t.ops ++ [.dbl dst a] := rfl

@[simp] theorem get_add (dst a b r : WorkReg) :
    (t.add d dst a b).get r = if dst = r then d.add (t.get a) (t.get b) else t.get r := readReg_writeReg ..
@[simp] theorem ops_add (dst a b : WorkReg) : (t.add d dst a b).ops = t.ops ++ [.add dst a b] := rfl

@[simp] theorem get_scan (dst r : WorkReg) (n digit : Nat) :
    (t.scan dst n digit).get r = if dst = r then Machine.scan t.file n digit else t.get r := readReg_writeReg ..
@[simp] theorem ops_scan (dst : WorkReg) (n digit : Nat) :
    (t.scan dst n digit).ops = t.ops ++ [.scan dst n] := rfl

/-- Doublings in place touch their register only. -/
theorem get_dblTimes_ne {r r' : WorkReg} (h : r ≠ r') : ∀ (n : Nat) (t : Datapath),
    (t.dblTimes d r n).get r' = t.get r'
  | 0, _ => rfl
  | n + 1, t => by rw [dblTimes, get_dblTimes_ne h n, get_dbl, if_neg h]

@[simp] theorem ops_dblTimes (r : WorkReg) : ∀ (n : Nat) (t : Datapath),
    (t.dblTimes d r n).ops = t.ops ++ List.replicate n (.dbl r r)
  | 0, _ => by simp [dblTimes]
  | n + 1, t => by rw [dblTimes, ops_dblTimes r n, ops_dbl, List.replicate_succ]; simp

end Datapath

/-- The scan keeps the entry of its digit (R327). -/
theorem scan_eq (f : WorkFile) (digit : Nat) : ∀ n, scan f n digit =
    if 1 ≤ digit ∧ digit ≤ n then readReg f (.tbl digit) else .inf
  | 0 => by rw [if_neg (by omega)]; rfl
  | n + 1 => by
    have ih := scan_eq f digit n
    unfold scan at ih ⊢
    rw [List.range_succ, List.foldl_append, ih, List.foldl_cons, List.foldl_nil]
    by_cases h : n + 1 = digit
    · subst h; rw [if_pos rfl, if_pos (by omega)]
    · rw [if_neg h]
      by_cases h2 : 1 ≤ digit ∧ digit ≤ n
      · rw [if_pos h2, if_pos (by omega)]
      · rw [if_neg h2, if_neg (by omega)]

end Sys2Proof.Machine
end

