-- ==== Sys2Proof/Laws/Encoding.lean ====
section
/-! SUPPORT. The fields of an encoded word (spec 30_encoding.md R131, R132): what each extractor of the
decoder reads from a packed word, and how a mask acts on it field by field. -/

namespace Sys2Proof

/-- Concatenation as a number: the left part is the high one (00_scope.md R8). -/
theorem append_toNat {m n : Nat} (x : BitVec m) (y : BitVec n) :
    (x ++ y).toNat = x.toNat * 2 ^ n + y.toNat := by
  rw [BitVec.toNat_append, ← Nat.shiftLeft_add_eq_or_of_lt y.isLt, Nat.shiftLeft_eq]

section packR

variable (fl rc rb ra re rd : BitVec 4) (opc : BitVec 8)

theorem packR_toNat : (packR fl rc rb ra re rd opc).toNat =
    fl.toNat * 2 ^ 28 + rc.toNat * 2 ^ 24 + rb.toNat * 2 ^ 20 + ra.toNat * 2 ^ 16 + re.toNat * 2 ^ 12 +
      rd.toNat * 2 ^ 8 + opc.toNat := by
  simp only [packR, append_toNat]
  omega

@[simp] theorem opcField_packR : opcField (packR fl rc rb ra re rd opc) = opc := by
  apply BitVec.eq_of_toNat_eq
  rw [opcField, BitVec.extractLsb'_toNat, packR_toNat, Nat.shiftRight_eq_div_pow]
  omega

@[simp] theorem rdField_packR : rdField (packR fl rc rb ra re rd opc) = rd := by
  apply BitVec.eq_of_toNat_eq
  rw [rdField, BitVec.extractLsb'_toNat, packR_toNat, Nat.shiftRight_eq_div_pow]
  omega

@[simp] theorem reField_packR : reField (packR fl rc rb ra re rd opc) = re := by
  apply BitVec.eq_of_toNat_eq
  rw [reField, BitVec.extractLsb'_toNat, packR_toNat, Nat.shiftRight_eq_div_pow]
  omega

@[simp] theorem raField_packR : raField (packR fl rc rb ra re rd opc) = ra := by
  apply BitVec.eq_of_toNat_eq
  rw [raField, BitVec.extractLsb'_toNat, packR_toNat, Nat.shiftRight_eq_div_pow]
  omega

@[simp] theorem rbField_packR : rbField (packR fl rc rb ra re rd opc) = rb := by
  apply BitVec.eq_of_toNat_eq
  rw [rbField, BitVec.extractLsb'_toNat, packR_toNat, Nat.shiftRight_eq_div_pow]
  omega

@[simp] theorem rcField_packR : rcField (packR fl rc rb ra re rd opc) = rc := by
  apply BitVec.eq_of_toNat_eq
  rw [rcField, BitVec.extractLsb'_toNat, packR_toNat, Nat.shiftRight_eq_div_pow]
  omega

@[simp] theorem flField_packR : flField (packR fl rc rb ra re rd opc) = fl := by
  apply BitVec.eq_of_toNat_eq
  rw [flField, BitVec.extractLsb'_toNat, packR_toNat, Nat.shiftRight_eq_div_pow]
  omega

@[simp] theorem flBit_packR (i : Nat) : flBit (packR fl rc rb ra re rd opc) i = fl.getLsbD i := by
  rw [flBit, flField_packR]

/-- A mask acts on a packed word field by field. -/
theorem packR_and (fl' rc' rb' ra' re' rd' : BitVec 4) (opc' : BitVec 8) :
    packR fl rc rb ra re rd opc &&& packR fl' rc' rb' ra' re' rd' opc' =
      packR (fl &&& fl') (rc &&& rc') (rb &&& rb') (ra &&& ra') (re &&& re') (rd &&& rd') (opc &&& opc') := by
  unfold packR
  rw [← BitVec.and_append, ← BitVec.and_append, ← BitVec.and_append, ← BitVec.and_append,
    ← BitVec.and_append, ← BitVec.and_append]

/-- Every word is the packing of its fields. -/
theorem packR_fields (v : Word) : packR (flField v) (rcField v) (rbField v) (raField v) (reField v)
    (rdField v) (opcField v) = v := by
  apply BitVec.eq_of_toNat_eq
  rw [packR_toNat]
  simp only [flField, rcField, rbField, raField, reField, rdField, opcField, BitVec.extractLsb'_toNat,
    Nat.shiftRight_eq_div_pow]
  have := v.isLt
  omega

end packR

/-- Format I as format R: the immediate lies in the four high fields (R131, R132). -/
theorem packI_eq_packR (imm : BitVec 16) (opc : BitVec 8) :
    packI imm opc = packR (imm.extractLsb' 12 4) (imm.extractLsb' 8 4) (imm.extractLsb' 4 4)
      (imm.extractLsb' 0 4) 0 0 opc := by
  apply BitVec.eq_of_toNat_eq
  have := imm.isLt
  simp only [packR_toNat, packI, append_toNat, BitVec.extractLsb'_toNat, Nat.shiftRight_eq_div_pow,
    BitVec.ofNat_eq_ofNat, BitVec.toNat_ofNat]
  omega

/-! ### Register numbers and flags as fields -/

@[simp] theorem opOf_opBits (i : OpIdx) : opOf (opBits i) = i := rfl

@[simp] theorem opBits_opOf (f : BitVec 4) : opBits (opOf f) = f := rfl

@[simp] theorem ptBits_toNat (i : PtIdx) : (ptBits i).toNat = i.val := by
  have := i.isLt
  simp only [ptBits, BitVec.toNat_ofNat]
  omega

@[simp] theorem ptOf_ptBits (i : PtIdx) : ptOf (ptBits i) = .ok i := by
  have := i.isLt
  unfold ptOf
  rw [dif_pos (by rw [ptBits_toNat]; exact this)]
  simp only [ptBits_toNat]

theorem ptOf_eq_ok {f : BitVec 4} {i : PtIdx} (h : ptOf f = .ok i) : ptBits i = f := by
  unfold ptOf at h
  split at h
  · next hf =>
    injection h with h
    subst h
    apply BitVec.eq_of_toNat_eq
    rw [ptBits_toNat]
  · cases h

@[simp] theorem optOpOf_optOpBits (o : Option OpIdx) : optOpOf o.isSome (optOpBits o) = .ok o := by
  cases o <;> rfl

@[simp] theorem optPtOf_optPtBits (o : Option PtIdx) : optPtOf o.isSome (optPtBits o) = .ok o := by
  cases o
  · rfl
  · simp [optPtOf, optPtBits, Except.map]

@[simp] theorem flagBits_getLsbD (f2 f1 f0 : Bool) :
    (flagBits f2 f1 f0).getLsbD 0 = f0 ∧ (flagBits f2 f1 f0).getLsbD 1 = f1 ∧
      (flagBits f2 f1 f0).getLsbD 2 = f2 := by
  cases f2 <;> cases f1 <;> cases f0 <;> decide

@[simp] theorem engineOf_engineBits (e : EngineSel) : engineOf ((engineBits e).getLsbD 0) = e := by
  cases e <;> rfl

theorem opBits_injective {i j : OpIdx} (h : opBits i = opBits j) : i = j := by
  have := congrArg opOf h
  simpa using this

end Sys2Proof
end

