-- ==== Sys2Proof/Laws/Exec.lean ====
section
/-! SUPPORT. Once for all commands: what `exec` can answer (spec 60_exceptions.md R422). An error drops every
staged write, an OK commits writes that stay within the command's frame, and GEN_KEYPAIR may wait. -/

namespace Sys2Proof.Machine

/-- The staged state `u` of a command `i` started in `s` differs from `s` only where the command writes
(30_encoding.md R138, 10_state.md R51 to R55). -/
structure Staged (i : Instr) (s u : State) : Prop where
  same : u = { s with
    ops := u.ops, pts := u.pts, keyReg := u.keyReg, keyEph := u.keyEph, ctx := u.ctx, dom := u.dom }
  ops : ∀ j, j ∉ destOps i → u.op j = s.op j
  pts : changesContext i = false → ∀ j, j ∉ destPts i → u.pt j = s.pt j
  stale : changesContext i = true → ∀ j, u.pt j = s.pt j ∨ u.pt j = (s.pt j).toStale
  keyReg : changesContext i = false → (∀ p q, i ≠ .setKeypair .reg p q) → u.keyReg = s.keyReg
  keyEph : changesContext i = false → (∀ p q, i ≠ .setKeypair .eph p q) → u.keyEph = s.keyEph
  ctx : (∀ p f, i ≠ .init p f) → u.ctx = s.ctx
  dom : changesContext i = false → u.dom = s.dom

theorem Staged.refl (i : Instr) (s : State) : Staged i s s :=
  ⟨rfl, fun _ _ => rfl, fun _ _ _ => rfl, fun _ _ => .inl rfl, fun _ _ => rfl, fun _ _ => rfl, fun _ => rfl,
    fun _ => rfl⟩

theorem Staged.writeOp {i : Instr} {s u : State} (h : Staged i s u) {rd : OpIdx} (hd : rd ∈ destOps i)
    (v : Nat) : Staged i s (u.writeOp rd v) where
  same := by conv_lhs => rw [h.same]
             rfl
  ops j hj := by
    have hne : rd ≠ j := fun e => hj (e ▸ hd)
    rw [State.op_writeOp_ne _ _ hne, h.ops j hj]
  pts hc j hj := by rw [State.pt_congr (State.writeOp_pts u rd v)]; exact h.pts hc j hj
  stale hc j := by rw [State.pt_congr (State.writeOp_pts u rd v)]; exact h.stale hc j
  keyReg := h.keyReg
  keyEph := h.keyEph
  ctx := h.ctx
  dom := h.dom

theorem Staged.writePt {i : Instr} {s u : State} (h : Staged i s u) {rd : PtIdx} (hd : rd ∈ destPts i)
    (hc : changesContext i = false) (P : Point) : Staged i s (u.writePt rd P) where
  same := by conv_lhs => rw [h.same]
             rfl
  ops j hj := by rw [State.op_congr (State.writePt_ops u rd P)]; exact h.ops j hj
  pts hc j hj := by
    have hne : rd ≠ j := fun e => hj (e ▸ hd)
    rw [State.pt_writePt_ne _ _ hne, h.pts hc j hj]
  stale hc' := by rw [hc] at hc'; cases hc'
  keyReg := h.keyReg
  keyEph := h.keyEph
  ctx := h.ctx
  dom := h.dom

/-- All that one move of a command can answer. -/
def Answers (i : Instr) (s : State) (o : StepResult) : Prop :=
  (∃ u v, Staged i s u ∧ o = .next (u.close .ok v)) ∨
  (∃ e v, e ∈ raises i ∧ e ≠ .ok ∧ (s.compositeP = false → v = errorResult) ∧ o = .next (s.close e v)) ∨
  ((∃ rd re, i = .genKeypair rd re) ∧
    (o = .next { s with rngReq := true } ∨ o = .next { s with rngReq := true, drawn := [] }))

theorem ok_not_mem_raises (i : Instr) : StatusCode.ok ∉ raises i := by cases i <;> simp [raises]

theorem answers_finish {i : Instr} {s t : State} {cs : List Check} {v : Word}
    (hc : ∀ e ∈ cs.map Prod.snd, e ∈ raises i) (ht : Staged i s t) : Answers i s (s.finish cs t v) := by
  rcases s.finish_cases t v cs with ⟨-, h⟩ | ⟨e, he, -, h⟩
  · exact .inl ⟨t, v, ht, h⟩
  · exact .inr (.inl ⟨e, errorResult, hc e he, fun h' => ok_not_mem_raises i (h' ▸ hc e he), fun _ => rfl, h⟩)

theorem answers_finishGroup {i : Instr} {s t any : State} {cs : List Check} {v : Word}
    (hc : ∀ e ∈ cs.map Prod.snd, e ∈ raises i) (ht : Staged i s t) (ha : Staged i s any) :
    Answers i s (s.finishGroup i any cs t v) := by
  rcases s.finishGroup_cases i any cs t v with ⟨-, -, h⟩ | ⟨-, e, he, -, h⟩ | ⟨-, h⟩ | ⟨hp, e, he, h0, h⟩
  · exact .inl ⟨t, v, ht, h⟩
  · exact .inr (.inl ⟨e, errorResult, hc e he, fun h' => ok_not_mem_raises i (h' ▸ hc e he), fun _ => rfl, h⟩)
  · exact .inl ⟨any, _, ha, h⟩
  · refine .inr (.inl ⟨e, _, ?_, h0, fun h' => by simp [hp] at h', h⟩)
    rcases List.mem_cons.1 he with h1 | h1
    · exact absurd h1 h0
    · exact h1

/-! ### The codes of the checks -/

theorem codes_append {xs ys : List Check} {L : List StatusCode} (h1 : ∀ e ∈ xs.map Prod.snd, e ∈ L)
    (h2 : ∀ e ∈ ys.map Prod.snd, e ∈ L) : ∀ e ∈ (xs ++ ys).map Prod.snd, e ∈ L := by
  intro e he
  rw [List.map_append, List.mem_append] at he
  exact he.elim (h1 e) (h2 e)

theorem codes_map {α : Type} {f : α → Bool} {c : StatusCode} {l : List α} {L : List StatusCode} (h : c ∈ L) :
    ∀ e ∈ (l.map fun x => (f x, c)).map Prod.snd, e ∈ L := by
  intro e he
  simp only [List.map_map, List.mem_map, Function.comp] at he
  obtain ⟨_, _, rfl⟩ := he
  exact h

theorem codes_nil {L : List StatusCode} : ∀ e ∈ ([] : List Check).map Prod.snd, e ∈ L := by simp

theorem codes_cons {b : Bool} {c : StatusCode} {cs : List Check} {L : List StatusCode} (h : c ∈ L)
    (h2 : ∀ e ∈ cs.map Prod.snd, e ∈ L) : ∀ e ∈ ((b, c) :: cs).map Prod.snd, e ∈ L := by
  intro e he
  rcases List.mem_cons.1 he with h1 | h1
  · exact h1 ▸ h
  · exact h2 e h1

theorem codes_presence {s : State} {srcs : List Src} {L : List StatusCode} (h : .nullInput ∈ L) :
    ∀ e ∈ (s.presenceChecks srcs).map Prod.snd, e ∈ L := codes_map h

theorem codes_common {s : State} {srcs : List Src} {L : List StatusCode} (h1 : .nullInput ∈ L)
    (h2 : .contextMismatch ∈ L) : ∀ e ∈ (s.commonChecks srcs).map Prod.snd, e ∈ L :=
  codes_append (codes_append (codes_presence h1) (codes_cons h2 (codes_cons h2 codes_nil))) (codes_map h2)

/-- The common checks of a command without a source can only fail with ContextMismatch. -/
theorem codes_common_nil {s : State} {L : List StatusCode} (h : .contextMismatch ∈ L) :
    ∀ e ∈ (s.commonChecks []).map Prod.snd, e ∈ L :=
  codes_append (codes_append codes_nil (codes_cons h (codes_cons h codes_nil))) codes_nil

theorem codes_domain {n : Nat} {t : CurveTuple} {L : List StatusCode} (h : .rangeError ∈ L) :
    ∀ e ∈ (domainChecks n t).map Prod.snd, e ∈ L :=
  codes_cons h (codes_cons h (codes_cons h (codes_cons h (codes_cons h (codes_cons h (codes_cons h codes_nil))))))

/-! ### Context changes -/

theorem staged_context {i : Instr} {s : State} (h : changesContext i = true) (d : Domain) :
    ∀ c, ((∀ p f, i ≠ .init p f) → c = s.ctx) → Staged i s { s.dropContextBound with ctx := c, dom := d } :=
  fun c hc => {
    same := rfl
    ops := fun _ _ => rfl
    pts := fun h' => by rw [h] at h'; cases h'
    stale := fun _ j => .inr (State.pt_of_map_toStale rfl j)
    keyReg := fun h' => by rw [h] at h'; cases h'
    keyEph := fun h' => by rw [h] at h'; cases h'
    ctx := hc
    dom := fun h' => by rw [h] at h'; cases h' }

theorem staged_key {s : State} (slot : KeySlot) (priv : Option OpIdx) (pub : Option PtIdx) (kp : KeyPair) :
    Staged (.setKeypair slot priv pub) s (s.writeKey slot kp) := by
  cases slot
  · exact ⟨rfl, fun _ _ => rfl, fun _ _ _ => rfl, fun _ _ => .inl rfl, fun _ h => absurd rfl (h priv pub),
      fun _ _ => rfl, fun _ => rfl, fun _ => rfl⟩
  · exact ⟨rfl, fun _ _ => rfl, fun _ _ _ => rfl, fun _ _ => .inl rfl, fun _ _ => rfl,
      fun _ h => absurd rfl (h priv pub), fun _ => rfl, fun _ => rfl⟩

/-! ### Every command -/

/-- What `exec` can answer, for every command. -/
theorem exec_answers (i : Instr) (s : State) : Answers i s (exec i s) := by
  cases i with
  | nop => exact answers_finish codes_nil (.refl _ s)
  | init pol fb =>
    exact answers_finish (codes_cons (by simp [raises]) codes_nil)
      (staged_context rfl _ _ fun h => absurd rfl (h pol fb))
  | setDomain =>
    exact answers_finish (codes_append (codes_append (codes_presence (by simp [raises]))
      (codes_cons (by simp [raises]) codes_nil)) (codes_domain (by simp [raises])))
      (staged_context rfl _ _ fun _ => rfl)
  | setStdDomain cid =>
    simp only [exec, execSetStdDomain]
    split
    · exact answers_finish (codes_cons (by simp [raises]) (codes_cons (by simp [raises]) codes_nil)) (.refl _ s)
    · exact answers_finish (codes_append (codes_cons (by simp [raises]) codes_nil)
        (codes_domain (by simp [raises]))) (staged_context rfl _ _ fun _ => rfl)
  | getDomain =>
    have hm : ∀ j : OpIdx, j.val < 7 → j ∈ destOps .getDomain := by decide
    exact answers_finish (codes_common_nil (by simp [raises]))
      (((((((Staged.refl _ s).writeOp (hm 0 (by decide)) _).writeOp (hm 1 (by decide)) _).writeOp
        (hm 2 (by decide)) _).writeOp (hm 3 (by decide)) _).writeOp (hm 4 (by decide)) _).writeOp
        (hm 5 (by decide)) _ |>.writeOp (hm 6 (by decide)) _)
  | getOrderBits => exact answers_finish (codes_common_nil (by simp [raises])) (.refl _ s)
  | mmEnc rd ra e =>
    exact answers_finish (codes_append (codes_common (by simp [raises]) (by simp [raises]))
      (codes_map (by simp [raises]))) ((Staged.refl _ s).writeOp (by simp [destOps]) _)
  | mmDec rd ra e =>
    exact answers_finish (codes_append (codes_common (by simp [raises]) (by simp [raises]))
      (codes_map (by simp [raises]))) ((Staged.refl _ s).writeOp (by simp [destOps]) _)
  | mmMul rd ra rb e =>
    exact answers_finish (codes_append (codes_common (by simp [raises]) (by simp [raises]))
      (codes_map (by simp [raises]))) ((Staged.refl _ s).writeOp (by simp [destOps]) _)
  | mmSqr rd ra e =>
    exact answers_finish (codes_append (codes_common (by simp [raises]) (by simp [raises]))
      (codes_map (by simp [raises]))) ((Staged.refl _ s).writeOp (by simp [destOps]) _)
  | mmInv rd ra e =>
    exact answers_finish (codes_append (codes_append (codes_common (by simp [raises]) (by simp [raises]))
      (codes_map (by simp [raises]))) (codes_cons (by simp [raises]) codes_nil))
      ((Staged.refl _ s).writeOp (by simp [destOps]) _)
  | ptSetAffine rd ra rb =>
    exact answers_finishGroup (codes_append (codes_common (by simp [raises]) (by simp [raises]))
      (codes_map (by simp [raises]))) ((Staged.refl _ s).writePt (by simp [destPts]) rfl _)
      ((Staged.refl _ s).writePt (by simp [destPts]) rfl _)
  | ptSetProj rd ra rb rc =>
    exact answers_finishGroup (codes_append (codes_common (by simp [raises]) (by simp [raises]))
      (codes_map (by simp [raises]))) ((Staged.refl _ s).writePt (by simp [destPts]) rfl _)
      ((Staged.refl _ s).writePt (by simp [destPts]) rfl _)
  | ptSetInf rd =>
    exact answers_finish (codes_common_nil (by simp [raises]))
      ((Staged.refl _ s).writePt (by simp [destPts]) rfl _)
  | ptGetAffine rd re ra =>
    exact answers_finishGroup (codes_common (by simp [raises]) (by simp [raises]))
      (((Staged.refl _ s).writeOp (by simp [destOps]) _).writeOp (by simp [destOps]) _)
      (((Staged.refl _ s).writeOp (by simp [destOps]) _).writeOp (by simp [destOps]) _)
  | ptCheck ra =>
    exact answers_finishGroup (codes_common (by simp [raises]) (by simp [raises])) (.refl _ s) (.refl _ s)
  | ptCmp ra rb =>
    exact answers_finishGroup (codes_common (by simp [raises]) (by simp [raises])) (.refl _ s) (.refl _ s)
  | ptNeg rd ra =>
    exact answers_finishGroup (codes_common (by simp [raises]) (by simp [raises]))
      ((Staged.refl _ s).writePt (by simp [destPts]) rfl _) ((Staged.refl _ s).writePt (by simp [destPts]) rfl _)
  | ptDbl rd ra =>
    exact answers_finishGroup (codes_common (by simp [raises]) (by simp [raises]))
      ((Staged.refl _ s).writePt (by simp [destPts]) rfl _) ((Staged.refl _ s).writePt (by simp [destPts]) rfl _)
  | ptAdd rd ra rb =>
    exact answers_finishGroup (codes_common (by simp [raises]) (by simp [raises]))
      ((Staged.refl _ s).writePt (by simp [destPts]) rfl _) ((Staged.refl _ s).writePt (by simp [destPts]) rfl _)
  | ptMul rd ra rb =>
    exact answers_finishGroup (codes_append (codes_common (by simp [raises]) (by simp [raises]))
      (codes_cons (by simp [raises]) codes_nil))
      ((Staged.refl _ s).writePt (by simp [destPts]) rfl _) ((Staged.refl _ s).writePt (by simp [destPts]) rfl _)
  | ptMulBase rd ra =>
    exact answers_finishGroup (codes_append (codes_common (by simp [raises]) (by simp [raises]))
      (codes_cons (by simp [raises]) codes_nil))
      ((Staged.refl _ s).writePt (by simp [destPts]) rfl _) ((Staged.refl _ s).writePt (by simp [destPts]) rfl _)
  | ptMul2 rd ra rb rc re =>
    exact answers_finishGroup (codes_append (codes_common (by simp [raises]) (by simp [raises]))
      (codes_cons (by simp [raises]) (codes_cons (by simp [raises]) codes_nil)))
      ((Staged.refl _ s).writePt (by simp [destPts]) rfl _) ((Staged.refl _ s).writePt (by simp [destPts]) rfl _)
  | genKeypair rd re =>
    simp only [exec, execGenKeypair]
    cases hf : firstFailure (s.commonChecks []) with
    | some e =>
      have he : e ∈ raises (.genKeypair rd re) := codes_common_nil (by simp [raises]) e (firstFailure_mem hf)
      exact .inr (.inl ⟨e, errorResult, he, fun h' => ok_not_mem_raises _ (h' ▸ he), fun _ => rfl, rfl⟩)
    | none =>
      dsimp only
      split
      · exact .inr (.inr ⟨⟨rd, re, rfl⟩, .inl rfl⟩)
      · split
        · exact answers_finishGroup codes_nil
            (((Staged.refl _ s).writeOp (by simp [destOps]) _).writePt (by simp [destPts]) rfl _)
            (((Staged.refl _ s).writeOp (by simp [destOps]) _).writePt (by simp [destPts]) rfl _)
        · exact .inr (.inr ⟨⟨rd, re, rfl⟩, .inr rfl⟩)
  | derivePub rd ra =>
    exact answers_finishGroup (codes_append (codes_common (by simp [raises]) (by simp [raises]))
      (codes_cons (by simp [raises]) codes_nil))
      ((Staged.refl _ s).writePt (by simp [destPts]) rfl _) ((Staged.refl _ s).writePt (by simp [destPts]) rfl _)
  | setKeypair slot priv pub =>
    have hc : ∀ e ∈ (s.keypairChecks priv pub).map Prod.snd, e ∈ raises (.setKeypair slot priv pub) :=
      codes_append (codes_append (codes_cons (by simp [raises]) codes_nil)
        (codes_common (by simp [raises]) (by simp [raises]))) (codes_map (by simp [raises]))
    cases pub with
    | none => exact answers_finish hc (staged_key _ _ _ _)
    | some j => exact answers_finishGroup hc (staged_key _ _ _ _) (staged_key _ _ _ _)
  | sign rd re ra priv =>
    exact answers_finishGroup (codes_append (codes_common (by simp [raises]) (by simp [raises]))
      (codes_cons (by simp [raises]) (codes_cons (by simp [raises]) (codes_cons (by simp [raises])
        (codes_cons (by simp [raises]) (codes_cons (by simp [raises]) codes_nil))))))
      (((Staged.refl _ s).writeOp (by simp [destOps]) _).writeOp (by simp [destOps]) _)
      (((Staged.refl _ s).writeOp (by simp [destOps]) _).writeOp (by simp [destOps]) _)
  | verify ra rb rc pub =>
    exact answers_finishGroup (codes_append (codes_common (by simp [raises]) (by simp [raises]))
      (codes_cons (by simp [raises]) codes_nil)) (.refl _ s) (.refl _ s)
  | ecdh rd priv rb =>
    exact answers_finishGroup (codes_append (codes_common (by simp [raises]) (by simp [raises]))
      (codes_cons (by simp [raises]) (codes_cons (by simp [raises]) codes_nil)))
      ((Staged.refl _ s).writeOp (by simp [destOps]) _) ((Staged.refl _ s).writeOp (by simp [destOps]) _)

end Sys2Proof.Machine
end

