-- ==== Sys2Proof/Laws/Ranges.lean ====
section
/-! SUPPORT. Ranges (spec 00_scope.md R10, R16): the coordinates of every result lie in [0, p). A property of
points that ⊖, dbl and ⊕ keep is kept by every scalar multiplication. -/

namespace Sys2Proof.Machine

/-- A property of points that the group operations keep. -/
structure ClosedUnder (d : Domain) (Q : Point → Prop) : Prop where
  inf : Q .inf
  neg : ∀ {P}, Q P → Q (d.neg P)
  dbl : ∀ {P}, Q P → Q (d.dbl P)
  add : ∀ {P P'}, Q P → Q P' → Q (d.add P P')

namespace ClosedUnder

variable {d : Domain} {Q : Point → Prop}

/-- Every working register has the property. -/
def AllRegs (Q : Point → Prop) (t : Datapath) : Prop := ∀ r, Q (t.get r)

theorem dblStep (h : ClosedUnder d Q) (dst a : WorkReg) {t : Datapath} (ht : AllRegs Q t) :
    AllRegs Q (t.dbl d dst a) := fun r => by
  rw [Datapath.get_dbl]; split
  exacts [h.dbl (ht a), ht r]

theorem addStep (h : ClosedUnder d Q) (dst a b : WorkReg) {t : Datapath} (ht : AllRegs Q t) :
    AllRegs Q (t.add d dst a b) := fun r => by
  rw [Datapath.get_add]; split
  exacts [h.add (ht a) (ht b), ht r]

theorem loadStep {P : Point} (hP : Q P) (dst : WorkReg) {t : Datapath} (ht : AllRegs Q t) :
    AllRegs Q (t.load dst P) := fun r => by
  rw [Datapath.get_load]; split
  exacts [hP, ht r]

theorem scanStep (h : ClosedUnder d Q) (dst : WorkReg) (n digit : Nat) {t : Datapath} (ht : AllRegs Q t) :
    AllRegs Q (t.scan dst n digit) := fun r => by
  rw [Datapath.get_scan]; split
  · rw [scan_eq]; split
    exacts [ht _, h.inf]
  · exact ht r

theorem dblTimes (h : ClosedUnder d Q) (r : WorkReg) : ∀ (n : Nat) (t : Datapath), AllRegs Q t →
    AllRegs Q (t.dblTimes d r n)
  | 0, _, ht => ht
  | n + 1, _, ht => dblTimes h r n _ (h.dblStep r r ht)

/-- A file of points with the property. -/
theorem allRegs_of_file (h : ClosedUnder d Q) (ops : List GroupOp) : ∀ f : WorkFile, (∀ e ∈ f, Q e.2) →
    AllRegs Q { file := f, ops := ops }
  | [], _, _ => h.inf
  | e :: f, hf, r => by
    show Q (readReg (e :: f) r)
    simp only [readReg]
    split
    · exact hf e (List.mem_cons_self ..)
    · exact allRegs_of_file h ops f (fun e he => hf e (List.mem_cons_of_mem _ he)) r

theorem fastLoop (h : ClosedUnder d Q) (K H : Nat) : ∀ (i : Nat) (t : Datapath), AllRegs Q t →
    AllRegs Q (fastLoop d K H i t)
  | 0, _, ht => ht
  | i + 1, t, ht => by
    refine fastLoop h K H i _ ?_
    unfold fastStep
    dsimp only
    split
    · exact h.addStep _ _ _ (h.dblStep _ _ ht)
    · split
      · exact h.addStep _ _ _ (h.dblStep _ _ ht)
      · exact h.dblStep _ _ ht

theorem fastMul (h : ClosedUnder d Q) (k : Nat) {P : Point} (hP : Q P) : Q (fastMul d k P).acc := by
  unfold Machine.fastMul
  split
  · exact h.inf
  · exact h.fastLoop _ _ _ _ (h.allRegs_of_file _ _ (by simp [hP, h.neg hP])) _

theorem ctTable (h : ClosedUnder d Q) : ∀ (n : Nat) (t : Datapath), AllRegs Q t → AllRegs Q (ctTable d n t)
  | 0, _, ht => ht
  | n + 1, _, ht => h.addStep _ _ _ (ctTable h n _ ht)

theorem ctWindows (h : ClosedUnder d Q) (w : Nat) (digits : List Nat) {t : Datapath} (ht : AllRegs Q t) :
    AllRegs Q (ctWindows d w digits t) := by
  have key : ∀ (l : List Nat) (t : Datapath), AllRegs Q t → AllRegs Q (l.foldl (ctWindow d w) t) := by
    intro l
    induction l with
    | nil => exact fun _ ht => ht
    | cons x l ih => exact fun t ht => ih _ (h.addStep _ _ _ (h.scanStep _ _ _ (h.dblTimes _ _ _ ht)))
  exact key _ _ (h.scanStep _ _ _ ht)

theorem ctCorrect (h : ClosedUnder d Q) (n : Nat) {t : Datapath} (ht : AllRegs Q t) :
    AllRegs Q (ctCorrect d n t) := by
  have h1 := h.dblTimes .C n _ (loadStep (ht .P) .C ht)
  exact h.addStep _ _ _ (loadStep (h.neg (h1 .C)) _ h1)

theorem ctMul (h : ClosedUnder d Q) (k : Nat) {P : Point} (hP : Q P) : Q (ctMul d k P).acc :=
  h.ctCorrect _ (h.ctWindows _ _ (h.ctTable _ _ (h.allRegs_of_file _ _ (by simp [hP])))) _

theorem fastLoop2 (h : ClosedUnder d Q) {P P' : Point} (hP : Q P) (hP' : Q P') (s1 s2 : Nat) :
    ∀ (i : Nat) (R : Point), Q R → Q (fastLoop2 d s1 P s2 P' i R)
  | 0, _, hR => hR
  | i + 1, R, hR => by
    refine fastLoop2 h hP hP' s1 s2 i _ ?_
    split
    · refine h.add (h.dbl hR) ?_
      cases s1.testBit i <;> cases s2.testBit i
      · exact h.inf
      · exact hP'
      · exact hP
      · exact h.add hP hP'
    · exact h.dbl hR

theorem policyMul (h : ClosedUnder d Q) (pol : Policy) (k : Nat) {P : Point} (hP : Q P) :
    Q (policyMul pol d k P) := by
  cases pol
  · exact h.fastMul k hP
  · exact h.ctMul k hP

theorem policyMul2 (h : ClosedUnder d Q) (pol : Policy) (s1 s2 : Nat) {P P' : Point} (hP : Q P)
    (hP' : Q P') : Q (policyMul2 pol d s1 P s2 P') := by
  cases pol
  · unfold Machine.policyMul2
    dsimp only
    split
    · exact h.add (h.fastMul s1 hP) (h.fastMul s2 hP')
    · exact h.fastLoop2 hP hP' s1 s2 _ _ h.inf
  · exact h.add (h.ctMul s1 hP) (h.ctMul s2 hP')

end ClosedUnder

/-- Coordinates below p stay below p. -/
theorem Domain.below_closed (d : Domain) (hp : 0 < d.p) : ClosedUnder d (Point.below d.p) where
  inf := trivial
  neg {P} h := by
    cases P with
    | inf => trivial
    | aff x y => exact ⟨h.1, residue_lt _ hp⟩
  dbl {P} h := by
    cases P with
    | inf => trivial
    | aff x y =>
      simp only [Domain.dbl]
      split
      · trivial
      · exact ⟨residue_lt _ hp, residue_lt _ hp⟩
  add {P P'} h h' := by
    cases P with
    | inf => exact h'
    | aff x y =>
      cases P' with
      | inf => exact h
      | aff x' y' =>
        simp only [Domain.add, Domain.dbl]
        split
        · split
          · split
            · trivial
            · exact ⟨residue_lt _ hp, residue_lt _ hp⟩
          · trivial
        · exact ⟨residue_lt _ hp, residue_lt _ hp⟩

theorem State.freePoint_below (s : State) (k : Nat) (hp : 0 < s.dom.p) : (s.freePoint k).below s.dom.p := by
  unfold State.freePoint
  split
  · trivial
  · exact ⟨Nat.mod_lt _ hp, Nat.mod_lt _ hp⟩

theorem State.mulPoint_below (s : State) (hp : 0 < s.dom.p) (pol : Policy) (k : Nat) {P : Point}
    (hP : P.below s.dom.p) : (s.mulPoint pol k P).below s.dom.p := by
  unfold State.mulPoint
  split
  · exact (s.dom.below_closed hp).policyMul pol k hP
  · exact s.freePoint_below 20 hp

theorem State.mulPoint2_below (s : State) (hp : 0 < s.dom.p) (s1 s2 : Nat) {P Q : Point}
    (hP : P.below s.dom.p) (hQ : Q.below s.dom.p) : (s.mulPoint2 s1 P s2 Q).below s.dom.p := by
  unfold State.mulPoint2
  split
  · exact (s.dom.below_closed hp).policyMul2 _ s1 s2 hP hQ
  · exact s.freePoint_below 20 hp

theorem Domain.pointOf_below (d : Domain) {x y : Nat} (hx : x < d.p) (hy : y < d.p) :
    (d.pointOf x y).below d.p := by
  unfold Domain.pointOf
  split
  · trivial
  · exact ⟨hx, hy⟩

theorem Domain.ofJacobian_below (d : Domain) (hp : 0 < d.p) (X Y Z : Nat) :
    (d.ofJacobian X Y Z).below d.p := by
  unfold Domain.ofJacobian
  split
  · trivial
  · exact ⟨Nat.mod_lt _ hp, Nat.mod_lt _ hp⟩

theorem Domain.norm_below (d : Domain) {P : Point} (h : P.below d.p) : (d.norm P).below d.p := by
  cases P with
  | inf => trivial
  | aff x y => exact d.pointOf_below h.1 h.2

end Sys2Proof.Machine
end

