-- ==== Sys2Proof/Laws/Invariant.lean ====
section
/-! SUPPORT. How completions act on the context, the domain, the points and the keys: the step of the
invariant of Safety.lean that needs the meanings (spec 10_state.md R67, R50 to R55). -/

namespace Sys2Proof.Machine

/-- The part of the invariant that completions can touch: context, domain, points and keys (R67, R50 to
R55). -/
structure ContextInv (s : State) : Prop where
  set_init : s.dom.set = true → s.ctx.init = true
  ctx_range : s.ctx.init = true → Config.minFieldBits ≤ s.ctx.fieldBits ∧ s.ctx.fieldBits ≤ Config.maxFieldBits
  ctx_cleared : s.ctx.init = false → s.ctx = .cleared
  dom_valid : s.dom.set = true → s.dom.Valid s.ctx.fieldBits
  dom_cleared : s.dom.set = false → s.dom = .cleared
  pt_valid : ∀ (i : PtIdx) (P : Point), s.pt i = .valid P → s.dom.set = true ∧ P.below s.dom.p
  keyReg_within : s.keyReg.within s.dom
  keyEph_within : s.keyEph.within s.dom

/-- The completion step touches none of it. -/
theorem ContextInv.close {s : State} (h : ContextInv s) (c v) : ContextInv (s.close c v) :=
  ⟨h.1, h.2, h.3, h.4, h.5, h.6, h.7, h.8⟩
/-- Nor does the RNG handshake. -/
theorem ContextInv.rng {s : State} (h : ContextInv s) (b l) : ContextInv { s with rngReq := b, drawn := l } :=
  ⟨h.1, h.2, h.3, h.4, h.5, h.6, h.7, h.8⟩
theorem ContextInv.writeOp {s : State} (h : ContextInv s) (i v) : ContextInv (s.writeOp i v) :=
  ⟨h.1, h.2, h.3, h.4, h.5, h.6, h.7, h.8⟩
/-- A staged point with coordinates below p keeps it. -/
theorem ContextInv.writePt {s : State} (h : ContextInv s) (i) {P : Point} (hs : s.dom.set = true) (hP :
    P.below s.dom.p) : ContextInv (s.writePt i P) := by
  refine ⟨h.1, h.2, h.3, h.4, h.5, ?_, h.7, h.8⟩
  intro j Q hj
  rw [State.pt_writePt] at hj
  split at hj
  · injection hj with hj; subst hj; exact ⟨hs, hP⟩
  · exact h.6 j Q hj
/-- A staged key within its ranges keeps it. -/
theorem ContextInv.writeKey {s : State} (h : ContextInv s) (k kp) (hk : kp.within s.dom) : ContextInv
    (s.writeKey k kp) := by
  cases k
  · exact ⟨h.1, h.2, h.3, h.4, h.5, h.6, hk, h.8⟩
  · exact ⟨h.1, h.2, h.3, h.4, h.5, h.6, h.7, hk⟩

/-- `finish` keeps it when the staged state does, on the paths where every check holds. -/
theorem contextInv_of_finish {s t : State} {cs v} (h : ContextInv s) (ht : firstFailure cs = none →
    ContextInv t) :
    ∀ u, s.finish cs t v = .next u → ContextInv u := by
  intro u hu
  rcases s.finish_cases t v cs with ⟨h0, h1⟩ | ⟨e, -, h0, h1⟩
  all_goals rw [h1] at hu; injection hu with hu; subst hu
  · exact (ht h0).close _ _
  · exact h.close _ _

/-- `finishGroup` likewise, with the drawn state for a composite p. -/
theorem contextInv_of_finishGroup {s t any : State} {i cs v} (h : ContextInv s) (ht :
    firstFailure cs = none → ContextInv t)
    (ha : s.compositeP = true → ContextInv any) :
    ∀ u, s.finishGroup i any cs t v = .next u → ContextInv u := by
  intro u hu
  rcases s.finishGroup_cases i any cs t v with ⟨-, h0, h1⟩ | ⟨-, e, -, h0, h1⟩ | ⟨h0, h1⟩ | ⟨h0, e, -, -, h1⟩
  all_goals rw [h1] at hu; injection hu with hu; subst hu
  · exact (ht h0).close _ _
  · exact h.close _ _
  · exact (ha h0).close _ _
  · exact h.close _ _

/-- When the common checks and the command's own all hold, the command is ready. -/
theorem ready_of_common {s : State} {i rest} (h : firstFailure (s.commonChecks (sources i) ++ rest) = none) :
    s.ready i = true ∧ firstFailure rest = none := by
  rw [firstFailure_append, firstFailure_common] at h
  cases h1 : s.allPresent i <;> cases h2 : s.ready i <;> simp_all

theorem ready_of_common_only {s : State} {i} (h : firstFailure (s.commonChecks (sources i)) = none) :
    s.ready i = true := by
  rw [firstFailure_common] at h
  cases h1 : s.allPresent i <;> cases h2 : s.ready i <;> simp_all

theorem dom_set_of_ready {s : State} {i} (h : s.ready i = true) : s.dom.set = true := by
  simp only [State.ready, Bool.and_eq_true] at h; exact h.1.2
theorem pt_valid_of_ready {s : State} {i j} (h : s.ready i = true) (hj : Src.pt j ∈ sources i) :
    ∃ P, s.pt j = .valid P := by
  simp only [State.ready, State.allPresent, Bool.and_eq_true, List.all_eq_true] at h
  exact (s.pt_valid_iff j).2 ⟨h.1.1.1 _ hj, h.2 _ hj⟩
/-- A point source of a ready command has coordinates below p. -/
theorem ContextInv.ptVal {s : State} (h : ContextInv s) {i j} (hr : s.ready i = true) (hj :
    Src.pt j ∈ sources i) :
    (s.ptVal j).below s.dom.p := by
  obtain ⟨P, hP⟩ := pt_valid_of_ready hr hj
  rw [State.ptVal_of_valid hP]
  exact (h.pt_valid j P hP).2
theorem dom_set_of_compositeP {s : State} (h : s.compositeP = true) : s.dom.set = true := by
  simp only [State.compositeP, Bool.and_eq_true] at h; exact h.1.2
theorem ContextInv.p_pos {s : State} (h : ContextInv s) (hs : s.dom.set = true) : 0 < s.dom.p := by
  have := (h.dom_valid hs).p_ge; omega
theorem ContextInv.free {s : State} (h : ContextInv s) (i) (k) (hc : s.compositeP = true) : ContextInv
    (s.writePt i (s.freePoint k)) :=
  h.writePt i (dom_set_of_compositeP hc) (s.freePoint_below k (h.p_pos (dom_set_of_compositeP hc)))

/-- A domain that check_domain accepts keeps it (R204). -/
theorem contextInv_installDomain {s : State} (h : ContextInv s) (t : CurveTuple) (hi : s.ctx.init = true)
    (hf : firstFailure (domainChecks s.ctx.fieldBits t) = none) : ContextInv (s.installDomain t) := by
  have ha := all_of_firstFailure hf
  simp [domainChecks] at ha
  obtain ⟨⟨⟨h1, h2⟩, h3⟩, h4, h5, h6, h7, ⟨⟨h8, h9⟩, h10⟩, h11⟩ := ha
  refine ⟨fun _ => hi, h.ctx_range, h.ctx_cleared, fun _ => ?_, fun h' => (by cases h'), ?_, ?_, ?_⟩
  · refine ⟨h1, h2, h3, h4, h5, ?_, h8, h9, h10, h11, rfl, rfl⟩
    show (if _ then _ else _ : Point).below t.p
    split
    · trivial
    · exact ⟨h6, h7⟩
  · intro i P hP
    rw [show (s.installDomain t).pt i = (s.pt i).toStale from State.pt_of_map_toStale rfl i] at hP
    cases hx : s.pt i <;> simp [hx, PtReg.toStale] at hP
  · exact ⟨Nat.two_pow_pos _, trivial⟩
  · exact ⟨Nat.two_pow_pos _, trivial⟩

/-- Every command keeps it. -/
theorem contextInv_exec (i : Instr) (s : State) (h : ContextInv s) : ∀ u, exec i s = .next u →
    ContextInv u := by
  have hp := h.p_pos
  have G : s.dom.set = true → s.dom.G.below s.dom.p := fun hs => (h.dom_valid hs).G_below
  cases i with
  | nop => exact contextInv_of_finish (cs := []) (v := 0) h fun _ => h
  | init pol fb =>
    refine contextInv_of_finish h fun hc => ?_
    have ha := all_of_firstFailure hc
    simp at ha
    refine ⟨fun h' => (by cases h'), fun _ => ⟨ha.1, ha.2⟩, fun h' => (by cases h'), fun h' =>
        (by cases h'), fun _ => rfl, ?_, ?_, ?_⟩
    · intro i P hP
      have := State.pt_of_map_toStale (s := s) (t := { s.dropContextBound with
      ctx := { init := true, fieldBits := fb.toNat, policy := pol }
      dom := .cleared }) rfl i
      rw [this] at hP
      cases hx : s.pt i <;> simp [hx, PtReg.toStale] at hP
    · exact ⟨Nat.two_pow_pos _, trivial⟩
    · exact ⟨Nat.two_pow_pos _, trivial⟩
  | setDomain =>
    refine contextInv_of_finish h fun hc => ?_
    rw [firstFailure_append, firstFailure_append] at hc
    have h2 : s.ctx.init = true ∧ firstFailure (domainChecks s.ctx.fieldBits s.domainOperands) = none := by
      cases h1 : firstFailure (s.presenceChecks (domainRegs.map Src.op)) <;> cases h3 : s.ctx.init
          <;> simp_all [firstFailure_cons]
    exact contextInv_installDomain h _ h2.1 h2.2
  | setStdDomain cid =>
    simp only [exec, execSetStdDomain]
    split
    · exact contextInv_of_finish h fun _ => h
    · refine contextInv_of_finish h fun hc => ?_
      rw [firstFailure_append] at hc
      rename_i t _
      have h2 : s.ctx.init = true ∧ firstFailure (domainChecks s.ctx.fieldBits t) = none := by
        cases h3 : s.ctx.init <;> simp_all [firstFailure_cons]
      exact contextInv_installDomain h _ h2.1 h2.2
  | getDomain =>
    exact contextInv_of_finish h fun _ =>
      ((((((h.writeOp _ _).writeOp _ _).writeOp _ _).writeOp _ _).writeOp _ _).writeOp _ _).writeOp _ _
  | getOrderBits => exact contextInv_of_finish h fun _ => h
  | mmEnc rd ra e => exact contextInv_of_finish h fun _ => h.writeOp _ _
  | mmDec rd ra e => exact contextInv_of_finish h fun _ => h.writeOp _ _
  | mmMul rd ra rb e => exact contextInv_of_finish h fun _ => h.writeOp _ _
  | mmSqr rd ra e => exact contextInv_of_finish h fun _ => h.writeOp _ _
  | mmInv rd ra e => exact contextInv_of_finish h fun _ => h.writeOp _ _
  | ptSetAffine rd ra rb =>
    refine contextInv_of_finishGroup h (fun hc => ?_) (h.free rd 10)
    obtain ⟨hr, h2⟩ := ready_of_common (i := .ptSetAffine rd ra rb) hc
    have hs := dom_set_of_ready hr
    have ha := all_of_firstFailure h2
    simp [State.coordChecks] at ha
    exact h.writePt _ hs (s.dom.pointOf_below ha.1 ha.2)
  | ptSetProj rd ra rb rc =>
    refine contextInv_of_finishGroup h (fun hc => ?_) (h.free rd 10)
    obtain ⟨hr, h2⟩ := ready_of_common (i := .ptSetProj rd ra rb rc) hc
    have hs := dom_set_of_ready hr
    exact h.writePt _ hs (s.dom.ofJacobian_below (hp hs) _ _ _)
  | ptSetInf rd =>
    refine contextInv_of_finish h fun hc => ?_
    have hr := ready_of_common_only (i := .ptSetInf rd) hc
    have hs := dom_set_of_ready hr
    exact h.writePt _ hs trivial
  | ptGetAffine rd re ra =>
    exact contextInv_of_finishGroup h (fun _ => (h.writeOp _ _).writeOp _ _)
      (fun _ => (h.writeOp _ _).writeOp _ _)
  | ptCheck ra => exact contextInv_of_finishGroup h (fun _ => h) (fun _ => h)
  | ptCmp ra rb => exact contextInv_of_finishGroup h (fun _ => h) (fun _ => h)
  | ptNeg rd ra =>
    refine contextInv_of_finishGroup h (fun hc => ?_) (h.free rd 10)
    have hr := ready_of_common_only (i := .ptNeg rd ra) hc
    have hs := dom_set_of_ready hr
    exact h.writePt _ hs ((s.dom.below_closed (hp hs)).neg (h.ptVal hr (by simp [sources])))
  | ptDbl rd ra =>
    refine contextInv_of_finishGroup h (fun hc => ?_) (h.free rd 10)
    have hr := ready_of_common_only (i := .ptDbl rd ra) hc
    have hs := dom_set_of_ready hr
    exact h.writePt _ hs ((s.dom.below_closed (hp hs)).dbl (h.ptVal hr (by simp [sources])))
  | ptAdd rd ra rb =>
    refine contextInv_of_finishGroup h (fun hc => ?_) (h.free rd 10)
    have hr := ready_of_common_only (i := .ptAdd rd ra rb) hc
    have hs := dom_set_of_ready hr
    exact h.writePt _ hs ((s.dom.below_closed (hp hs)).add (h.ptVal hr (by simp [sources])) (h.ptVal hr
        (by simp [sources])))
  | ptMul rd ra rb =>
    refine contextInv_of_finishGroup h (fun hc => ?_) (h.free rd 10)
    have hr := (ready_of_common (i := .ptMul rd ra rb) hc).1
    have hs := dom_set_of_ready hr
    exact h.writePt _ hs (s.mulPoint_below (hp hs) _ _ (h.ptVal hr (by simp [sources])))
  | ptMulBase rd ra =>
    refine contextInv_of_finishGroup h (fun hc => ?_) (h.free rd 10)
    have hr := (ready_of_common (i := .ptMulBase rd ra) hc).1
    have hs := dom_set_of_ready hr
    exact h.writePt _ hs (s.mulPoint_below (hp hs) _ _ (G hs))
  | ptMul2 rd ra rb rc re =>
    refine contextInv_of_finishGroup h (fun hc => ?_) (h.free rd 10)
    have hr := (ready_of_common (i := .ptMul2 rd ra rb rc re) hc).1
    have hs := dom_set_of_ready hr
    exact h.writePt _ hs (s.mulPoint2_below (hp hs) _ _ (h.ptVal hr (by simp [sources])) (h.ptVal hr
        (by simp [sources])))
  | genKeypair rd re =>
    simp only [exec, execGenKeypair]
    cases hf : firstFailure (s.commonChecks []) with
    | some e => intro u hu; injection hu with hu; subst hu; exact h.close _ _
    | none =>
      have hr := ready_of_common_only (i := .genKeypair rd re) hf
      have hs := dom_set_of_ready hr
      dsimp only
      split
      · intro u hu; injection hu with hu; subst hu; exact h.rng true s.drawn
      · split
        · refine contextInv_of_finishGroup h (fun hc => ?_) (fun hc => ?_)
          · exact (h.writeOp _ _).writePt _ (show s.dom.set = true from hs) (s.mulPoint_below
              (hp hs) _ _ (G hs))
          · exact (h.writeOp _ _).writePt _ (show s.dom.set = true from hs) (s.freePoint_below _ (hp hs))
        · intro u hu; injection hu with hu; subst hu; exact h.rng true []
  | derivePub rd ra =>
    refine contextInv_of_finishGroup h (fun hc => ?_) (h.free rd 10)
    have hr := (ready_of_common (i := .derivePub rd ra) hc).1
    have hs := dom_set_of_ready hr
    exact h.writePt _ hs (s.mulPoint_below (hp hs) _ _ (G hs))
  | setKeypair slot priv pub =>
    have key : ∀ t, firstFailure (s.keypairChecks priv pub) = none → (∀ j, pub = some j → t = s.dom.norm
        (s.ptVal j)) → (pub = none → t = (s.key slot).pub) →
        KeyPair.within { priv := (s.importedKey slot priv pub).priv, pub := t } s.dom := by
      intro t hc ht1 ht2
      have hc' : firstFailure (s.commonChecks (sources
          (.setKeypair slot priv pub)) ++ priv.toList.map fun i => s.scalarCheck (s.opVal i)) = none := by
        unfold State.keypairChecks at hc
        rw [List.append_assoc, List.singleton_append, firstFailure_cons] at hc
        split at hc
        · exact hc
        · cases hc
      obtain ⟨hr, h2⟩ := ready_of_common hc'
      have hs := dom_set_of_ready hr
      have hk : (s.key slot).within s.dom := by cases slot; exacts [h.7, h.8]
      constructor
      · cases priv with
        | none => exact hk.1
        | some i =>
          have := all_of_firstFailure h2
          simp [State.scalarCheck] at this
          exact (bitlen_le_iff _ _).1 this
      · cases pub with
        | none => rw [ht2 rfl]; exact hk.2
        | some j => rw [ht1 j rfl]; exact s.dom.norm_below (h.ptVal hr (by simp [sources, optPtSrc]))
    cases pub with
    | none => exact contextInv_of_finish h fun hc => h.writeKey _ _ (key _ hc (by simp) (fun _ => rfl))
    | some j =>
      refine contextInv_of_finishGroup h (fun hc => h.writeKey _ _ (key _ hc (fun j' h' => ?_)
          (by simp))) fun hc => h.writeKey _ _ ⟨?_, s.freePoint_below _ (hp (dom_set_of_compositeP hc))⟩
      · injection h' with h'; subst h'; rfl
      · have hk : (s.key slot).within s.dom := by cases slot; exacts [h.7, h.8]
        cases priv with
        | none => exact hk.1
        | some i => exact Nat.mod_lt _ (Nat.two_pow_pos _)
  | sign rd re ra priv =>
    exact contextInv_of_finishGroup h (fun _ => (h.writeOp _ _).writeOp _ _)
      (fun _ => (h.writeOp _ _).writeOp _ _)
  | verify ra rb rc pub => exact contextInv_of_finishGroup h (fun _ => h) (fun _ => h)
  | ecdh rd priv rb => exact contextInv_of_finishGroup h (fun _ => h.writeOp _ _) (fun _ => h.writeOp _ _)
end Sys2Proof.Machine
end

