-- ==== Sys2Proof/Laws/PerInstr.lean ====
section
/-! SUPPORT. The per-instruction family TableRow: the encoding of each command meets its row of
spec/opcode_table.json, whatever its operands (spec 30_encoding.md R137, R138, R141). -/

namespace Sys2Proof.Laws.TableRow

open Sys2Proof

/-- The mask and the match value of a command's row of spec/opcode_table.json. -/
def row : Instr → Word × Word
  | .nop => (0xFFFFFFFF, 0x00000000)
  | .init _ _ => (0x7C00FFFF, 0x00000001)
  | .setDomain => (0xFFFFFFFF, 0x00000002)
  | .setStdDomain _ => (0xFF00FFFF, 0x00000003)
  | .getDomain => (0xFFFFFFFF, 0x00000004)
  | .getOrderBits => (0xFFFFFFFF, 0x00000005)
  | .mmEnc _ _ _ => (0xEFF0F0FF, 0x00000010)
  | .mmDec _ _ _ => (0xEFF0F0FF, 0x00000011)
  | .mmMul _ _ _ _ => (0xEF00F0FF, 0x00000012)
  | .mmSqr _ _ _ => (0xEFF0F0FF, 0x00000013)
  | .mmInv _ _ _ => (0xEFF0F0FF, 0x00000014)
  | .ptSetAffine _ _ _ => (0xFF00F0FF, 0x00000020)
  | .ptSetProj _ _ _ _ => (0xF000F0FF, 0x00000021)
  | .ptSetInf _ => (0xFFFFF0FF, 0x00000022)
  | .ptGetAffine _ _ _ => (0xFFF000FF, 0x00000023)
  | .ptCheck _ => (0xFFF0FFFF, 0x00000024)
  | .ptCmp _ _ => (0xFF00FFFF, 0x00000025)
  | .ptNeg _ _ => (0xFFF0F0FF, 0x00000026)
  | .ptDbl _ _ => (0xFFF0F0FF, 0x00000027)
  | .ptAdd _ _ _ => (0xFF00F0FF, 0x00000028)
  | .ptMul _ _ _ => (0xFF00F0FF, 0x00000030)
  | .ptMulBase _ _ => (0xFFF0F0FF, 0x00000031)
  | .ptMul2 _ _ _ _ _ => (0xF00000FF, 0x00000032)
  | .genKeypair _ _ => (0xFFFF00FF, 0x00000040)
  | .derivePub _ _ => (0xFFF0F0FF, 0x00000041)
  | .setKeypair _ _ _ => (0x8F00FFFF, 0x00000042)
  | .sign _ _ _ _ => (0xEF0000FF, 0x00000043)
  | .verify _ _ _ _ => (0xE000F0FF, 0x00000044)
  | .ecdh _ _ _ => (0xEF00F0FF, 0x00000045)

/-- The masked encoding is the row's match value. -/
def Statement (i : Instr) : Prop := encode i &&& (row i).1 = (row i).2

/-- A packed word meets a row when each field that the row fixes is zero. -/
theorem meets {fl rc rb ra re rd mfl mrc mrb mra mre mrd : BitVec 4} {opc : BitVec 8}
    (h1 : fl &&& mfl = 0) (h2 : rc &&& mrc = 0) (h3 : rb &&& mrb = 0) (h4 : ra &&& mra = 0)
    (h5 : re &&& mre = 0) (h6 : rd &&& mrd = 0) :
    packR fl rc rb ra re rd opc &&& packR mfl mrc mrb mra mre mrd 0xFF = packR 0 0 0 0 0 0 opc := by
  rw [packR_and, h1, h2, h3, h4, h5, h6, show opc &&& 0xFF = opc from BitVec.and_allOnes]

/-- A field that the row leaves free. -/
theorem free (f : BitVec 4) : f &&& 0 = 0 := BitVec.and_zero

/-- A field that the row fixes at zero. -/
theorem zero : (0 : BitVec 4) &&& 0xF = 0 := rfl

/-- The flag field of an MM command: only FL[0] is free. -/
theorem engine (e : EngineSel) : engineBits e &&& 0xE = 0 := by cases e <;> rfl

/-- The flag field with only FL[0] in use. -/
theorem flag0 (b : Bool) : flagBits false false b &&& 0xE = 0 := by cases b <;> rfl

/-- The flag field with FL[3] unused. -/
theorem flag012 (f2 f1 f0 : Bool) : flagBits f2 f1 f0 &&& 0x8 = 0 := by
  cases f2 <;> cases f1 <;> cases f0 <;> rfl

theorem nop : Statement .nop :=
  meets zero zero zero zero zero zero
theorem init (policy : Policy) (fieldBits : BitVec 10) : Statement (.init policy fieldBits) := by
  unfold Statement encode row
  apply BitVec.eq_of_getLsbD_eq
  intro i hi
  simp only [BitVec.getLsbD_and, packI, BitVec.getLsbD_append]
  interval_cases i <;> simp
theorem setDomain : Statement .setDomain :=
  meets zero zero zero zero zero zero
theorem setStdDomain (cid : BitVec 8) : Statement (.setStdDomain cid) := by
  unfold Statement encode row
  apply BitVec.eq_of_getLsbD_eq
  intro i hi
  simp only [BitVec.getLsbD_and, packI, BitVec.getLsbD_append]
  interval_cases i <;> simp
theorem getDomain : Statement .getDomain :=
  meets zero zero zero zero zero zero
theorem getOrderBits : Statement .getOrderBits :=
  meets zero zero zero zero zero zero
theorem mmEnc (rd ra : OpIdx) (e : EngineSel) : Statement (.mmEnc rd ra e) :=
  meets (engine e) zero zero (free _) zero (free _)
theorem mmDec (rd ra : OpIdx) (e : EngineSel) : Statement (.mmDec rd ra e) :=
  meets (engine e) zero zero (free _) zero (free _)
theorem mmMul (rd ra rb : OpIdx) (e : EngineSel) : Statement (.mmMul rd ra rb e) :=
  meets (engine e) zero (free _) (free _) zero (free _)
theorem mmSqr (rd ra : OpIdx) (e : EngineSel) : Statement (.mmSqr rd ra e) :=
  meets (engine e) zero zero (free _) zero (free _)
theorem mmInv (rd ra : OpIdx) (e : EngineSel) : Statement (.mmInv rd ra e) :=
  meets (engine e) zero zero (free _) zero (free _)
theorem ptSetAffine (rd : PtIdx) (ra rb : OpIdx) : Statement (.ptSetAffine rd ra rb) :=
  meets zero zero (free _) (free _) zero (free _)
theorem ptSetProj (rd : PtIdx) (ra rb rc : OpIdx) : Statement (.ptSetProj rd ra rb rc) :=
  meets zero (free _) (free _) (free _) zero (free _)
theorem ptSetInf (rd : PtIdx) : Statement (.ptSetInf rd) :=
  meets zero zero zero zero zero (free _)
theorem ptGetAffine (rd re : OpIdx) (ra : PtIdx) : Statement (.ptGetAffine rd re ra) :=
  meets zero zero zero (free _) (free _) (free _)
theorem ptCheck (ra : PtIdx) : Statement (.ptCheck ra) :=
  meets zero zero zero (free _) zero zero
theorem ptCmp (ra rb : PtIdx) : Statement (.ptCmp ra rb) :=
  meets zero zero (free _) (free _) zero zero
theorem ptNeg (rd ra : PtIdx) : Statement (.ptNeg rd ra) :=
  meets zero zero zero (free _) zero (free _)
theorem ptDbl (rd ra : PtIdx) : Statement (.ptDbl rd ra) :=
  meets zero zero zero (free _) zero (free _)
theorem ptAdd (rd ra rb : PtIdx) : Statement (.ptAdd rd ra rb) :=
  meets zero zero (free _) (free _) zero (free _)
theorem ptMul (rd ra : PtIdx) (rb : OpIdx) : Statement (.ptMul rd ra rb) :=
  meets zero zero (free _) (free _) zero (free _)
theorem ptMulBase (rd : PtIdx) (ra : OpIdx) : Statement (.ptMulBase rd ra) :=
  meets zero zero zero (free _) zero (free _)
theorem ptMul2 (rd ra : PtIdx) (rb : OpIdx) (rc : PtIdx) (re : OpIdx) : Statement (.ptMul2 rd ra rb rc re) :=
  meets zero (free _) (free _) (free _) (free _) (free _)
theorem genKeypair (rd : OpIdx) (re : PtIdx) : Statement (.genKeypair rd re) :=
  meets zero zero zero zero (free _) (free _)
theorem derivePub (rd : PtIdx) (ra : OpIdx) : Statement (.derivePub rd ra) :=
  meets zero zero zero (free _) zero (free _)
theorem setKeypair (slot : KeySlot) (priv : Option OpIdx) (pub : Option PtIdx) : Statement (.setKeypair slot priv pub) :=
  meets (flag012 _ _ _) zero (free _) (free _) zero zero
theorem sign (rd re ra : OpIdx) (priv : Option OpIdx) : Statement (.sign rd re ra priv) :=
  meets (flag0 _) zero (free _) (free _) (free _) (free _)
theorem verify (ra rb rc : OpIdx) (pub : Option PtIdx) : Statement (.verify ra rb rc pub) :=
  meets (flag0 _) (free _) (free _) (free _) zero (free _)
theorem ecdh (rd : OpIdx) (priv : Option OpIdx) (rb : PtIdx) : Statement (.ecdh rd priv rb) :=
  meets (flag0 _) zero (free _) (free _) zero (free _)

end Sys2Proof.Laws.TableRow
end

