-- ==== Sys2Proof/Tests/Slice0.lean ====
section
/-! SUPPORT. Tests of the model on the vectors of spec 95_test_vectors.md (numbers V3.x.y), the smoke test of
WellFormed, and for every statement with hypotheses a concrete state and operands that meet them
(`witness_<Name>`). Every expected value is the spec's, or the working by hand that its comment gives. -/

namespace Sys2Proof.Tests

open Sys2Proof.Machine

-- The tests are elaborated one after the other, so that they need few threads at a time.
set_option Elab.async false

/-! ### The TOY state (95_test_vectors.md §0) -/

/-- The TOY domain: y² = x³ + 20x + 8 over GF(23), G = (1, 11) of order 31. -/
def toyDomain : Domain where
  set := true
  p := 23
  a := 20
  b := 8
  G := .aff 1 11
  r := 31
  h := 1
  orderBits := 5
  aIsM3 := true

/-- A command in flight under `INIT 5`, the TOY domain, KEY[REG] = (7, [7]G) and KEY[EPH] = (10, [10]G). -/
def toyBase (pol : Policy) : State :=
  { State.reset with
    busy := true
    ctx := { init := true, fieldBits := 5, policy := pol }
    dom := toyDomain
    keyReg := { priv := 7, pub := .aff 13 21 }
    keyEph := { priv := 10, pub := .aff 20 17 } }

/-- The TOY state with operand and point registers loaded. -/
def toy (pol : Policy) (ops : List (OpIdx × Nat)) (pts : List (PtIdx × Point)) : State :=
  pts.foldl (fun s e => s.writePt e.1 e.2) (ops.foldl (fun s e => s.writeOp e.1 e.2) (toyBase pol))

/-- What loading registers leaves as it was. -/
structure ToyLike (s : State) : Prop where
  context : ContextInv s
  dom : s.dom = toyDomain
  flags : s.busy = true ∧ s.done = false ∧ s.err = false ∧ s.code = .ok ∧ s.rngReq = false ∧ s.drawn = [] ∧
    s.inReset = false

theorem toyDomain_valid : toyDomain.Valid 5 where
  p_odd := by decide
  p_ge := by decide
  p_bits := by decide
  a_lt := by decide
  b_lt := by decide
  G_below := ⟨by decide, by decide⟩
  r_odd := by decide
  r_ge := by decide
  r_bits := by decide
  h_bits := by decide
  orderBits_eq := by decide
  aIsM3_eq := by decide

theorem toyBase_like (pol : Policy) : ToyLike (toyBase pol) where
  context :=
    { set_init := fun _ => rfl
      ctx_range := fun _ => show 2 ≤ 5 ∧ 5 ≤ 521 by decide
      ctx_cleared := fun h => (by cases h)
      dom_valid := fun _ => toyDomain_valid
      dom_cleared := fun h => (by cases h)
      pt_valid := fun i P h => by
        have : (toyBase pol).pt i = .empty := by
          show (Vector.replicate 8 PtReg.empty)[i] = _
          simp
        rw [this] at h; cases h
      keyReg_within := show 7 < 32 ∧ 13 < 23 ∧ 21 < 23 by decide
      keyEph_within := show 10 < 32 ∧ 20 < 23 ∧ 17 < 23 by decide }
  dom := rfl
  flags := ⟨rfl, rfl, rfl, rfl, rfl, rfl, rfl⟩

theorem toyOps_like (ops : List (OpIdx × Nat)) : ∀ s, ToyLike s →
    ToyLike (ops.foldl (fun s e => s.writeOp e.1 e.2) s) := by
  induction ops with
  | nil => exact fun _ h => h
  | cons e es ih => exact fun s h => ih _ ⟨h.context.writeOp _ _, h.dom, h.flags⟩

theorem toyPts_like (pts : List (PtIdx × Point)) (hp : ∀ e ∈ pts, e.2.below 23) : ∀ s, ToyLike s →
    ToyLike (pts.foldl (fun s e => s.writePt e.1 e.2) s) := by
  induction pts with
  | nil => exact fun _ h => h
  | cons e es ih =>
    refine fun s h => ih (fun x hx => hp x (List.mem_cons_of_mem _ hx)) _ ⟨h.context.writePt _ ?_ ?_, h.dom, h.flags⟩
    · rw [h.dom]; rfl
    · rw [h.dom]; exact hp e (List.mem_cons_self ..)

/-- The TOY state meets the invariant. -/
theorem toy_inv (pol : Policy) (ops : List (OpIdx × Nat)) (pts : List (PtIdx × Point))
    (hp : ∀ e ∈ pts, e.2.below 23) : (toy pol ops pts).Inv := by
  have h := toyPts_like pts hp _ (toyOps_like ops _ (toyBase_like pol))
  obtain ⟨c, -, b, dn, er, cd, rq, dr, ir⟩ := h
  exact
    { busy_done := fun _ => dn
      set_init := c.set_init
      err_code := by show (toy pol ops pts).err = _; exact er.trans (by rw [show (toy pol ops pts).code = _ from cd]; rfl)
      ctx_range := c.ctx_range
      ctx_cleared := c.ctx_cleared
      dom_valid := c.dom_valid
      dom_cleared := c.dom_cleared
      pt_valid := c.pt_valid
      keyReg_within := c.keyReg_within
      keyEph_within := c.keyEph_within
      idle := fun h' => by rw [show (toy pol ops pts).busy = _ from b] at h'; cases h'
      tries := ⟨by rw [show (toy pol ops pts).drawn = _ from dr]; exact Nat.zero_le _,
        fun h' => by rw [show (toy pol ops pts).rngReq = _ from rq] at h'; cases h'⟩
      held := fun h' => by rw [show (toy pol ops pts).inReset = _ from ir] at h'; cases h' }

/-! ### Reading a run -/

/-- The next state of a command, if it has one. -/
def after (i : Instr) (s : State) : Option State :=
  match exec i s with
  | .next t => some t
  | .fault _ => none
  | .refused _ => none

/-- STATUS.CODE and RESULT after a command. -/
def ends (i : Instr) (s : State) : Option (StatusCode × Word) := (after i s).map fun t => (t.code, t.result)

/-- RESULT and an operand register after a command that ends with OK. -/
def opAfter (i : Instr) (s : State) (j : OpIdx) : Option (Word × Nat) :=
  (after i s).bind fun t => if t.code = .ok && (t.op j).valid then some (t.result, t.opVal j) else none

/-- RESULT and a point register after a command that ends with OK. -/
def ptAfter (i : Instr) (s : State) (j : PtIdx) : Option (Word × PtReg) :=
  (after i s).bind fun t => if t.code = .ok then some (t.result, t.pt j) else none

/-- A next state that passes a test. -/
theorem exists_next {i : Instr} {s : State} (P : State → Prop) [DecidablePred P]
    (h : (after i s).any (fun t => decide (P t)) = true) : ∃ t, exec i s = .next t ∧ P t := by
  unfold after at h
  split at h
  · next t ht => exact ⟨t, ht, by simpa using h⟩
  all_goals simp at h

/-- The next state of a step, if it has one. -/
def afterStep (s : State) : Option State :=
  match step s with
  | .next t => some t
  | .fault _ => none
  | .refused _ => none

/-- A step's next state that passes a test. -/
theorem exists_step {s : State} (P : State → Prop) [DecidablePred P]
    (h : (afterStep s).any (fun t => decide (P t)) = true) : ∃ t, step s = .next t ∧ P t := by
  unfold afterStep at h
  split at h
  · next t ht => exact ⟨t, ht, by simpa using h⟩
  all_goals simp at h

theorem runs {i : Instr} {s : State} (h : (after i s).isSome = true) : ∃ t, exec i s = .next t := by
  unfold after at h
  split at h
  · next t ht => exact ⟨t, ht⟩
  all_goals simp at h

theorem steps {s : State} (h : (afterStep s).isSome = true) : ∃ t, step s = .next t := by
  unfold afterStep at h
  split at h
  · next t ht => exact ⟨t, ht⟩
  all_goals simp at h

/-! ### WellFormed (30_encoding.md R139 case 5) -/

theorem test_wellFormed_ptGetAffine : (Instr.ptGetAffine 4 4 1).wellFormed = false := by decide
theorem test_wellFormed_sign : (Instr.sign 2 2 0 none).wellFormed = false := by decide
theorem test_wellFormed_accepts :
    (Instr.ptGetAffine 4 5 1).wellFormed = true ∧ (Instr.sign 2 3 0 none).wellFormed = true := by decide

/-! ### Decode: a word for every constructor, its nibbles written out as FL RC RB RA RE RD OPC (R131), or
IMM16 Z8 OPC (R132) -/

/-- V3.1.1, V3.1.3 to V3.1.7; opcodes 0x02, 0x04 and 0x05 of R137 with every other bit 0. -/
theorem test_decode_domain :
    decode 0x00000000 = .ok .nop ∧ decode 0x81000001 = .ok (.init .ct 256) ∧
    decode 0x00050001 = .ok (.init .fast 5) ∧ decode 0x82090001 = .ok (.init .ct 521) ∧
    decode 0x00000002 = .ok .setDomain ∧ decode 0x00090003 = .ok (.setStdDomain 9) ∧
    decode 0x00FF0003 = .ok (.setStdDomain 0xFF) ∧ decode 0x00000004 = .ok .getDomain ∧
    decode 0x00000005 = .ok .getOrderBits := by decide

/-- V3.1.8 to V3.1.10. The others: FL = engine, RA the source, RD the destination (R138). -/
theorem test_decode_montgomery :
    decode 0x00000010 = .ok (.mmEnc 0 0 .p) ∧ decode 0x00010310 = .ok (.mmEnc 3 1 .p) ∧
    decode 0x10010311 = .ok (.mmDec 3 1 .n) ∧ decode 0x10210312 = .ok (.mmMul 3 1 2 .n) ∧
    decode 0x00000112 = .ok (.mmMul 1 0 0 .p) ∧ decode 0x000E0F13 = .ok (.mmSqr 15 14 .p) ∧
    decode 0x10070214 = .ok (.mmInv 2 7 .n) := by decide

/-- V3.1.11 to V3.1.13, V3.3.27, V3.3.29. The others by R138. -/
theorem test_decode_points :
    decode 0x00980720 = .ok (.ptSetAffine 7 8 9) ∧ decode 0x02100021 = .ok (.ptSetProj 0 0 1 2) ∧
    decode 0x00000322 = .ok (.ptSetInf 3) ∧ decode 0x00015423 = .ok (.ptGetAffine 4 5 1) ∧
    decode 0x00030024 = .ok (.ptCheck 3) ∧ decode 0x00520025 = .ok (.ptCmp 2 5) ∧
    decode 0x00060126 = .ok (.ptNeg 1 6) ∧ decode 0x00010627 = .ok (.ptDbl 6 1) ∧
    decode 0x00100228 = .ok (.ptAdd 2 0 1) := by decide

/-- V3.1.14, V3.1.15; PT_MUL_BASE pt4, op11 by R138. -/
theorem test_decode_scalar :
    decode 0x00300130 = .ok (.ptMul 1 0 3) ∧ decode 0x000B0431 = .ok (.ptMulBase 4 11) ∧
    decode 0x01103232 = .ok (.ptMul2 2 0 1 1 3) := by decide

/-- V3.1.16 to V3.1.25; DERIVE_PUB pt3, op12 by R138. -/
theorem test_decode_keys :
    decode 0x00002140 = .ok (.genKeypair 1 2) ∧ decode 0x000C0341 = .ok (.derivePub 3 12) ∧
    decode 0x70430042 = .ok (.setKeypair .eph (some 3) (some 4)) ∧
    decode 0x30020042 = .ok (.setKeypair .eph (some 2) none) ∧
    decode 0x00000042 = .ok (.setKeypair .reg none none) ∧
    decode 0x00103243 = .ok (.sign 2 3 0 (some 1)) ∧ decode 0x100BDC43 = .ok (.sign 12 13 11 none) ∧
    decode 0x03200144 = .ok (.verify 0 2 3 (some 1)) ∧ decode 0x1DCB0044 = .ok (.verify 11 12 13 none) ∧
    decode 0x00000145 = .ok (.ecdh 1 (some 0) 0) ∧ decode 0x10700E45 = .ok (.ecdh 14 none 7) := by decide

/-- V3.1.26 to V3.1.34: the illegal words, each with its case of R139. -/
theorem test_decode_illegal_a :
    decode 0x00000006 = .error .unassignedOpcode ∧ decode 0x00000007 = .error .unassignedOpcode ∧
    decode 0x000000FF = .error .unassignedOpcode ∧ decode 0xFFFFFFFF = .error .unassignedOpcode ∧
    decode 0x00000100 = .error .mustBeZero ∧ decode 0x00080028 = .error .pointField ∧
    decode 0x00001123 = .error .sameDestination ∧ decode 0x04050001 = .error .mustBeZero ∧
    decode 0x00050101 = .error .mustBeZero ∧ decode 0x01090003 = .error .mustBeZero ∧
    decode 0x20210312 = .error .mustBeZero := by decide

/-- V3.1.35 to V3.1.43. -/
theorem test_decode_illegal_b :
    decode 0x0000F010 = .error .mustBeZero ∧ decode 0xF0000010 = .error .mustBeZero ∧
    decode 0x30430042 = .error .conditionalZero ∧ decode 0x00FFFF42 = .error .mustBeZero ∧
    decode 0x80430042 = .error .mustBeZero ∧ decode 0x10103243 = .error .conditionalZero ∧
    decode 0x13200144 = .error .conditionalZero ∧ decode 0x10010145 = .error .conditionalZero ∧
    decode 0x08102232 = .error .pointField ∧ decode 0x00008040 = .error .pointField := by decide

/-! ### Context and domain (§3.4) -/

/-- R201. -/
theorem test_nop : ends .nop (toy .fast [] []) = some (.ok, 0) := by decide +kernel
/-- V3.4.4. -/
theorem test_init : ((after (.init .ct 256) State.reset).map fun t => t.configWord) = some 0x50000100 := by
  decide +kernel
/-- V3.4.11. -/
theorem test_init_range : ends (.init .fast 522) State.reset = some (.rangeError, 0xFFFFFFFF) ∧
    ends (.init .fast 1) State.reset = some (.rangeError, 0xFFFFFFFF) := by decide +kernel

/-- The state after `INIT 5, fast` with the seven operands loaded. -/
def domainOps (p a b gx gy r h : Nat) : State :=
  { toy .fast [(0, p), (1, a), (2, b), (3, gx), (4, gy), (5, r), (6, h)] [] with dom := .cleared }

/-- V3.4.3. -/
theorem test_setDomain :
    ((after .setDomain (domainOps 23 20 8 1 11 31 1)).map fun t => t.configWord) = some 0xE0050005 := by
  decide +kernel
/-- V3.4.19, V3.4.26, V3.4.28, V3.4.29. -/
theorem test_setDomain_range :
    ends .setDomain (domainOps 24 20 8 1 11 31 1) = some (.rangeError, 0xFFFFFFFF) ∧
    ends .setDomain (domainOps 23 20 8 1 11 65 1) = some (.rangeError, 0xFFFFFFFF) ∧
    ends .setDomain (domainOps 23 20 8 1 11 37 1) = some (.ok, 0) ∧
    ends .setDomain (domainOps 23 20 8 1 11 31 32) = some (.rangeError, 0xFFFFFFFF) := by decide +kernel

/-- The state after `INIT bits, ct`. -/
def initState (bits : Nat) : State :=
  { State.reset with busy := true, ctx := { init := true, fieldBits := bits, policy := .ct } }

/-- V3.4.5, V3.4.7. -/
theorem test_setStdDomain :
    ((after (.setStdDomain 9) (initState 256)).map fun t => t.configWord) = some 0xF1000100 ∧
    ((after (.setStdDomain 13) (initState 256)).map fun t => t.configWord) = some 0xD1000100 := by
  decide +kernel
/-- V3.4.8, V3.4.13, V3.4.14. -/
theorem test_setStdDomain_errors :
    ends (.setStdDomain 10) (initState 256) = some (.rangeError, 0xFFFFFFFF) ∧
    ends (.setStdDomain 14) (initState 5) = some (.invalidCurveId, 0xFFFFFFFF) ∧
    ends (.setStdDomain 9) State.reset = some (.contextMismatch, 0xFFFFFFFF) := by decide +kernel
/-- V3.4.17. -/
theorem test_getDomain :
    ((after .getDomain (toy .fast [] [])).map fun t => domainRegs.map fun i => t.op i) =
      some ([23, 20, 8, 1, 11, 31, 1].map fun v => { valid := true, value := v }) := by decide +kernel
/-- V3.4.18. -/
theorem test_getOrderBits : ends .getOrderBits (toy .ct [] []) = some (.ok, 5) := by decide +kernel

/-! ### Montgomery engines (§3.2) -/

/-- V3.2.1, V3.2.12. -/
theorem test_mmEnc : opAfter (.mmEnc 1 0 .p) (toy .fast [(0, 5)] []) 1 = some (0, 14) ∧
    opAfter (.mmEnc 1 0 .n) (toy .fast [(0, 7)] []) 1 = some (0, 28) := by decide +kernel
/-- V3.2.17, V3.2.21. -/
theorem test_mmEnc_errors : ends (.mmEnc 1 0 .p) (toy .fast [(0, 23)] []) = some (.rangeError, 0xFFFFFFFF) ∧
    ends (.mmEnc 1 0 .p) (toy .fast [] []) = some (.nullInput, 0xFFFFFFFF) := by decide +kernel
/-- V3.2.2. -/
theorem test_mmDec : opAfter (.mmDec 1 0 .p) (toy .fast [(0, 14)] []) 1 = some (0, 5) := by decide +kernel
/-- V3.2.3, V3.2.13. -/
theorem test_mmMul : opAfter (.mmMul 2 0 1 .p) (toy .fast [(0, 14), (1, 9)] []) 2 = some (0, 22) ∧
    opAfter (.mmMul 2 0 1 .n) (toy .fast [(0, 28), (1, 3)] []) 2 = some (0, 21) := by decide +kernel
/-- V3.2.23: every field names one register. -/
theorem test_mmMul_alias : opAfter (.mmMul 0 0 0 .p) (toy .fast [(0, 14)] []) 0 = some (0, 1) := by
  decide +kernel
/-- V3.2.4. -/
theorem test_mmSqr : opAfter (.mmSqr 1 0 .p) (toy .fast [(0, 14)] []) 1 = some (0, 1) := by decide +kernel
/-- V3.2.5, V3.2.14. -/
theorem test_mmInv : opAfter (.mmInv 1 0 .p) (toy .fast [(0, 14)] []) 1 = some (0, 7) ∧
    opAfter (.mmInv 1 0 .n) (toy .fast [(0, 28)] []) 1 = some (0, 5) := by decide +kernel
/-- V3.2.19. -/
theorem test_mmInv_noInverse : ends (.mmInv 1 0 .p) (toy .fast [(0, 0)] []) = some (.noInverse, 0xFFFFFFFF) := by
  decide +kernel

/-! ### Points (§3.3) -/

/-- V3.3.1, V3.3.2. -/
theorem test_ptSetAffine :
    ptAfter (.ptSetAffine 0 0 1) (toy .fast [(0, 1), (1, 11)] []) 0 = some (0, .valid (.aff 1 11)) ∧
    ptAfter (.ptSetAffine 0 0 1) (toy .fast [(0, 0), (1, 0)] []) 0 = some (0, .valid .inf) := by decide +kernel
/-- V3.3.4. -/
theorem test_ptSetAffine_range :
    ends (.ptSetAffine 0 0 1) (toy .fast [(0, 23), (1, 0)] []) = some (.rangeError, 0xFFFFFFFF) := by decide +kernel
/-- V3.3.5, V3.3.7. -/
theorem test_ptSetProj :
    ptAfter (.ptSetProj 0 0 1 2) (toy .fast [(0, 4), (1, 19), (2, 2)] []) 0 = some (0, .valid (.aff 1 11)) ∧
    ptAfter (.ptSetProj 0 0 1 2) (toy .fast [(0, 0), (1, 0), (2, 1)] []) 0 = some (0, .valid (.aff 0 0)) := by
  decide +kernel
/-- V3.3.6, V3.3.8. -/
theorem test_ptSetProj_inf :
    ptAfter (.ptSetProj 0 0 1 2) (toy .fast [(0, 5), (1, 7), (2, 0)] []) 0 = some (0, .valid .inf) ∧
    ends (.ptSetProj 0 0 1 2) (toy .fast [(0, 1), (1, 11), (2, 23)] []) = some (.rangeError, 0xFFFFFFFF) := by
  decide +kernel
/-- V3.3.27. -/
theorem test_ptSetInf :
    ((after (.ptSetInf 3) (toy .fast [] [])).map fun t => t.ptStateWord) = some 0x0040 := by decide +kernel
/-- V3.3.9, V3.3.10. -/
theorem test_ptGetAffine :
    opAfter (.ptGetAffine 4 5 1) (toy .fast [] [(1, .inf)]) 5 = some (1, 0) ∧
    opAfter (.ptGetAffine 4 5 1) (toy .fast [] [(1, .aff 1 11)]) 4 = some (0, 1) ∧
    opAfter (.ptGetAffine 4 5 1) (toy .fast [] [(1, .aff 1 11)]) 5 = some (0, 11) := by decide +kernel
/-- V3.3.11. -/
theorem test_ptCheck :
    ends (.ptCheck 0) (toy .fast [] [(0, .aff 1 11)]) = some (.ok, 0) ∧
    ends (.ptCheck 0) (toy .fast [] [(0, .inf)]) = some (.ok, 1) ∧
    ends (.ptCheck 0) (toy .fast [] [(0, .aff 1 10)]) = some (.ok, 2) := by decide +kernel
/-- V3.3.29, V3.3.31. -/
theorem test_ptCheck_errors :
    ends (.ptCheck 3) (toy .fast [] [(3, .inf)]).staleAll = some (.contextMismatch, 0xFFFFFFFF) ∧
    ends (.ptCheck 2) (toy .fast [] [(3, .inf)]) = some (.nullInput, 0xFFFFFFFF) := by decide +kernel
/-- V3.3.12. -/
theorem test_ptCmp :
    ends (.ptCmp 0 1) (toy .fast [] [(0, .aff 1 11), (1, .aff 1 11)]) = some (.ok, 0) ∧
    ends (.ptCmp 0 1) (toy .fast [] [(0, .aff 1 11), (1, .aff 1 12)]) = some (.ok, 1) ∧
    ends (.ptCmp 0 1) (toy .fast [] [(0, .inf), (1, .aff 1 11)]) = some (.ok, 1) := by decide +kernel
/-- V3.3.13. -/
theorem test_ptNeg :
    ptAfter (.ptNeg 1 0) (toy .fast [] [(0, .aff 1 11)]) 1 = some (0, .valid (.aff 1 12)) ∧
    ptAfter (.ptNeg 1 0) (toy .fast [] [(0, .inf)]) 1 = some (1, .valid .inf) ∧
    ptAfter (.ptNeg 1 0) (toy .fast [] [(0, .aff 5 0)]) 1 = some (0, .valid (.aff 5 0)) := by decide +kernel
/-- V3.3.14, V3.3.23. -/
theorem test_ptDbl :
    ptAfter (.ptDbl 1 0) (toy .fast [] [(0, .aff 1 11)]) 1 = some (0, .valid (.aff 21 12)) ∧
    ptAfter (.ptDbl 1 0) (toy .fast [] [(0, .aff 5 0)]) 1 = some (1, .valid .inf) ∧
    ptAfter (.ptDbl 1 0) (toy .fast [] [(0, .aff 1 10)]) 1 = some (0, .valid (.aff 21 13)) := by decide +kernel
/-- V3.3.15, V3.3.17, V3.3.20. -/
theorem test_ptAdd :
    ptAfter (.ptAdd 2 0 1) (toy .fast [] [(0, .aff 1 11), (1, .aff 21 12)]) 2 = some (0, .valid (.aff 19 18)) ∧
    ptAfter (.ptAdd 2 0 1) (toy .fast [] [(0, .aff 19 18), (1, .aff 19 5)]) 2 = some (1, .valid .inf) ∧
    ptAfter (.ptAdd 2 0 1) (toy .fast [] [(0, .aff 1 10), (1, .aff 5 0)]) 2 = some (0, .valid (.aff 6 14)) := by
  decide +kernel

/-! ### Scalar multiplication (§3.5) -/

/-- V3.5.1. -/
theorem test_ptMul :
    ptAfter (.ptMul 1 0 3) (toy .fast [(3, 7)] [(0, .aff 1 11)]) 1 = some (0, .valid (.aff 13 21)) ∧
    ptAfter (.ptMul 1 0 3) (toy .ct [(3, 7)] [(0, .aff 1 11)]) 1 = some (0, .valid (.aff 13 21)) := by
  decide +kernel
/-- V3.5.10. -/
theorem test_ptMul_range :
    ends (.ptMul 1 0 3) (toy .fast [(3, 32)] [(0, .aff 1 11)]) = some (.rangeError, 0xFFFFFFFF) := by decide +kernel
/-- V3.5.7. -/
theorem test_ptMulBase :
    ptAfter (.ptMulBase 1 3) (toy .fast [(3, 10)] []) 1 = some (0, .valid (.aff 20 17)) ∧
    ptAfter (.ptMulBase 1 3) (toy .ct [(3, 10)] []) 1 = some (0, .valid (.aff 20 17)) := by decide +kernel
/-- V3.5.8. -/
theorem test_ptMulBase_order :
    ptAfter (.ptMulBase 1 3) (toy .fast [(3, 31)] []) 1 = some (1, .valid .inf) ∧
    ptAfter (.ptMulBase 1 3) (toy .ct [(3, 31)] []) 1 = some (1, .valid .inf) := by decide +kernel
/-- V3.5.12. -/
theorem test_ptMul2 :
    ptAfter (.ptMul2 2 0 1 1 3) (toy .fast [(1, 26), (3, 11)] [(0, .aff 1 11), (1, .aff 13 21)]) 2 =
      some (0, .valid (.aff 20 17)) ∧
    ptAfter (.ptMul2 2 0 1 1 3) (toy .ct [(1, 26), (3, 11)] [(0, .aff 1 11), (1, .aff 13 21)]) 2 =
      some (0, .valid (.aff 20 17)) := by decide +kernel
/-- V3.5.15. -/
theorem test_ptMul2_range :
    ends (.ptMul2 2 0 1 1 3) (toy .fast [(1, 5), (3, 32)] [(0, .aff 1 11), (1, .aff 13 21)]) =
      some (.rangeError, 0xFFFFFFFF) := by decide +kernel

/-! ### Keys, signature, ECDH (§3.6) -/

/-- V3.6.1. -/
theorem test_genKeypair :
    opAfter (.genKeypair 1 2) { toy .fast [] [] with drawn := [0x2A] } 1 = some (0, 10) ∧
    ptAfter (.genKeypair 1 2) { toy .fast [] [] with drawn := [0x2A] } 2 = some (0, .valid (.aff 20 17)) := by
  decide +kernel
/-- V3.6.2 and V3.6.4: 31 is rejected, and the command stays in flight with a request. -/
theorem test_genKeypair_rejects :
    ((after (.genKeypair 1 2) { toy .fast [] [] with drawn := [0x1F] }).map fun t =>
      (t.busy, t.rngReq, t.drawn)) = some (true, true, []) := by decide +kernel
/-- V3.6.5. -/
theorem test_derivePub :
    ptAfter (.derivePub 0 1) (toy .fast [(1, 7)] []) 0 = some (0, .valid (.aff 13 21)) := by decide +kernel
/-- V3.6.6. -/
theorem test_derivePub_range :
    ends (.derivePub 0 1) (toy .fast [(1, 0)] []) = some (.invalidPrivateKey, 0xFFFFFFFF) ∧
    ends (.derivePub 0 1) (toy .fast [(1, 31)] []) = some (.invalidPrivateKey, 0xFFFFFFFF) ∧
    ends (.derivePub 0 1) (toy .fast [(1, 40)] []) = some (.invalidPrivateKey, 0xFFFFFFFF) := by decide +kernel
/-- V3.6.7, V3.6.10. -/
theorem test_setKeypair :
    ((after (.setKeypair .eph (some 0) (some 1)) (toy .fast [(0, 10)] [(1, .aff 20 17)])).map fun t =>
      (t.keyEph, t.keyReg)) = some (⟨10, .aff 20 17⟩, ⟨7, .aff 13 21⟩) ∧
    ((after (.setKeypair .reg none (some 1)) (toy .fast [] [(1, .aff 0 0)])).map fun t => t.keyReg) =
      some ⟨7, .inf⟩ := by decide +kernel
/-- V3.6.8, V3.1.19. -/
theorem test_setKeypair_errors :
    ends (.setKeypair .reg (some 0) none) (toy .fast [(0, 40)] []) = some (.rangeError, 0xFFFFFFFF) ∧
    ends (.setKeypair .reg none none) (toy .fast [] []) = some (.nullInput, 0xFFFFFFFF) := by decide +kernel
/-- V3.6.11. -/
theorem test_sign :
    opAfter (.sign 2 3 0 (some 1)) (toy .fast [(0, 5), (1, 7)] []) 2 = some (0, 20) ∧
    opAfter (.sign 2 3 0 none) (toy .fast [(0, 5)] []) 3 = some (0, 30) := by decide +kernel
/-- V3.6.12, V3.6.13, V3.6.16. -/
theorem test_sign_errors :
    ends (.sign 2 3 0 none) { toy .fast [(0, 5)] [] with keyEph := ⟨15, .aff 0 10⟩ } =
      some (.ephemeralKeyError, 0xFFFFFFFF) ∧
    ends (.sign 2 3 0 none) (toy .fast [(0, 15)] []) = some (.ephemeralKeyError, 0xFFFFFFFF) ∧
    ends (.sign 2 3 0 (some 1)) (toy .fast [(0, 31), (1, 0)] []) = some (.messageError, 0xFFFFFFFF) := by
  decide +kernel
/-- V3.6.18, V3.6.27. -/
theorem test_verify :
    ends (.verify 0 2 3 (some 1)) (toy .fast [(0, 5), (2, 20), (3, 30)] [(1, .aff 13 21)]) = some (.ok, 0) ∧
    ends (.verify 0 2 3 none) { toy .fast [(0, 5), (2, 20), (3, 30)] [] with keyReg := .cleared } =
      some (.ok, 1) := by decide +kernel
/-- V3.6.19, V3.6.20, V3.6.24, V3.6.25. -/
theorem test_verify_corners :
    ends (.verify 0 2 3 none) (toy .ct [(0, 4), (2, 20), (3, 30)] []) = some (.ok, 1) ∧
    ends (.verify 0 2 3 none) (toy .ct [(0, 31), (2, 20), (3, 30)] []) = some (.messageError, 0xFFFFFFFF) ∧
    ends (.verify 0 2 3 none) (toy .ct [(0, 5), (2, 20), (3, 0)] []) = some (.ok, 1) ∧
    ends (.verify 0 2 3 none) (toy .ct [(0, 15), (2, 0), (3, 1)] []) = some (.ok, 0) := by decide +kernel
/-- V3.6.28, V3.6.33. -/
theorem test_ecdh :
    opAfter (.ecdh 1 (some 0) 0) (toy .fast [(0, 2)] [(0, .aff 15 16)]) 1 = some (0, 20) ∧
    opAfter (.ecdh 1 none 0) (toy .fast [] [(0, .aff 16 10)]) 1 = some (0, 19) := by decide +kernel
/-- V3.6.31, V3.6.32. -/
theorem test_ecdh_errors :
    ends (.ecdh 1 (some 0) 0) (toy .fast [(0, 31)] [(0, .aff 1 11)]) = some (.shareKeyError, 0xFFFFFFFF) ∧
    ends (.ecdh 1 (some 0) 0) (toy .fast [(0, 32)] [(0, .aff 1 11)]) = some (.rangeError, 0xFFFFFFFF) := by
  decide +kernel

/-! ### Completion, bus and reset (§3.7, §3.8) -/

/-- V3.7.1, V3.1.26: STATUS after an illegal word. -/
theorem test_illegal :
    (match step { State.reset with busy := true, lastCmd := 0x00000006 } with
      | .next t => some (t.statusWord, t.result, t.lastCmd)
      | .fault _ => none
      | .refused _ => none) = some (0x0A06, 0xFFFFFFFF, 0x00000006) := by decide +kernel
/-- V3.8.5, V3.8.7. -/
theorem test_operand_window :
    ((State.reset.busWrite 0x2C0 .word 1).opVal 3 = 2 ^ 512 ∧
      (State.reset.busWrite 0x2C0 .word 1).opValidWord = 0x0008) ∧
    (((State.reset.busWrite 0x2C0 .word 1).busWrite 0x018 .word 0x8).opVal 3 = 2 ^ 512 ∧
      ((State.reset.busWrite 0x2C0 .word 1).busWrite 0x018 .word 0x8).opValidWord = 0) := by decide +kernel
/-- V3.8.17: the low byte of a word is on lane 0, and little-endian words make up the operand. -/
theorem test_byte_order : byteLane 0x04030201 0 = 0x01 ∧ byteLane 0x04030201 3 = 0x04 ∧
    (State.reset.busWrite 0x100 .word 0x04030201).opVal 0 = 0x04030201 ∧
    (State.reset.busWrite 0x104 .word 0x04030201).opVal 0 = 0x0403020100000000 := by decide +kernel
/-- V3.8.4, V3.8.6. -/
theorem test_bus_errors :
    State.reset.busWrite 0x144 .word 0x12345678 = { State.reset with resp := some ⟨true, 0⟩ } ∧
    State.reset.busRead 0x102 .word = { State.reset with resp := some ⟨false, 0⟩ } ∧
    State.reset.busRead 0x004 .word = { State.reset with resp := some ⟨true, 0x007F4609⟩ } := by decide +kernel
/-- V3.8.8, V3.8.10. -/
theorem test_overrun :
    ((State.reset.busWrite 0x010 .word 0).busWrite 0x010 .word 5).statusWord = 0x0009 ∧
    ((State.reset.busWrite 0x010 .word 0).busWrite 0x100 .word 5).statusWord = 0x0009 ∧
    ((State.reset.busWrite 0x010 .word 0).busWrite 0x010 .word 5).lastCmd = 0 := by decide +kernel
/-- V3.8.13, V3.8.14. -/
theorem test_soft_reset :
    (toy .ct [(0, 1)] [(0, .inf)]).busWrite 0x008 .word 3 =
      { State.reset with resp := some ⟨true, 0⟩ } := by decide +kernel
/-- R142: the assembler lines of V3.1.9 and V3.1.23. -/
theorem test_asm : asm (.mmMul 3 1 2 .n) = "MM_MUL.n op3, op1, op2" ∧
    asm (.verify 11 12 13 none) = "VERIFY.reg op11, op12, op13" := by decide +kernel

/-! ### Witnesses: for every statement with hypotheses, inputs that meet them, clause by clause at the ends of
the ranges -/

/-- The order-31 and field primes of TOY. -/
theorem prime_23 : toyDomain.p.Prime := by show Nat.Prime 23; norm_num
theorem prime_31 : toyDomain.r.Prime := by show Nat.Prime 31; norm_num

theorem no_points : ∀ e ∈ ([] : List (PtIdx × Point)), e.2.below 23 := by simp

theorem witness_DecodeEncodeRoundTrip : (Instr.sign 2 3 15 none).wellFormed = true := by decide

theorem witness_EncodeDecodeRoundTrip : decode 0x10700E45 = .ok (.ecdh 14 none 7) := by decide

theorem witness_StepRunsInFlightCommand :
    ((toy .ct [] []).inputs = [] ∧ (toy .ct [] []).busy = true ∧ decode (toy .ct [] []).lastCmd = .ok .nop) ∧
    (State.reset.inputs = [] ∧ State.reset.busy = false) ∧
    (({ State.reset with inputs := [.run] } : State).inputs.head? = some .run) ∧
    (Instr.ptCheck 3).wellFormed = true := by decide +kernel

/-- No command encodes to 0x00000006: its opcode is unassigned (R137). -/
theorem witness_IllegalWordCompletes :
    ({ State.reset with busy := true, lastCmd := 6 } : State).busy = true ∧
    ∀ i : Instr, i.wellFormed = true → encode i ≠ ({ State.reset with busy := true, lastCmd := 6 } : State).lastCmd := by
  refine ⟨rfl, fun i _ h => ?_⟩
  have h2 : opcField (encode i) = 6 := by rw [h]; decide
  cases i <;> simp only [encode, packI_eq_packR, opcField_packR] at h2 <;> exact absurd h2 (by decide)

theorem witness_StepKeepsInvariant :
    (toy .fast [(0, 5)] []).Inv ∧ ∃ t, step (toy .fast [(0, 5)] []) = .next t :=
  ⟨toy_inv _ _ _ no_points, steps (by decide +kernel)⟩

theorem witness_StepStopsOnlyInReset :
    (({ State.reset with inReset := true, inputs := [.read 0 .word] } : State).inReset = true ∧
      ∃ a w, ({ State.reset with inReset := true, inputs := [.read 0 .word] } : State).inputs.head? =
        some (.read a w)) ∧
    ∃ a w v, ({ State.reset with inReset := true, inputs := [.write 0xFFF .byte 1] } : State).inputs.head? =
      some (.write a w v) :=
  ⟨⟨rfl, _, _, rfl⟩, _, _, _, rfl⟩

theorem witness_EveryCommandCompletesOnce : (toy .ct [] []).busy = true := by decide +kernel

theorem witness_ErrorsChangeNothing : (toy .fast [(0, 23)] []).busy = true ∧
    (toy .fast [(0, 23)] []).compositeP = false ∧
    ∃ t, exec (.mmEnc 1 0 .p) (toy .fast [(0, 23)] []) = .next t ∧ t.busy = false ∧ t.code ≠ .ok :=
  ⟨by decide +kernel, by decide +kernel, exists_next _ (by decide +kernel)⟩

theorem witness_RegisterFrame :
    ((∃ t, exec (.mmEnc 1 0 .p) (toy .fast [(0, 5)] []) = .next t) ∧ (0 : OpIdx) ∉ destOps (.mmEnc 1 0 .p)) ∧
    ((0 : PtIdx) ∉ destPts (.ptDbl 1 0) ∧ changesContext (.ptDbl 1 0) = false) ∧
    changesContext (.init .ct 5) = true :=
  ⟨⟨runs (by decide +kernel), by decide⟩, by decide, by decide⟩

theorem witness_ControlFrame : (∃ t, exec (.setKeypair .eph (some 0) none) (toy .fast [(0, 5)] []) = .next t) ∧
    changesContext (.setKeypair .eph (some 0) none) = false ∧
    (∀ p q, Instr.setKeypair .eph (some 0) none ≠ .setKeypair .reg p q) ∧
    (∀ p q, Instr.setKeypair .reg (some 0) none ≠ .setKeypair .eph p q) ∧
    (∀ p f, Instr.setKeypair .eph (some 0) none ≠ .init p f) :=
  ⟨runs (by decide +kernel), by decide, by simp, by simp, by simp⟩

/-- m − 1 and m for each engine. -/
theorem witness_MmEncRule : ∀ v ∈ [22, 23], ∀ w ∈ [30, 31],
    (toy .fast [(0, v)] []).ready (.mmEnc 1 0 .p) = true ∧ (toy .fast [(0, w)] []).ready (.mmEnc 1 0 .n) = true ∧
    (toy .fast [(0, v)] []).opVal 0 = v ∧ (toy .fast [(0, w)] []).opVal 0 = w ∧
    (toy .fast [(0, v)] []).dom.p = 23 ∧ (toy .fast [(0, w)] []).dom.r = 31 := by decide +kernel

theorem witness_MmDecRule : (∀ v ∈ [22, 23], (toy .fast [(0, v)] []).ready (.mmDec 1 0 .p) = true) ∧
    ∀ v, (toy .fast [(0, v)] []).Inv := ⟨by decide +kernel, fun _ => toy_inv _ _ _ no_points⟩

theorem witness_MmMulSqrRule :
    (∀ v ∈ [22, 23], ∀ w ∈ [22, 23], (toy .fast [(0, v), (1, w)] []).ready (.mmMul 2 0 1 .p) = true ∧
      (toy .fast [(0, v), (1, w)] []).ready (.mmSqr 2 0 .p) = true ∧
      (toy .fast [(0, v), (1, w)] []).opVal 0 = v ∧ (toy .fast [(0, v), (1, w)] []).opVal 1 = w) ∧
    ∀ v w, (toy .fast [(0, v), (1, w)] []).Inv := ⟨by decide +kernel, fun _ _ => toy_inv _ _ _ no_points⟩

/-- 0 has no inverse, 22 has one, 23 is out of range. -/
theorem witness_MmInvRule :
    (∀ v ∈ [0, 22, 23], (toy .fast [(0, v)] []).ready (.mmInv 1 0 .p) = true) ∧
    Nat.gcd ((toy .fast [(0, 0)] []).opVal 0) 23 ≠ 1 ∧ Nat.gcd ((toy .fast [(0, 22)] []).opVal 0) 23 = 1 ∧
    ∀ v, (toy .fast [(0, v)] []).Inv :=
  ⟨by decide +kernel, by decide +kernel, by decide +kernel, fun _ => toy_inv _ _ _ no_points⟩

/-- Operands 22 and 22 in OP0 and OP1, points G in PT0 and INF in PT1. -/
theorem witness_PseudoInstructionsCompute : ∀ s, s = toy .fast [(0, 22), (1, 22)] [(0, .aff 1 11), (1, .inf)] →
    s.Inv ∧ s.dom.set = true ∧ (s.op 0).valid = true ∧ (s.op 1).valid = true ∧ s.opVal 0 < s.dom.p ∧
    s.opVal 1 < s.dom.p ∧ Nat.gcd (s.opVal 0) s.dom.p = 1 ∧ s.compositeP = false ∧
    s.pt 0 = .valid (.aff 1 11) ∧ s.pt 1 = .valid .inf := by
  rintro s rfl
  exact ⟨toy_inv _ _ _ (by simp [Point.below]), by decide +kernel⟩

theorem witness_NopRule : opcField 0x00000100 = 0 ∧ (0x00000100 : Word) ≠ 0 := by decide

theorem witness_InitRule : (BitVec.toNat (1 : BitVec 10) < 2) ∧ 521 < (522#10).toNat ∧
    2 ≤ (2#10).toNat ∧ (521#10).toNat ≤ 521 := by decide

/-- OP6 not VALID; no context; p = 24; the TOY tuple. -/
theorem witness_SetDomainRule :
    (State.reset.op 6).valid = false ∧
    (∀ i : OpIdx, i.val ≤ 6 → ((domainOps 23 20 8 1 11 31 1).op i).valid = true) ∧
    ({ domainOps 23 20 8 1 11 31 1 with ctx := .cleared } : State).ctx.init = false ∧
    (domainOps 23 20 8 1 11 31 1).ctx.init = true ∧
    CurveTuple.Fits { p := 23, a := 20, b := 8, gx := 1, gy := 11, r := 31, h := 1 } 5 ∧
    ¬ CurveTuple.Fits { p := 24, a := 20, b := 8, gx := 1, gy := 11, r := 31, h := 1 } 5 :=
  ⟨by decide +kernel, by decide +kernel, rfl, by decide +kernel, by unfold CurveTuple.Fits; decide,
    by unfold CurveTuple.Fits; decide⟩

theorem witness_SetStdDomainRule :
    State.reset.ctx.init = false ∧ (initState 256).ctx.init = true ∧ catalog 14 = none ∧ catalog 0 = none ∧
    ∃ t, catalog 9 = some t ∧ t.Fits 256 ∧ ¬ t.Fits 255 :=
  ⟨rfl, rfl, by decide, by decide, secp256r1, rfl, by unfold CurveTuple.Fits; decide +kernel,
    by unfold CurveTuple.Fits; decide +kernel⟩

theorem witness_CatalogEntries : (catalog 1).isSome = true ∧ (catalog 13).isSome = true := by decide

theorem witness_GetDomainOrderBitsRule : (toy .fast [] []).ready .getDomain = true ∧
    (toy .fast [] []).ready .getOrderBits = true := by decide +kernel

theorem witness_DomainReadsBack :
    ∃ t, exec .setDomain (domainOps 23 20 8 1 11 31 1) = .next t ∧ t.code = .ok :=
  exists_next _ (by decide +kernel)

/-- 22 and 23 for each coordinate. -/
theorem witness_PtSetAffineInfRule : ∀ v ∈ [22, 23], ∀ w ∈ [22, 23],
    (toy .fast [(0, v), (1, w)] []).compositeP = false ∧
    (toy .fast [(0, v), (1, w)] []).ready (.ptSetAffine 7 0 1) = true ∧
    (toy .fast [(0, v), (1, w)] []).ready (.ptSetInf 7) = true := by decide +kernel

theorem witness_PtSetProjRule : (∀ v ∈ [22, 23], ∀ z ∈ [0, 1, 22, 23],
    (toy .fast [(0, v), (1, 22), (2, z)] []).compositeP = false ∧
    (toy .fast [(0, v), (1, 22), (2, z)] []).ready (.ptSetProj 7 0 1 2) = true ∧
    (toy .fast [(0, v), (1, 22), (2, z)] []).opVal 2 = z) ∧ (toy .fast [] []).dom.p.Prime :=
  ⟨by decide +kernel, prime_23⟩

theorem witness_PtGetAffineRule : (4 : OpIdx) ≠ 5 ∧
    (toy .fast [] [(1, .inf)]).compositeP = false ∧ (toy .fast [] [(1, .inf)]).ready (.ptGetAffine 4 5 1) = true ∧
    (toy .fast [] [(1, .inf)]).pt 1 = .valid .inf ∧
    (toy .fast [] [(1, .aff 22 0)]).ready (.ptGetAffine 4 5 1) = true ∧
    (toy .fast [] [(1, .aff 22 0)]).pt 1 = .valid (.aff 22 0) := by decide +kernel

theorem witness_PtCheckCmpRule :
    ∀ s, s = toy .fast [] [(0, .aff 1 11), (1, .aff 1 10), (2, .inf)] →
    s.compositeP = false ∧ s.ready (.ptCheck 0) = true ∧ s.ready (.ptCheck 1) = true ∧
    s.ready (.ptCheck 2) = true ∧ s.ready (.ptCmp 0 0) = true ∧ s.ready (.ptCmp 0 1) = true ∧
    s.pt 0 = .valid (.aff 1 11) ∧ s.pt 1 = .valid (.aff 1 10) ∧ s.pt 2 = .valid .inf := by
  rintro s rfl; decide +kernel

theorem witness_PtNegDblAddRule :
    ∀ s, s = toy .fast [] [(0, .aff 1 22), (1, .aff 22 0), (2, .inf)] →
    s.compositeP = false ∧ s.ready (.ptNeg 7 0) = true ∧ s.ready (.ptNeg 7 2) = true ∧
    s.ready (.ptDbl 7 1) = true ∧ s.ready (.ptAdd 7 0 1) = true ∧ s.pt 0 = .valid (.aff 1 22) ∧
    s.pt 1 = .valid (.aff 22 0) ∧ s.pt 2 = .valid .inf := by
  rintro s rfl; decide +kernel

theorem witness_InverseIsInverse : 1 < 31 ∧ Nat.gcd 30 31 = 1 := by decide

/-- y = 0 and y = 22. -/
theorem witness_DblIsTangentRule : toyDomain.p.Prime ∧ toyDomain.p ≠ 2 ∧ 22 < toyDomain.p ∧ 0 < toyDomain.p :=
  ⟨prime_23, by decide⟩

theorem witness_AddIsChordRule : toyDomain.p.Prime ∧ toyDomain.p ≠ 2 ∧ 1 < toyDomain.p ∧ 11 < toyDomain.p ∧
    21 < toyDomain.p ∧ 12 < toyDomain.p := ⟨prime_23, by decide⟩

theorem witness_GroupLawIdentities : toyDomain.p.Prime ∧ toyDomain.p ≠ 2 ∧ (Point.aff 1 10).below toyDomain.p ∧
    (Point.aff 22 0).below toyDomain.p :=
  ⟨prime_23, by decide, ⟨by decide, by decide⟩, by decide, by decide⟩

theorem witness_OnCurvePointsFormGroup : toyDomain.p.Prime ∧ toyDomain.p ≠ 2 ∧
    (4 * toyDomain.a ^ 3 + 27 * toyDomain.b ^ 2) % toyDomain.p ≠ 0 ∧ (Point.aff 1 11).below toyDomain.p ∧
    (Point.aff 21 12).below toyDomain.p ∧ toyDomain.onCurve (.aff 1 11) = true ∧
    toyDomain.onCurve (.aff 21 12) = true ∧ toyDomain.onCurve .inf = true ∧ toyDomain.smooth (.aff 1 11) ∧
    toyDomain.smooth (.aff 21 12) ∧ toyDomain.smooth .inf :=
  ⟨prime_23, by decide, by decide, ⟨by decide, by decide⟩, ⟨by decide, by decide⟩, by decide, by decide, by decide,
    by unfold Domain.smooth; decide, by unfold Domain.smooth; decide, trivial⟩

/-- y² = x³ over p = 23, a singular curve. -/
def cuspDomain : Domain := { toyDomain with a := 0, b := 0 }

/-- Log entry 10: through the singular point (0, 0) the addition of R281 is not associative; (1, 1) is an on-curve
point of the same curve that is not singular. -/
theorem test_singular_point_breaks_associativity :
    cuspDomain.onCurve (.aff 0 0) = true ∧ cuspDomain.onCurve (.aff 1 1) = true ∧
    ¬ cuspDomain.smooth (.aff 0 0) ∧ cuspDomain.smooth (.aff 1 1) ∧
    cuspDomain.add (cuspDomain.add (.aff 1 1) (.aff 0 0)) (.aff 0 0) = .inf ∧
    cuspDomain.add (.aff 1 1) (cuspDomain.add (.aff 0 0) (.aff 0 0)) = .aff 1 1 :=
  ⟨by decide, by decide, by unfold Domain.smooth; decide, by unfold Domain.smooth; decide, by decide +kernel,
    by decide +kernel⟩

theorem witness_JacobianDatapathRefines : toyDomain.p.Prime ∧ toyDomain.p ≠ 2 ∧
    (Jacobian.mk 4 19 2).X < toyDomain.p ∧ (Jacobian.mk 4 19 2).Y < toyDomain.p ∧
    (Jacobian.mk 22 22 0).Z < toyDomain.p ∧ (toyDomain.a + 3) % toyDomain.p = 0 := ⟨prime_23, by decide⟩

theorem witness_FastMulIsMultiple : toyDomain.p.Prime ∧ toyDomain.p ≠ 2 ∧ toyDomain.G.below toyDomain.p ∧
    toyDomain.onCurve toyDomain.G = true := ⟨prime_23, by decide, ⟨by decide, by decide⟩, by decide⟩

/-- The largest scalar of 5 bits. -/
theorem witness_CtMulIsMultiple : toyDomain.p.Prime ∧ toyDomain.p ≠ 2 ∧ bitlen 31 ≤ toyDomain.orderBits ∧
    toyDomain.G.below toyDomain.p ∧ toyDomain.onCurve toyDomain.G = true :=
  ⟨prime_23, by decide, by decide, ⟨by decide, by decide⟩, by decide⟩

theorem witness_TwoScalarProductIsSum : toyDomain.p.Prime ∧ toyDomain.p ≠ 2 ∧ bitlen 31 ≤ toyDomain.orderBits ∧
    bitlen 0 ≤ toyDomain.orderBits ∧ (Point.aff 21 12).below toyDomain.p ∧
    toyDomain.onCurve (.aff 21 12) = true ∧ toyDomain.onCurve .inf = true :=
  ⟨prime_23, by decide, by decide, by decide, ⟨by decide, by decide⟩, by decide, by decide⟩

/-- The letters of the CT schedule for TOY (95_test_vectors.md section 3.5), for k = 7, and the operand registers of
its steps around the first scan and at the end (the pseudocode of R325 and R328). -/
theorem test_ct_schedule_toy :
    ((ctMul toyDomain 7 toyDomain.G).ops.map GroupOp.kind) =
      List.replicate 15 .add ++ [.scan] ++ [.dbl, .dbl, .dbl, .dbl, .scan, .add] ++
        [.dbl, .dbl, .dbl, .dbl, .scan, .add] ++ List.replicate 9 .dbl ++ [.add] ∧
    ((ctMul toyDomain 7 toyDomain.G).ops.drop 14).take 3 =
      [.add (.tbl 16) (.tbl 15) .P, .scan .R 16, .dbl .R .R] ∧
    (ctMul toyDomain 7 toyDomain.G).ops.drop 36 = [.dbl .C .C, .add .R .R .N] := by decide +kernel

theorem witness_CtScheduleIndependentOfScalar :
    toyDomain.orderBits = ({ toyDomain with a := 3, b := 5 } : Domain).orderBits ∧ toyDomain.orderBits ≤ 256 := by
  decide

theorem witness_RecodingDigits : 2 ≤ 4 ∧ 255 < 2 ^ (4 * 2) := by decide

/-- 31 and 32: the last scalar in range and the first out of it. -/
theorem witness_PtMulRule : (∀ v ∈ [31, 32], ∀ s, s = toy .ct [(3, v)] [(0, .aff 1 11)] →
    s.compositeP = false ∧ s.ready (.ptMul 1 0 3) = true ∧ s.ready (.ptMulBase 1 3) = true ∧
    s.pt 0 = .valid (.aff 1 11) ∧ s.opVal 3 = v ∧ s.dom.onCurve s.dom.G = true) ∧
    (toy .ct [(3, 31)] [(0, .aff 1 11)]).Inv ∧ (toy .ct [] []).dom.p.Prime := by
  refine ⟨?_, toy_inv _ _ _ (by simp [Point.below]), prime_23⟩
  intro v hv s rfl; simp at hv; rcases hv with rfl | rfl <;> decide +kernel

theorem witness_PtMul2Rule : (∀ v ∈ [31, 32], ∀ s, s = toy .ct [(1, v), (3, 31)] [(0, .aff 1 11), (1, .inf)] →
    s.compositeP = false ∧ s.ready (.ptMul2 2 0 1 1 3) = true ∧ s.pt 0 = .valid (.aff 1 11) ∧
    s.pt 1 = .valid .inf ∧ s.opVal 1 = v ∧ s.opVal 3 = 31) ∧
    (toy .ct [(1, 31), (3, 31)] [(0, .aff 1 11), (1, .inf)]).Inv ∧ (toy .ct [] []).dom.p.Prime := by
  refine ⟨?_, toy_inv _ _ _ (by simp [Point.below]), prime_23⟩
  intro v hv s rfl; simp at hv; rcases hv with rfl | rfl <;> decide +kernel

theorem witness_PolicyUnobservable : (toy .fast [(3, 7)] [(0, .aff 1 11)]).Inv ∧
    (toy .fast [] []).dom.p.Prime ∧
    (∀ s, s = toy .fast [(3, 7)] [(0, .aff 1 11)] → s.dom.onCurve s.dom.G = true ∧
      s.dom.onCurve s.keyReg.pub = true ∧ ∀ j P, s.pt j = .valid P → s.dom.onCurve P = true) ∧
    (∀ q f, Instr.ptMul 1 0 3 ≠ .init q f) ∧ ∃ t, exec (.ptMul 1 0 3) (toy .fast [(3, 7)] [(0, .aff 1 11)]) = .next t := by
  refine ⟨toy_inv _ _ _ (by simp [Point.below]), prime_23, ?_, by simp, runs (by decide +kernel)⟩
  rintro s rfl
  refine ⟨by decide +kernel, by decide +kernel, fun j P h => ?_⟩
  have hj : ∀ j : PtIdx, (toy .fast [(3, 7)] [(0, .aff 1 11)]).pt j = .empty ∨
      (toy .fast [(3, 7)] [(0, .aff 1 11)]).pt j = .valid (.aff 1 11) := by decide +kernel
  rcases hj j with h' | h' <;> rw [h'] at h <;> cases h
  decide +kernel

/-- No word yet; a rejected word (31 ≥ r, and 0); the words of the keys 1 and 30. -/
theorem witness_GenKeypairRule : (toy .fast [] []).Inv ∧ (toy .fast [] []).ready (.genKeypair 1 2) = true ∧
    (toy .fast [] []).dom.p.Prime ∧ (toy .fast [] []).drawn.length < (bitlen 31 + 31) / 32 ∧
    ([0x1F] : List Word).length = (bitlen 31 + 31) / 32 ∧ ¬ (0 < sampleValue 5 [0x1F] ∧ sampleValue 5 [0x1F] < 31) ∧
    ¬ (0 < sampleValue 5 [0xFFFFFFE0]) ∧ (0 < sampleValue 5 [0x21] ∧ sampleValue 5 [0x3E] < 31) :=
  ⟨toy_inv _ _ _ no_points, by decide +kernel, prime_23, by decide +kernel⟩

/-- Two rejected words, then 0x2A (V3.6.1 to V3.6.3). -/
def rngState : State :=
  { toy .fast [] [] with
    lastCmd := encode (.genKeypair 1 2)
    inputs := [.run, .rng 0x1F, .run, .rng 0xFFFFFFE0, .run, .rng 0x2A, .run] }

theorem witness_GenKeypairCompletesAfterRejections : rngState.Inv ∧ rngState.dom.p.Prime ∧
    rngState.ready (.genKeypair 1 2) = true ∧ rngState.dom.onCurve rngState.dom.G = true ∧
    rngState.busy = true ∧ rngState.lastCmd = encode (.genKeypair 1 2) ∧ rngState.drawn = [] ∧
    rngState.rngReq = false ∧
    (∀ l ∈ [[0x1F#32], [0xFFFFFFE0#32]], l.length = (bitlen rngState.dom.r + 31) / 32 ∧
      ¬ (0 < sampleValue (bitlen rngState.dom.r) l ∧ sampleValue (bitlen rngState.dom.r) l < rngState.dom.r)) ∧
    ([0x2A#32]).length = (bitlen rngState.dom.r + 31) / 32 ∧ 10 = sampleValue (bitlen rngState.dom.r) [0x2A] ∧
    10 < rngState.dom.r ∧
    rngState.inputs = (([[0x1F#32], [0xFFFFFFE0#32]].flatten ++ [0x2A]).flatMap fun w => [Input.run, Input.rng w]) ++
      .run :: [] := by
  have h := toy_inv .fast [] [] no_points
  exact ⟨⟨h.1, h.2, h.3, h.4, h.5, h.6, h.7, h.8, h.9, h.10, h.11, h.12, fun h' => by cases h'⟩, prime_23,
    by decide +kernel⟩

theorem witness_RngWordsTakenOnlyOnRequest :
    ({ toy .fast [] [] with rngReq := true } : State).rngReq = true ∧ (toy .fast [] []).rngReq = false ∧
    (∃ t, step { toy .fast [] [] with rngReq := true, inputs := [.rng 5] } = .next t ∧
      ({ toy .fast [] [] with rngReq := true, inputs := [.rng 5] } : State).drawn.length < t.drawn.length) ∧
    ∃ t, step { toy .fast [] [] with lastCmd := encode (.genKeypair 1 2) } = .next t ∧ t.rngReq = true :=
  ⟨rfl, by decide +kernel, exists_step _ (by decide +kernel), exists_step _ (by decide +kernel)⟩

/-- 0, 1, 30 and 31. -/
theorem witness_DerivePubRule : (∀ v ∈ [0, 1, 30, 31], (toy .fast [(1, v)] []).ready (.derivePub 0 1) = true ∧
    (toy .fast [(1, v)] []).compositeP = false ∧ (toy .fast [(1, v)] []).opVal 1 = v) ∧
    (toy .fast [] []).dom.p.Prime ∧ ∀ v, (toy .fast [(1, v)] []).Inv :=
  ⟨by decide +kernel, prime_23, fun _ => toy_inv _ _ _ no_points⟩

/-- priv of 5 and of 6 bits, and a public key at INF_ENC(b); without a public key also for p = 21. -/
theorem witness_SetKeypairRule : (∀ v ∈ [31, 32], ∀ s, s = toy .fast [(0, v)] [(1, .aff 0 0)] →
    s.compositeP = false ∧ s.ready (.setKeypair .eph (some 0) (some 1)) = true ∧
    s.ready (.setKeypair .reg (some 0) none) = true ∧ s.ready (.setKeypair .reg none (some 1)) = true ∧
    bitlen (s.opVal 0) = (if v = 31 then 5 else 6) ∧ s.pt 1 = .valid (.aff 0 0)) ∧
    (∀ v ∈ [31, 32], ∀ s, s = { toy .fast [(0, v)] [] with dom := { toyDomain with p := 21 } } →
      s.compositeP = true ∧ s.ready (.setKeypair .reg (some 0) none) = true ∧
      bitlen (s.opVal 0) = (if v = 31 then 5 else 6)) := by
  constructor <;> (intro v hv s rfl; simp at hv; rcases hv with rfl | rfl <;> decide +kernel)

/-- e = 30 and 31; d = 0, 30 and 31; the three causes of EphemeralKeyError; a signature. -/
theorem witness_SignRule : (∀ e ∈ [30, 31], ∀ d ∈ [0, 30, 31], ∀ s, s = toy .fast [(0, e), (1, d)] [] →
    s.Inv ∧ s.compositeP = false ∧ s.ready (.sign 2 3 0 (some 1)) = true ∧ s.opVal 0 = e ∧ s.opVal 1 = d) ∧
    (0 % 31 = 0 ∧ Nat.gcd 31 31 ≠ 1 ∧ (15 + 7 * 20) % 31 = 0) ∧
    (20 % 31 ≠ 0 ∧ Nat.gcd 10 31 = 1 ∧ (5 + 7 * 20) % 31 ≠ 0) ∧ (toy .fast [(0, 5)] []).ready (.sign 2 3 0 none) = true := by
  refine ⟨?_, by decide, by decide, by decide +kernel⟩
  intro e he d hd s rfl
  refine ⟨toy_inv _ _ _ no_points, ?_⟩
  simp at he hd
  rcases he with rfl | rfl <;> rcases hd with rfl | rfl | rfl <;> decide +kernel

/-- The signature (20, 30) of e = 5 with its inverse h = 30, and the out-of-range components 31 and 0. -/
theorem witness_VerifyRule : (∀ e ∈ [30, 31], ∀ sx ∈ [30, 31], ∀ sy ∈ [0, 30, 31], ∀ s,
    s = toy .fast [(0, e), (2, sx), (3, sy)] [(1, .aff 13 21)] →
    s.Inv ∧ s.compositeP = false ∧ s.ready (.verify 0 2 3 (some 1)) = true ∧ s.ready (.verify 0 2 3 none) = true ∧
    s.opVal 0 = e ∧ s.opVal 2 = sx ∧ s.opVal 3 = sy ∧ s.pt 1 = .valid (.aff 13 21) ∧ s.keyReg.pub = .aff 13 21 ∧
    s.dom.onCurve s.dom.G = true ∧ s.dom.onCurve (.aff 13 21) = true) ∧
    (toy .fast [] []).dom.p.Prime ∧ Nat.gcd 30 31 = 1 ∧ Nat.gcd 0 31 ≠ 1 ∧ 30 * 30 % 31 = 1 := by
  refine ⟨?_, prime_23, by decide, by decide, by decide⟩
  intro e he sx hx sy hy s rfl
  refine ⟨toy_inv _ _ _ (by simp [Point.below]), ?_⟩
  simp at he hx hy
  rcases he with rfl | rfl <;> rcases hx with rfl | rfl <;> rcases hy with rfl | rfl | rfl <;> decide +kernel

/-- d = 31 gives INF for the on-curve peer G, d = 32 is too long. -/
theorem witness_EcdhRule : (∀ d ∈ [0, 31, 32], ∀ s, s = toy .fast [(0, d)] [(0, .aff 1 11)] →
    s.Inv ∧ s.compositeP = false ∧ s.ready (.ecdh 1 (some 0) 0) = true ∧ s.ready (.ecdh 1 none 0) = true ∧
    s.pt 0 = .valid (.aff 1 11) ∧ s.opVal 0 = d ∧ s.dom.onCurve (.aff 1 11) = true) ∧
    (toy .fast [] []).dom.p.Prime := by
  refine ⟨?_, prime_23⟩
  intro d hd s rfl
  refine ⟨toy_inv _ _ _ (by simp [Point.below]), ?_⟩
  simp at hd
  rcases hd with rfl | rfl | rfl <;> decide +kernel

/-- The private key in OP1 and in KEY[REG], the public key in PT1 and in KEY[REG]. -/
theorem witness_SignThenVerifyIsValid : ∀ s, s = toy .fast [(0, 5), (1, 7)] [(1, .aff 13 21)] →
    s.Inv ∧ s.dom.p.Prime ∧ s.dom.r.Prime ∧ s.busy = true ∧ s.dom.onCurve s.dom.G = true ∧
    s.dom.mulRef s.dom.r s.dom.G = .inf ∧ s.keyEph.pub = s.dom.mulRef s.keyEph.priv s.dom.G ∧
    s.pt 1 = .valid (s.dom.mulRef (s.opVal 1) s.dom.G) ∧ s.keyReg.pub = s.dom.mulRef (s.opVal 1) s.dom.G ∧
    s.keyReg.pub = s.dom.mulRef s.keyReg.priv s.dom.G ∧
    (∃ t, exec (.sign 2 3 0 (some 1)) s = .next t ∧ t.code = .ok) ∧
    ∃ t, exec (.sign 2 3 0 none) s = .next t ∧ t.code = .ok := by
  rintro s rfl
  exact ⟨toy_inv _ _ _ (by simp [Point.below]), prime_23, prime_31, by decide +kernel, by decide +kernel,
    by decide +kernel, by decide +kernel, by decide +kernel, by decide +kernel, by decide +kernel,
    exists_next _ (by decide +kernel), exists_next _ (by decide +kernel)⟩

/-- The keys 2 in OP0, 5 in OP1 and 7 in KEY[REG], with the public keys in PT0, PT1 and PT2. -/
theorem witness_EcdhSymmetry : ∀ s,
    s = toy .fast [(0, 2), (1, 5)] [(0, .aff 21 12), (1, .aff 15 16), (2, .aff 13 21)] →
    s.Inv ∧ s.dom.p.Prime ∧ s.busy = true ∧ s.dom.onCurve s.dom.G = true ∧
    s.pt 0 = .valid (s.dom.mulRef (s.opVal 0) s.dom.G) ∧ s.pt 1 = .valid (s.dom.mulRef (s.opVal 1) s.dom.G) ∧
    s.pt 2 = .valid (s.dom.mulRef s.keyReg.priv s.dom.G) ∧
    (s.op 1).valid = true ∧ bitlen (s.opVal 1) ≤ s.dom.orderBits ∧
    (∃ t, exec (.ecdh 2 (some 0) 1) s = .next t ∧ t.code = .ok) ∧
    (∃ t, exec (.ecdh 2 none 1) s = .next t ∧ t.code = .ok) ∧
    ∃ t, exec (.ecdh 2 (some 0) 2) s = .next t ∧ t.code = .ok := by
  rintro s rfl
  exact ⟨toy_inv _ _ _ (by simp [Point.below]), prime_23, by decide +kernel, by decide +kernel,
    by decide +kernel, by decide +kernel, by decide +kernel, by decide +kernel, by decide +kernel,
    exists_next _ (by decide +kernel), exists_next _ (by decide +kernel), exists_next _ (by decide +kernel)⟩

theorem witness_CmdWriteRule : State.reset.busy = false ∧ (toy .fast [] []).busy = true ∧
    (Instr.ptSetInf 7).wellFormed = true ∧ State.reset.inReset = false ∧
    ({ State.reset with inputs := [.write 0x010 .word (encode (.ptSetInf 7)), .run] } : State).inputs =
      .write 0x010 .word (encode (.ptSetInf 7)) :: .run :: [] := by decide +kernel

/-- BUSY and idle, the ends of the word and of the reserved ranges, and CTRL values without and with the reset bit. -/
theorem witness_WritesWhileBusy : (toy .fast [] []).busy = true ∧ State.reset.busy = false ∧
    (0 : Fin 32).val ≤ 16 ∧ (16 : Fin 32).val ≤ 16 ∧ 17 ≤ (17 : Fin 32).val ∧ 17 ≤ (31 : Fin 32).val ∧ (1#32).getLsbD 1 = false ∧
    (0xFFFFFFFD#32).getLsbD 1 = false ∧
    (2#32).getLsbD 1 = true ∧ (3#32).getLsbD 1 = true ∧
    (∀ a ∈ [(0x024 : Offset), 0x0FC], a.toNat % 4 = 0 ∧ 0x024 ≤ a.toNat ∧ a.toNat < 0x100) ∧
    (∀ a ∈ [(0x900 : Offset), 0xFFC], a.toNat % 4 = 0 ∧ 0x900 ≤ a.toNat) :=
  ⟨by decide +kernel, rfl, by decide, by decide, by decide, by decide, by decide, by decide, by decide, by decide,
    by decide, by decide⟩

theorem witness_OperandWindowRule : State.reset.busy = false ∧ (16 : Fin 32).val < 17 ∧
    17 ≤ (17 : Fin 32).val ∧ 17 ≤ (31 : Fin 32).val := by decide

theorem witness_CsrReads : (toy .ct [] []).Inv ∧ (toy .fast [(15, 5)] [(7, .inf)]).Inv :=
  ⟨toy_inv _ _ _ no_points, toy_inv _ _ _ (by simp [Point.below])⟩

theorem witness_ReadsHaveNoEffect : AccessWidth.half ≠ .word ∧ (0x102 : Offset).toNat % 4 ≠ 0 ∧
    (0xFFC : Offset).toNat % 4 = 0 ∧
    (∀ c, decode (toy .fast [] []).lastCmd = .ok c → (0 : OpIdx) ∉ destOps c) :=
  ⟨by decide, by decide, by decide, fun c h => by
    have h' : decode (toy .fast [] []).lastCmd = .ok .nop := by decide +kernel
    rw [h'] at h; injection h with h; subst h; decide⟩

theorem witness_ResetRule : (2#32).getLsbD 1 = true ∧ (3#32).getLsbD 1 = true ∧ State.reset.isReset ∧
    State.reset.assertReset.inReset = true ∧ ∃ t, step State.reset.assertReset = .next t :=
  ⟨by decide, by decide, rfl, rfl, steps (by decide +kernel)⟩

theorem witness_IrqLevel : (toy .fast [] []).Inv ∧ (toy .fast [] []).busy = true ∧ State.reset.busy = false ∧
    (∃ t, exec .nop (toy .fast [] []) = .next t ∧ t.busy = false) ∧ (2#32).getLsbD 1 = true ∧
    (0#32).getLsbD 0 = false ∧ (0#32).getLsbD 1 = false :=
  ⟨toy_inv _ _ _ no_points, by decide +kernel, rfl, exists_next _ (by decide +kernel), by decide, by decide, by decide⟩

end Sys2Proof.Tests
end

section
/-! PROOFS. The scope (spec 00_scope.md): the modular inverse of R8. -/

namespace Sys2Proof.Proofs
open Sys2Proof.Machine

/-- The inverse is not 0, because 0·x is never 1 mod m > 1 (R8). -/
theorem invMod_pos {m x : Nat} (hm : 1 < m) (h : Nat.gcd x m = 1) : 1 ≤ invMod m x := by
  refine Nat.one_le_iff_ne_zero.2 fun h0 => ?_
  have hmul := invMod_mul_mod hm h
  rw [h0, Nat.zero_mul, Nat.zero_mod] at hmul
  exact zero_ne_one hmul

/-- Settles O30: the bounds and the product come from the loop's invariant `invLoop_spec`, that r0 and r1 stay
the t0-fold and the t1-fold of x mod m with gcd 1. -/
theorem inverseIsInverse : Obligations.InverseIsInverse := by
  intro m x hm hgcd
  refine ⟨invMod_pos hm hgcd, invMod_lt hm hgcd, ?_⟩
  rw [Nat.mul_comm]
  exact invMod_mul_mod hm hgcd

end Sys2Proof.Proofs
end

section
/-! PROOFS. The encoding (spec 30_encoding.md R137 to R141): the decoder gives back every well-formed command. -/

namespace Sys2Proof.Proofs
open Sys2Proof.Machine Sys2Proof.Laws

/-- The opcode of a command is that of its table row. -/
theorem opcField_encode (i : Instr) : opcField (encode i) = opcField (TableRow.row i).2 := by
  cases i <;> simp only [encode, packI_eq_packR, opcField_packR] <;> rfl

/-- The word of a command passes the check of its own row (R141). -/
theorem rowCheck_encode {i : Instr} (h : TableRow.Statement i) (k : Except DecodeError Instr) :
    rowCheck (encode i) (TableRow.row i).1 (TableRow.row i).2 k = k := if_pos h

/-! ### The immediates of format I (R132, R134, R135) -/

theorem getLsbD_packI (imm : BitVec 16) (opc : BitVec 8) {n : Nat} (h : 16 ≤ n) :
    (packI imm opc).getLsbD n = imm.getLsbD (n - 16) := by
  simp only [packI, BitVec.getLsbD_append]
  rw [if_neg (by omega), if_neg (by omega), show n - 8 - 8 = n - 16 by omega]

theorem policyOf_packI (pol : Policy) (fb : BitVec 10) (opc : BitVec 8) :
    policyOf ((packI (BitVec.ofBool (pol == .ct) ++ 0#5 ++ fb) opc).getLsbD 31) = pol := by
  rw [getLsbD_packI _ _ (by decide), BitVec.getLsbD_append, if_neg (by decide)]
  cases pol <;> rfl

/-- The low `n` bits of the immediate lie from bit 16 up. -/
theorem extractLsb'_packI {m n : Nat} (hi : BitVec m) (lo : BitVec n) (h : m + n = 16) (opc : BitVec 8) :
    (packI ((hi ++ lo).cast h) opc).extractLsb' 16 n = lo := by
  apply BitVec.eq_of_getLsbD_eq
  intro k hk
  rw [BitVec.getLsbD_extractLsb', decide_eq_true hk, Bool.true_and, getLsbD_packI _ _ (by omega),
    Nat.add_sub_cancel_left, BitVec.getLsbD_cast, BitVec.getLsbD_append, if_pos hk]

theorem fieldBitsField_packI (hi : BitVec 6) (fb : BitVec 10) (opc : BitVec 8) :
    fieldBitsField (packI (hi ++ fb) opc) = fb := extractLsb'_packI hi fb rfl opc

theorem cidField_packI (hi cid : BitVec 8) (opc : BitVec 8) : cidField (packI (hi ++ cid) opc) = cid :=
  extractLsb'_packI hi cid rfl opc

/-! ### The flags (R136) -/

@[simp] theorem slotOf_eph (slot : KeySlot) : slotOf (slot == .eph) = slot := by cases slot <;> rfl

@[simp] theorem engineOf_engineBits_zero (e : EngineSel) : engineOf (engineBits e)[0] = e :=
  engineOf_engineBits e

@[simp] theorem flagBits_zero (f2 f1 f0 : Bool) : (flagBits f2 f1 f0)[0] = f0 := (flagBits_getLsbD f2 f1 f0).1

@[simp] theorem flagBits_one (f2 f1 f0 : Bool) : (flagBits f2 f1 f0)[1] = f1 := (flagBits_getLsbD f2 f1 f0).2.1

@[simp] theorem flagBits_two (f2 f1 f0 : Bool) : (flagBits f2 f1 f0)[2] = f2 := (flagBits_getLsbD f2 f1 f0).2.2

/-! ### Reading the fields back -/

@[simp] theorem ok_bind {α β : Type} (a : α) (f : α → Except DecodeError β) : (Except.ok a >>= f) = f a := rfl

/-- R139 case 5 does not reject distinct destinations. -/
theorem distinctDests_of_ne {rd re : OpIdx} (h : (rd != re) = true) (k : Except DecodeError Instr) :
    distinctDests (opBits rd) (opBits re) k = k :=
  if_neg fun e => by simp [opBits_injective e] at h

/-- The round trip: the opcode selects the row, the row's check passes, and each field is read back. -/
theorem decode_encode {i : Instr} (h : i.wellFormed = true) : decode (encode i) = .ok i := by
  rw [decode, opcField_encode]
  cases i with
  | nop => exact (rowCheck_encode TableRow.nop _).trans rfl
  | init policy fieldBits =>
    exact (rowCheck_encode (TableRow.init ..) _).trans (by rw [encode, policyOf_packI, fieldBitsField_packI])
  | setDomain => exact (rowCheck_encode TableRow.setDomain _).trans rfl
  | setStdDomain cid => exact (rowCheck_encode (TableRow.setStdDomain ..) _).trans (by rw [encode, cidField_packI])
  | getDomain => exact (rowCheck_encode TableRow.getDomain _).trans rfl
  | getOrderBits => exact (rowCheck_encode TableRow.getOrderBits _).trans rfl
  | mmEnc rd ra e => exact (rowCheck_encode (TableRow.mmEnc ..) _).trans (by simp [encode])
  | mmDec rd ra e => exact (rowCheck_encode (TableRow.mmDec ..) _).trans (by simp [encode])
  | mmMul rd ra rb e => exact (rowCheck_encode (TableRow.mmMul ..) _).trans (by simp [encode])
  | mmSqr rd ra e => exact (rowCheck_encode (TableRow.mmSqr ..) _).trans (by simp [encode])
  | mmInv rd ra e => exact (rowCheck_encode (TableRow.mmInv ..) _).trans (by simp [encode])
  | ptSetAffine rd ra rb => exact (rowCheck_encode (TableRow.ptSetAffine ..) _).trans (by simp [encode])
  | ptSetProj rd ra rb rc => exact (rowCheck_encode (TableRow.ptSetProj ..) _).trans (by simp [encode])
  | ptSetInf rd => exact (rowCheck_encode (TableRow.ptSetInf ..) _).trans (by simp [encode])
  | ptGetAffine rd re ra =>
    exact (rowCheck_encode (TableRow.ptGetAffine ..) _).trans (by simp [encode, distinctDests_of_ne h])
  | ptCheck ra => exact (rowCheck_encode (TableRow.ptCheck ..) _).trans (by simp [encode])
  | ptCmp ra rb => exact (rowCheck_encode (TableRow.ptCmp ..) _).trans (by simp [encode])
  | ptNeg rd ra => exact (rowCheck_encode (TableRow.ptNeg ..) _).trans (by simp [encode])
  | ptDbl rd ra => exact (rowCheck_encode (TableRow.ptDbl ..) _).trans (by simp [encode])
  | ptAdd rd ra rb => exact (rowCheck_encode (TableRow.ptAdd ..) _).trans (by simp [encode])
  | ptMul rd ra rb => exact (rowCheck_encode (TableRow.ptMul ..) _).trans (by simp [encode])
  | ptMulBase rd ra => exact (rowCheck_encode (TableRow.ptMulBase ..) _).trans (by simp [encode])
  | ptMul2 rd ra rb rc re => exact (rowCheck_encode (TableRow.ptMul2 ..) _).trans (by simp [encode])
  | genKeypair rd re => exact (rowCheck_encode (TableRow.genKeypair ..) _).trans (by simp [encode])
  | derivePub rd ra => exact (rowCheck_encode (TableRow.derivePub ..) _).trans (by simp [encode])
  | setKeypair slot priv pub => exact (rowCheck_encode (TableRow.setKeypair ..) _).trans (by simp [encode])
  | sign rd re ra priv =>
    exact (rowCheck_encode (TableRow.sign ..) _).trans (by simp [encode, distinctDests_of_ne h])
  | verify ra rb rc pub => exact (rowCheck_encode (TableRow.verify ..) _).trans (by simp [encode])
  | ecdh rd priv rb => exact (rowCheck_encode (TableRow.ecdh ..) _).trans (by simp [encode])

end Sys2Proof.Proofs
end

section
/-! PROOFS. The state (spec 10_state.md): the invariant of R67, which every step keeps. One lemma for each
input, from what a move of the sequencer can answer. -/

namespace Sys2Proof.Proofs
open Sys2Proof.Machine

/-! ### The invariant by its parts -/

theorem contextInv_of_inv {s : State} (h : s.Inv) : ContextInv s := { h with }

theorem inReset_of_busy {s : State} (h : s.Inv) (hb : s.busy = true) : s.inReset = false := by
  by_contra hr
  rw [h.held (by simpa using hr)] at hb
  cases hb

/-- Outside reset the clause on rst_n asks for nothing. -/
theorem held_of_running {t : State} (hr : t.inReset = false) (h : t.inReset = true) : t.isReset := by
  rw [hr] at h; cases h

/-- The model's record of the world outside is no part of the reset state (log entries 1, 4 and 14). -/
theorem isReset_world {s : State} (h : s.isReset) (l : List Input) (r : Option BusResponse) (n : Nat) :
    State.isReset { s with inputs := l, resp := r, choice := n } := by
  have h' := congrArg (fun u : State => { u with inputs := l, resp := r, choice := n }) h
  exact h'

/-- An installed domain has an order of at least one RNG word (R371). -/
theorem wordsPerTry_pos {d : Domain} {n : Nat} (h : d.Valid n) : 0 < wordsPerTry d.orderBits := by
  have hr : 0 < bitlen d.r := bitlen_pos (Nat.lt_of_lt_of_le (by decide) h.r_ge)
  rw [h.orderBits_eq, wordsPerTry]
  omega

/-! ### The reset state -/

theorem reset_pt (i : PtIdx) : State.reset.pt i = .empty := by
  simp [State.pt, State.reset]

theorem inv_reset : State.reset.Inv where
  busy_done := fun h => nomatch h
  set_init := fun h => nomatch h
  err_code := rfl
  ctx_range := fun h => nomatch h
  ctx_cleared := fun _ => rfl
  dom_valid := fun h => nomatch h
  dom_cleared := fun _ => rfl
  pt_valid := fun i P h => by rw [reset_pt] at h; cases h
  keyReg_within := ⟨Nat.two_pow_pos _, trivial⟩
  keyEph_within := ⟨Nat.two_pow_pos _, trivial⟩
  idle := fun _ => ⟨rfl, rfl⟩
  tries := ⟨Nat.zero_le _, fun h => nomatch h⟩
  held := fun h => nomatch h

/-- Every state whose architectural part is that of R66 meets the invariant. -/
theorem inv_of_isReset {s : State} (h : s.isReset) : s.Inv := by
  rw [h]
  exact { inv_reset with held := fun _ => rfl }

/-! ### The moves of the sequencer -/

/-- A completion meets the invariant when the committed registers do. -/
theorem inv_close {t : State} {c : StatusCode} {v : Word} (h : ContextInv (t.close c v))
    (hr : t.inReset = false) : (t.close c v).Inv :=
  { h with
    busy_done := fun hb => nomatch hb
    err_code := rfl
    idle := fun _ => ⟨rfl, rfl⟩
    tries := ⟨Nat.zero_le _, fun hq => nomatch hq⟩
    held := held_of_running hr }

/-- A request for the next word of a try that lacks words keeps the invariant (R445). -/
theorem inv_request {s : State} (h : s.Inv) (hb : s.busy = true) {ws : List Word}
    (hw : ws.length < wordsPerTry s.dom.orderBits) : State.Inv { s with rngReq := true, drawn := ws } :=
  have hr := inReset_of_busy h hb
  { h with
    idle := fun hi => absurd hb (Bool.eq_false_iff.1 hi)
    tries := ⟨hw.le, fun _ => hw⟩
    held := held_of_running hr }

/-- A meaning that ends leaves the sequencer idle (R422). -/
theorem busy_of_finishGroup {s t any u : State} {i : Instr} {cs : List Check} {v : Word}
    (h : s.finishGroup i any cs t v = .next u) : u.busy = false := by
  rcases s.finishGroup_cases i any cs t v with ⟨-, -, h1⟩ | ⟨-, e, -, -, h1⟩ | ⟨-, h1⟩ | ⟨-, e, -, -, h1⟩
  all_goals rw [h1] at h; cases h; rfl

/-- GEN_KEYPAIR stays in flight only to ask for a word of a try that lacks words: the present try or, after a
rejection, the next one (R371, R372). -/
theorem genKeypair_requests {rd : OpIdx} {re : PtIdx} {s u : State} (h : exec (.genKeypair rd re) s = .next u)
    (hb : u.busy = true) : s.dom.set = true ∧
      ∃ ws : List Word, (ws.length < wordsPerTry s.dom.orderBits ∨ ws = []) ∧
        u = { s with rngReq := true, drawn := ws } := by
  simp only [exec, execGenKeypair] at h
  cases hf : firstFailure (s.commonChecks []) with
  | some e => rw [hf] at h; cases h; cases hb
  | none =>
    rw [hf] at h
    refine ⟨dom_set_of_ready (ready_of_common_only (i := .genKeypair rd re) hf), ?_⟩
    dsimp only at h
    split at h
    · next hlt => cases h; exact ⟨s.drawn, .inl hlt, rfl⟩
    · split at h
      · rw [busy_of_finishGroup h] at hb; cases hb
      · cases h; exact ⟨[], .inr rfl, rfl⟩

/-- A move of a command in flight keeps the invariant: it completes, or GEN_KEYPAIR asks for a word. -/
theorem inv_exec {i : Instr} {s u : State} (h : s.Inv) (hb : s.busy = true) (hu : exec i s = .next u) :
    u.Inv := by
  have hr := inReset_of_busy h hb
  have hctx := contextInv_exec i s (contextInv_of_inv h) u hu
  rcases exec_answers i s with ⟨t, v, ht, ho⟩ | ⟨e, v, -, -, -, ho⟩ | ⟨⟨rd, re, rfl⟩, ho⟩
  · cases hu.symm.trans ho
    exact inv_close hctx ((congrArg State.inReset ht.same).trans hr)
  · cases hu.symm.trans ho
    exact inv_close hctx hr
  · have hbu : u.busy = true := by rcases ho with ho | ho <;> cases hu.symm.trans ho <;> exact hb
    obtain ⟨hset, ws, hws, rfl⟩ := genKeypair_requests hu hbu
    refine inv_request h hb (hws.elim id fun h0 => ?_)
    rw [h0]
    exact wordsPerTry_pos (h.dom_valid hset)

theorem inv_sequencer {s u : State} (h : s.Inv) (hu : s.sequencer = .next u) : u.Inv := by
  unfold State.sequencer at hu
  split at hu
  · next hb =>
    split at hu
    · cases hu; exact inv_close ((contextInv_of_inv h).close _ _) (inReset_of_busy h hb)
    · exact inv_exec h hb hu
  · cases hu; exact h

/-! ### The bus, the RNG port and the reset pin -/

/-- The invariant does not speak of the response; a response outside reset keeps it (R470). -/
theorem inv_resp {s : State} (h : s.Inv) (hr : s.inReset = false) (r : Option BusResponse) :
    State.Inv { s with resp := r } :=
  { h with held := held_of_running hr }

theorem inv_toReset (s : State) : s.toReset.Inv := inv_of_isReset rfl

/-- Acceptance clears DONE as it sets BUSY (R37, R67). -/
theorem inv_accept {s : State} (h : s.Inv) (hr : s.inReset = false) (v : Word) : (s.accept v).Inv :=
  { h with
    busy_done := fun _ => rfl
    idle := fun hi => nomatch hi
    held := held_of_running hr }

/-- The effect of a write keeps the invariant: CTRL, STATUS, the operand registers and an ignored write leave
context, domain, points and keys, CMD accepts a word, and a soft reset gives the reset state (R475). -/
theorem inv_writeWord {s : State} (h : s.Inv) (hr : s.inReset = false) (a : Offset) (v : Word) :
    (s.writeWord a v).Inv ∧ (s.writeWord a v).inReset = false := by
  have hover : s.overrun.Inv ∧ s.overrun.inReset = false := ⟨{ h with held := held_of_running hr }, hr⟩
  unfold State.writeWord
  cases target a with
  | ctrl => dsimp only; split; exacts [⟨inv_toReset s, rfl⟩, ⟨{ h with held := held_of_running hr }, hr⟩]
  | status =>
    exact ⟨{ h with
      busy_done := fun hb => by simp [h.busy_done hb]
      held := held_of_running hr }, hr⟩
  | cmd => dsimp only; split; exacts [hover, ⟨inv_accept h hr v, hr⟩]
  | opValid => dsimp only; split; exacts [hover, ⟨{ h with held := held_of_running hr }, hr⟩]
  | opWord i j => dsimp only; split; exacts [hover, ⟨{ h with held := held_of_running hr }, hr⟩]
  | id | caps | result | ptState | config | padding | reserved => exact ⟨h, hr⟩

theorem inv_busRead {s : State} (h : s.Inv) (hr : s.inReset = false) (a : Offset) (width : AccessWidth) :
    (s.busRead a width).Inv := by
  unfold State.busRead
  split <;> exact inv_resp h hr _

theorem inv_busWrite {s : State} (h : s.Inv) (hr : s.inReset = false) (a : Offset) (width : AccessWidth)
    (v : Word) : (s.busWrite a width v).Inv := by
  unfold State.busWrite
  split
  · obtain ⟨hw, hr'⟩ := inv_writeWord h hr a v
    exact inv_resp hw hr' _
  · exact inv_resp h hr _

/-- A word taken on request still fits its try (R445, R371). -/
theorem inv_offerRng {s : State} (h : s.Inv) (w : Word) : (s.offerRng w).Inv := by
  unfold State.offerRng
  split
  · next hq =>
    have hb : s.busy = true := by
      by_contra hb
      rw [(h.idle (by simpa using hb)).1] at hq; cases hq
    have hr := inReset_of_busy h hb
    have hlt := h.tries.2 hq
    exact
      { h with
        idle := fun hi => absurd hb (Bool.eq_false_iff.1 hi)
        tries := ⟨by simpa using hlt, fun hq' => nomatch hq'⟩
        held := held_of_running hr }
  · exact h

/-! ### The step -/

theorem inv_advance {s : State} (h : s.Inv) : s.advance.Inv :=
  { h with held := fun hr => isReset_world (h.held hr) _ _ _ }

theorem inv_applyInput {s u : State} (h : s.Inv) (x : Input) (hu : s.applyInput x = .next u) : u.Inv := by
  cases x with
  | read a width =>
    simp only [State.applyInput] at hu
    split at hu
    · cases hu
    · next hr => cases hu; exact inv_busRead h (by simpa using hr) a width
  | write a width v =>
    simp only [State.applyInput] at hu
    split at hu
    · cases hu
    · next hr => cases hu; exact inv_busWrite h (by simpa using hr) a width v
  | rng w => cases hu; exact inv_offerRng h w
  | run => exact inv_sequencer h hu
  | resetAssert => cases hu; exact inv_of_isReset rfl
  | resetRelease => cases hu; exact { h with held := held_of_running rfl }

/-- Settles O6: taking the input keeps the invariant, and so does each input's effect. -/
theorem stepKeepsInvariant : Obligations.StepKeepsInvariant :=
  fun _ _ h ht => inv_applyInput (inv_advance h) _ ht

end Sys2Proof.Proofs
end

section
/-! PROOFS. The state (spec 10_state.md): how a command is accepted (R37), that the one in flight runs (R58), and
what it leaves unchanged (R52, R54, R55). -/

namespace Sys2Proof.Proofs
open Sys2Proof.Machine

/-! ### The next event -/

theorem nextInput_run {s : State} (h : s.inputs.head? = some .run ∨ s.inputs = []) : s.nextInput = .run := by
  rcases h with h | h <;> simp [State.nextInput, List.headD_eq_head?_getD, h]

/-- When the sequencer moves next, a step is its move in the state with that event taken (log entry 1). -/
theorem step_sequencer {s : State} (h : s.inputs.head? = some .run ∨ s.inputs = []) :
    step s = s.advance.sequencer := by
  rw [step, nextInput_run h]; rfl

theorem sequencer_idle {s : State} (h : s.busy = false) : s.sequencer = .next s := by
  simp [State.sequencer, h]

/-- The sequencer runs the command that the word in flight decodes to (R141). -/
theorem sequencer_exec {s : State} {i : Instr} (hb : s.busy = true) (hd : decode s.lastCmd = .ok i) :
    s.sequencer = exec i s := by
  simp [State.sequencer, hb, hd]

theorem step_exec {s : State} {i : Instr} (h : s.inputs.head? = some .run ∨ s.inputs = [])
    (hb : s.busy = true) (hd : decode s.lastCmd = .ok i) : step s = exec i s.advance :=
  (step_sequencer h).trans (sequencer_exec hb hd)

theorem withFetchWord_lastCmd (s : State) (v : Word) : (s.withFetchWord 32 v.toNat).lastCmd = v := by
  rw [State.withFetchWord, Nat.mod_eq_of_lt v.isLt, BitVec.ofNat_toNat, BitVec.setWidth_eq]

/-- Settles O4: the next event is the sequencer's move, and the fetched word decodes by the round trip. -/
theorem stepRunsInFlightCommand : Obligations.StepRunsInFlightCommand := by
  refine ⟨fun s i => step_exec, fun s h hb => ?_, fun s i hi => ?_⟩
  · exact (step_sequencer h).trans (sequencer_idle (s := s.advance) hb)
  · exact step_exec (.inl rfl) rfl (by rw [withFetchWord_lastCmd, decode_encode hi])

/-! ### What a command leaves -/

/-- Settles O12: an error and a waiting GEN_KEYPAIR write no register, and an OK commits staged writes within
the command's frame. -/
theorem controlFrame : Obligations.ControlFrame := by
  intro i s t ht
  rcases exec_answers i s with ⟨u, v, hu, ho⟩ | ⟨e, v, -, -, -, ho⟩ | ⟨-, ho | ho⟩
  all_goals cases ht.symm.trans ho
  · exact ⟨hu.keyReg, hu.keyEph, hu.ctx, hu.dom, (congrArg State.irqEn hu.same :), (congrArg State.ovr hu.same :),
      (congrArg State.lastCmd hu.same :), (congrArg State.inReset hu.same :), (congrArg State.resp hu.same :),
      (congrArg State.inputs hu.same :), (congrArg State.choice hu.same :)⟩
  all_goals
    exact ⟨fun _ _ => rfl, fun _ _ => rfl, fun _ => rfl, fun _ => rfl, rfl, rfl, rfl, rfl, rfl, rfl, rfl⟩

/-! ### CSR writes -/

theorem busWrite_word {s : State} {a : Offset} (ha : a.toNat % 4 = 0) (v : Word) :
    s.busWrite a .word v = { s.writeWord a v with resp := okayWrite } := by
  simp [State.busWrite, aligned, ha, okayWrite]

theorem writeWord_cmd (s : State) (v : Word) :
    s.writeWord 0x010 v = if s.busy then s.overrun else s.accept v := rfl

theorem busWrite_cmd_idle {s : State} (hb : s.busy = false) (v : Word) :
    s.busWrite 0x010 .word v = { s with lastCmd := v, done := false, busy := true, resp := okayWrite } := by
  rw [busWrite_word (by decide), writeWord_cmd, if_neg (by simp [hb])]; rfl

theorem busWrite_cmd_busy {s : State} (hb : s.busy = true) (v : Word) :
    s.busWrite 0x010 .word v = { s with ovr := true, resp := okayWrite } := by
  rw [busWrite_word (by decide), writeWord_cmd, if_pos hb]; rfl

theorem step_write {s : State} {a : Offset} {w : AccessWidth} {v : Word} {rest : List Input}
    (hr : s.inReset = false) (h : s.inputs = .write a w v :: rest) :
    step s = .next (s.advance.busWrite a w v) := by
  simp [step, State.nextInput, h, State.applyInput, hr]

/-- Settles O54: the write of an idle block accepts the word, and the step after it is the sequencer's. -/
theorem cmdWriteRule : Obligations.CmdWriteRule := by
  refine ⟨fun s v h => busWrite_cmd_idle h v, fun s v h => busWrite_cmd_busy h v, fun s => rfl, rfl, ?_⟩
  intro s i rest hi hb hr hin
  refine ⟨_, step_write hr hin, ?_⟩
  rw [busWrite_cmd_idle (s := s.advance) hb]
  exact ⟨rfl, rfl, step_exec (.inl (by simp [hin])) rfl (decode_encode hi)⟩

end Sys2Proof.Proofs
end

section
/-! PROOFS. The CSRs (spec 10_state.md R33 to R45): each is the packing of its fields, and the reset table R66. -/

namespace Sys2Proof.Proofs
open Sys2Proof.Machine

/-! ### Digit sums -/

/-- A sum of digits in base `b`, as the library writes it. -/
theorem sum_digits_eq_ofDigits (b n : Nat) (d : Fin n → Nat) :
    ((List.finRange n).map fun i => d i * b ^ i.val).sum = Nat.ofDigits b (List.ofFn d) := by
  rw [Nat.ofDigits_eq_sum_mapIdx]
  congr 1
  apply List.ext_getElem <;> simp

theorem sum_digits_lt {b n : Nat} (hb : 1 < b) {d : Fin n → Nat} (hd : ∀ i, d i < b) :
    ((List.finRange n).map fun i => d i * b ^ i.val).sum < b ^ n := by
  rw [sum_digits_eq_ofDigits]
  have h := Nat.ofDigits_lt_base_pow_length hb (l := List.ofFn d) (by simpa [List.mem_ofFn] using hd)
  rwa [List.length_ofFn] at h

/-- Digit `i` of the sum is the i-th digit. -/
theorem sum_digits_div_mod {b n : Nat} (hb : 1 < b) {d : Fin n → Nat} (hd : ∀ i, d i < b) (i : Fin n) :
    ((List.finRange n).map fun j => d j * b ^ j.val).sum / b ^ i.val % b = d i := by
  have hL : ∀ l ∈ List.ofFn d, l < b := by simpa [List.mem_ofFn] using hd
  rw [sum_digits_eq_ofDigits, Nat.ofDigits_div_pow_eq_ofDigits_drop _ (by omega) _ hL,
    List.drop_eq_getElem_cons (by simp), Nat.ofDigits_cons]
  simp [Nat.mod_eq_of_lt (hd i)]

/-! ### CSRs as fields -/

/-- A CSR that packs `n` fields of `w` bits: each field reads back. -/
theorem extractLsb'_sum_digits {w n : Nat} (hw : 0 < w) (hn : w * n ≤ 32) {d : Fin n → Nat}
    (hd : ∀ i, d i < 2 ^ w) (i : Fin n) :
    (BitVec.ofNat 32 ((List.finRange n).map fun j => d j * (2 ^ w) ^ j.val).sum).extractLsb' (w * i.val) w =
      BitVec.ofNat w (d i) := by
  have hb : 1 < 2 ^ w := Nat.one_lt_two_pow hw.ne'
  have hlt : ((List.finRange n).map fun j => d j * (2 ^ w) ^ j.val).sum < 2 ^ 32 :=
    (sum_digits_lt hb hd).trans_le (by rw [← pow_mul]; exact Nat.pow_le_pow_right (by decide) hn)
  apply BitVec.eq_of_toNat_eq
  rw [BitVec.extractLsb'_toNat, BitVec.toNat_ofNat, BitVec.toNat_ofNat, Nat.mod_eq_of_lt hlt,
    Nat.shiftRight_eq_div_pow, pow_mul, sum_digits_div_mod hb hd, Nat.mod_eq_of_lt (hd i)]

/-- A CSR whose value is below 2^16 has a zero upper half. -/
theorem extractLsb'_high_eq_zero {x : Nat} (h : x < 2 ^ 16) : (BitVec.ofNat 32 x).extractLsb' 16 16 = 0 := by
  apply BitVec.eq_of_toNat_eq
  rw [BitVec.extractLsb'_toNat, BitVec.toNat_ofNat, Nat.mod_eq_of_lt (h.trans (by decide)),
    Nat.shiftRight_eq_div_pow, Nat.div_eq_of_lt h]
  rfl

theorem ctrlWord_eq (s : State) : s.ctrlWord = BitVec.ofNat 32 s.irqEn.toNat := by
  cases h : s.irqEn <;> simp [State.ctrlWord, h]

theorem statusWord_eq (s : State) : s.statusWord = BitVec.ofNat 32 (s.busy.toNat + 2 * s.done.toNat +
    4 * s.err.toNat + 8 * s.ovr.toNat + 256 * s.code.toByte.toNat) := by
  apply BitVec.eq_of_toNat_eq
  have hcode := s.code.toByte.isLt
  have hbusy := s.busy.toNat_lt
  have hdone := s.done.toNat_lt
  have herr := s.err.toNat_lt
  have hovr := s.ovr.toNat_lt
  simp only [State.statusWord, append_toNat, BitVec.toNat_ofBool, BitVec.toNat_ofNat]
  omega

/-! ### OPVALID and PTSTATE -/

theorem opValidWord_eq (s : State) : s.opValidWord =
    BitVec.ofNat 32 ((List.finRange 16).map fun i => (s.op i).valid.toNat * (2 ^ 1) ^ i.val).sum := by
  have hd (i : OpIdx) : (if (s.op i).valid then 2 ^ i.val else 0) = (s.op i).valid.toNat * (2 ^ 1) ^ i.val := by
    cases (s.op i).valid <;> simp
  simp only [State.opValidWord, hd]

theorem opValidWord_getLsbD (s : State) (i : OpIdx) : s.opValidWord.getLsbD i.val = (s.op i).valid := by
  have h := extractLsb'_sum_digits (w := 1) (by decide) (by decide) (fun j => (s.op j).valid.toNat_lt) i
  rw [← opValidWord_eq, one_mul] at h
  have h0 := congrArg (·.getLsbD 0) h
  cases hv : (s.op i).valid <;> simpa [BitVec.getLsbD_extractLsb', hv] using h0

theorem stateBits_lt (r : PtReg) : r.stateBits < 2 ^ 2 := by
  cases r <;> simp [PtReg.stateBits]

theorem ptStateWord_extract (s : State) (i : PtIdx) :
    s.ptStateWord.extractLsb' (2 * i.val) 2 = BitVec.ofNat 2 (s.pt i).stateBits :=
  extractLsb'_sum_digits (by decide) (by decide) (fun j => stateBits_lt (s.pt j)) i

/-! ### CONFIG -/

theorem bitlen_r_lt {s : State} (h : s.Inv) : (if s.dom.set then bitlen s.dom.r else 0) < 2 ^ 10 := by
  split
  · next hs =>
    have hbits := (h.dom_valid hs).r_bits
    have hrange := (h.ctx_range (h.set_init hs)).2
    simp only [Config.maxFieldBits] at hrange
    omega
  · decide

theorem fieldBits_lt {s : State} (h : s.Inv) : (if s.ctx.init then s.ctx.fieldBits else 0) < 2 ^ 10 := by
  split
  · next hi => exact (h.ctx_range hi).2.trans_lt (by decide)
  · decide

theorem configWord_eq {s : State} (h : s.Inv) : s.configWord = BitVec.ofNat 32
    ((if s.ctx.init then s.ctx.fieldBits else 0) + 2 ^ 16 * (if s.dom.set then bitlen s.dom.r else 0) +
      2 ^ 28 * (s.ctx.init && s.ctx.policy == .ct).toNat + 2 ^ 29 * (s.dom.set && s.dom.aIsM3).toNat +
      2 ^ 30 * s.ctx.init.toNat + 2 ^ 31 * s.dom.set.toNat) := by
  apply BitVec.eq_of_toNat_eq
  have hf := fieldBits_lt h
  have hr := bitlen_r_lt h
  have hinit := s.ctx.init.toNat_lt
  have hset := s.dom.set.toNat_lt
  have hpol := (s.ctx.init && s.ctx.policy == .ct).toNat_lt
  have ham3 := (s.dom.set && s.dom.aIsM3).toNat_lt
  simp only [State.configWord, append_toNat, BitVec.toNat_ofBool, BitVec.toNat_ofNat, Nat.mod_eq_of_lt hf,
    Nat.mod_eq_of_lt hr]
  omega

/-- Settles O57: each address names its CSR, and each CSR is the packing of its fields. -/
theorem csrReads : Obligations.CsrReads := by
  intro s
  refine ⟨rfl, rfl, ctrlWord_eq s, statusWord_eq s, rfl, rfl, opValidWord_getLsbD s, ?_, fun i => ?_, ?_,
    configWord_eq⟩
  · show s.opValidWord.extractLsb' 16 16 = 0
    rw [opValidWord_eq]
    exact extractLsb'_high_eq_zero (sum_digits_lt (by decide) fun j => (s.op j).valid.toNat_lt)
  · refine (ptStateWord_extract s i).trans ?_
    cases s.pt i <;> rfl
  · exact extractLsb'_high_eq_zero (sum_digits_lt (by decide) fun j => stateBits_lt (s.pt j))

/-! ### The reset state -/

theorem reset_op (i : OpIdx) : State.reset.op i = { valid := false, value := 0 } := by
  simp [State.op, State.reset]

/-- Settles O7: the fields of the reset state, and its CSRs by their fields. -/
theorem resetMeetsInvariant : Obligations.ResetMeetsInvariant := by
  have hov : State.reset.opValidWord = 0 := by simp [State.opValidWord, reset_op]
  have hps : State.reset.ptStateWord = 0 := by simp [State.ptStateWord, reset_pt, PtReg.stateBits]
  exact ⟨inv_reset, rfl, rfl, rfl, rfl, rfl, rfl, hov, hps, rfl, reset_op, reset_pt, rfl, rfl, rfl, rfl, rfl, rfl,
    rfl, rfl, rfl⟩

end Sys2Proof.Proofs
end

section
/-! PROOFS. The memory map (spec 20_memory.md): the operand window (R96, R98), reserved addresses (R97), and the
reads and rejected accesses that change nothing but the bus response (R92, R99). -/

namespace Sys2Proof.Proofs
open Sys2Proof.Machine

/-! ### The address map -/

/-- No offset of the operand window wraps around the 4 KiB of the host window. -/
theorem windowOffset_toNat (i : OpIdx) (j : Fin 32) :
    (windowOffset i j).toNat = 0x100 + (0x80 * i.val + 4 * j.val) := by
  rw [windowOffset, BitVec.toNat_ofNat]
  omega

theorem windowOffset_aligned (i : OpIdx) (j : Fin 32) : (windowOffset i j).toNat % 4 = 0 := by
  rw [windowOffset_toNat]
  omega

theorem target_windowOffset (i : OpIdx) (j : Fin 32) :
    target (windowOffset i j) = windowTarget (0x80 * i.val + 4 * j.val) := by
  have hrange : 0x100 ≤ (windowOffset i j).toNat ∧ (windowOffset i j).toNat < 0x900 := by
    rw [windowOffset_toNat]
    omega
  rw [target, if_pos hrange, windowOffset_toNat, Nat.add_sub_cancel_left]

/-- The stride of a register is 0x80, and 4·j stays below it (R96). -/
theorem window_wordIdx (i : OpIdx) (j : Fin 32) : (0x80 * i.val + 4 * j.val) % 0x80 / 4 = j.val := by
  omega

theorem target_window_word (i : OpIdx) {j : Fin 32} (h : j.val < 17) :
    target (windowOffset i j) = .opWord i ⟨j.val, h⟩ := by
  have hreg : (0x80 * i.val + 4 * j.val) / 0x80 % 16 = i.val := by omega
  simp only [target_windowOffset, windowTarget, window_wordIdx, hreg, dif_pos h]

theorem target_window_padding (i : OpIdx) {j : Fin 32} (h : 17 ≤ j.val) :
    target (windowOffset i j) = .padding := by
  simp only [target_windowOffset, windowTarget, window_wordIdx, dif_neg (Nat.not_lt.2 h)]

/-- The two reserved ranges (R96) lie outside the window and above the last CSR. -/
theorem target_reserved {a : Offset} (h : (0x024 ≤ a.toNat ∧ a.toNat < 0x100) ∨ 0x900 ≤ a.toNat) :
    target a = .reserved := by
  rw [target, if_neg (by omega)]
  split
  case h_10 => rfl
  all_goals omega

/-! ### Reads -/

theorem pendingDest_of_idle {s : State} (hb : s.busy = false) (i : OpIdx) : s.pendingDest i = false := by
  simp [State.pendingDest, hb]

theorem pendingDest_of_not_mem {s : State} {i : OpIdx}
    (h : ∀ c, decode s.lastCmd = .ok c → i ∉ destOps c) : s.pendingDest i = false := by
  cases hd : decode s.lastCmd with
  | ok c => simp [State.pendingDest, hd, h c hd]
  | error e => simp [State.pendingDest, hd]

/-- Only a pending destination hides the contents of its register from a read (R476). -/
theorem readWord_window_word {s : State} {i : OpIdx} (hp : s.pendingDest i = false) {j : Fin 32}
    (h : j.val < 17) : s.readWord (windowOffset i j) = operandWord (s.op i).value ⟨j.val, h⟩ := by
  simp [State.readWord, target_window_word i h, hp]

theorem readWord_window_padding (s : State) (i : OpIdx) {j : Fin 32} (h : 17 ≤ j.val) :
    s.readWord (windowOffset i j) = 0 := by
  simp [State.readWord, target_window_padding i h]

/-! ### Writes -/

theorem busWrite_window_word {s : State} (hb : s.busy = false) (i : OpIdx) {j : Fin 32} (h : j.val < 17)
    (v : Word) : s.busWrite (windowOffset i j) .word v =
      { s.writeOpWord i ⟨j.val, h⟩ v with resp := okayWrite } := by
  simp [busWrite_word (windowOffset_aligned i j), State.writeWord, target_window_word i h, hb]

theorem busWrite_window_padding (s : State) (i : OpIdx) {j : Fin 32} (h : 17 ≤ j.val) (v : Word) :
    s.busWrite (windowOffset i j) .word v = { s with resp := okayWrite } := by
  simp [busWrite_word (windowOffset_aligned i j), State.writeWord, target_window_padding i h]

theorem writeWord_opValid (s : State) (v : Word) :
    s.writeWord 0x018 v = if s.busy then s.overrun else s.clearValid v := rfl

theorem busWrite_opValid_idle {s : State} (hb : s.busy = false) (v : Word) :
    s.busWrite 0x018 .word v = { s.clearValid v with resp := okayWrite } := by
  rw [busWrite_word (by decide), writeWord_opValid, if_neg (by simp [hb])]

/-! ### The operand registers after a write -/

theorem op_writeOpWord (s : State) (i k : OpIdx) (j : WordIdx) (v : Word) :
    (s.writeOpWord i j v).op k =
      if i = k then { valid := true, value := setOperandWord (s.op i).value j v } else s.op k := by
  simp only [State.op, State.writeOpWord, Fin.getElem_fin, Vector.getElem_set, Fin.val_inj]

theorem op_writeOpWord_self (s : State) (i : OpIdx) (j : WordIdx) (v : Word) :
    (s.writeOpWord i j v).op i = { valid := true, value := setOperandWord (s.op i).value j v } := by
  rw [op_writeOpWord, if_pos rfl]

theorem op_writeOpWord_ne (s : State) {i k : OpIdx} (h : i ≠ k) (j : WordIdx) (v : Word) :
    (s.writeOpWord i j v).op k = s.op k := by
  rw [op_writeOpWord, if_neg h]

theorem operandWord_writeOpWord_self (s : State) (i : OpIdx) (j : WordIdx) (v : Word) :
    operandWord ((s.writeOpWord i j v).op i).value j = v := by
  rw [op_writeOpWord_self, operandWord_setOperandWord_self]

theorem operandWord_writeOpWord_ne (s : State) (i : OpIdx) {j k : WordIdx} (h : j ≠ k) (v : Word) :
    operandWord ((s.writeOpWord i j v).op i).value k = operandWord (s.op i).value k := by
  rw [op_writeOpWord_self, operandWord_setOperandWord_ne _ v h]

theorem op_clearValid (s : State) (v : Word) (i : OpIdx) :
    (s.clearValid v).op i = { valid := (s.op i).valid && !v.getLsbD i.val, value := (s.op i).value } := by
  simp [State.op, State.clearValid]

/-- Settles O56: each address names its word, and the words of a register are written one by one. -/
theorem operandWindowRule : Obligations.OperandWindowRule := by
  intro s v hb
  refine ⟨fun i j h => ⟨_, busWrite_window_word hb i h v, ?_⟩, fun i j h =>
    ⟨readWord_window_padding s i h, busWrite_window_padding s i h v⟩,
    ⟨_, busWrite_opValid_idle hb v, rfl, op_clearValid s v⟩⟩
  have hidle : State.busy { s.writeOpWord i ⟨j.val, h⟩ v with resp := okayWrite } = false := hb
  have hstored := operandWord_writeOpWord_self s i ⟨j.val, h⟩ v
  refine ⟨congrArg OpReg.valid (op_writeOpWord_self s i ⟨j.val, h⟩ v), hstored,
    fun k hk => operandWord_writeOpWord_ne s i (j := ⟨j.val, h⟩) (Fin.ne_of_val_ne hk.symm) v,
    fun i' hi => op_writeOpWord_ne s hi.symm ⟨j.val, h⟩ v, rfl, ?_,
    readWord_window_word (pendingDest_of_idle hb i) h⟩
  exact (readWord_window_word (pendingDest_of_idle hidle i) h).trans hstored

/-! ### Accesses without effect -/

theorem aligned_word {a : Offset} (ha : a.toNat % 4 = 0) : aligned a .word = true := by
  simp [aligned, ha]

theorem not_aligned {a : Offset} {w : AccessWidth} (h : w ≠ .word ∨ a.toNat % 4 ≠ 0) :
    aligned a w = false := by
  rcases h with h | h <;> simp [aligned, h]

/-- All that a read can do (R99): it answers, and the rest of the state stays. -/
theorem busRead_eq (s : State) (a : Offset) (w : AccessWidth) : s.busRead a w =
    { s with resp := some (if aligned a w then { okay := true, data := s.readWord a }
      else { okay := false, data := 0 }) } := by
  unfold State.busRead
  split <;> rfl

theorem busWrite_not_aligned (s : State) {a : Offset} {w : AccessWidth} (h : w ≠ .word ∨ a.toNat % 4 ≠ 0)
    (v : Word) : s.busWrite a w v = { s with resp := some { okay := false, data := 0 } } := by
  simp [State.busWrite, not_aligned h]

theorem readWord_reserved (s : State) {a : Offset} (h : target a = .reserved) : s.readWord a = 0 := by
  simp [State.readWord, h]

theorem busWrite_reserved (s : State) {a : Offset} (ha : a.toNat % 4 = 0) (h : target a = .reserved)
    (v : Word) : s.busWrite a .word v = { s with resp := okayWrite } := by
  simp [busWrite_word ha, State.writeWord, h]

/-- Settles O58: only an aligned word access is served, and neither reserved range names anything. -/
theorem readsHaveNoEffect : Obligations.ReadsHaveNoEffect := by
  refine ⟨fun s a w => ⟨_, busRead_eq s a w, ?_, fun h => ?_⟩, fun s a w v h => busWrite_not_aligned s h v,
    fun s a ha hres => ?_, fun s i j h hdest => readWord_window_word (pendingDest_of_not_mem hdest) h⟩
  · rintro rfl ha
    rw [if_pos (aligned_word ha)]
  · rw [not_aligned h, if_neg Bool.false_ne_true]
  · have ht := target_reserved hres
    exact ⟨readWord_reserved s ht, busWrite_reserved s ha ht⟩

end Sys2Proof.Proofs
end

section
/-! PROOFS. The encoding (spec 30_encoding.md R137 to R142, R484): a legal word is the encoding of the command it
decodes to, every other word completes with IllegalCommand, and no command writes a register that its row of R138
does not name. -/

namespace Sys2Proof.Proofs
open Sys2Proof.Machine

/-- Settles O1: the opcode selects the command's row, whose check passes, and each field is read back. -/
theorem decodeEncodeRoundTrip : Obligations.DecodeEncodeRoundTrip := fun _ => decode_encode

/-! ### When a reading of the decoder succeeds (R139) -/

theorem rowCheck_eq_ok {v mask value : Word} {k : Except DecodeError Instr} {i : Instr} :
    rowCheck v mask value k = .ok i ↔ v &&& mask = value ∧ k = .ok i := by
  unfold rowCheck
  split <;> simp_all

theorem distinctDests_eq_ok {rd re : BitVec 4} {k : Except DecodeError Instr} {i : Instr} :
    distinctDests rd re k = .ok i ↔ rd ≠ re ∧ k = .ok i := by
  unfold distinctDests
  split <;> simp_all

theorem bind_eq_ok {α β : Type} {x : Except DecodeError α} {f : α → Except DecodeError β} {b : β} :
    x >>= f = .ok b ↔ ∃ a, x = .ok a ∧ f a = .ok b := by
  cases x with
  | error e => simp [bind, Except.bind]
  | ok a => simp

theorem ptOf_eq_ok_iff {f : BitVec 4} {p : PtIdx} : ptOf f = .ok p ↔ ptBits p = f :=
  ⟨ptOf_eq_ok, fun h => h ▸ ptOf_ptBits p⟩

theorem optOpOf_eq_ok {b : Bool} {f : BitVec 4} {o : Option OpIdx} :
    optOpOf b f = .ok o ↔ o.isSome = b ∧ optOpBits o = f := by
  refine ⟨fun h => ?_, ?_⟩
  · unfold optOpOf at h
    split_ifs at h with hb hf
    · cases h; exact ⟨hb.symm, opBits_opOf f⟩
    · cases h; exact ⟨(Bool.eq_false_of_not_eq_true hb).symm, hf.symm⟩
  · rintro ⟨rfl, rfl⟩
    exact optOpOf_optOpBits o

theorem optPtOf_eq_ok {b : Bool} {f : BitVec 4} {o : Option PtIdx} :
    optPtOf b f = .ok o ↔ o.isSome = b ∧ optPtBits o = f := by
  refine ⟨fun h => ?_, ?_⟩
  · unfold optPtOf at h
    split_ifs at h with hb hf
    · cases hp : ptOf f with
      | error e => rw [hp] at h; cases h
      | ok p => rw [hp] at h; cases h; exact ⟨hb.symm, ptOf_eq_ok hp⟩
    · cases h; exact ⟨(Bool.eq_false_of_not_eq_true hb).symm, hf.symm⟩
  · rintro ⟨rfl, rfl⟩
    exact optPtOf_optPtBits o

/-! ### A word that meets a row is packed from its fields -/

theorem packR_inj {fl rc rb ra re rd fl' rc' rb' ra' re' rd' : BitVec 4} {opc opc' : BitVec 8}
    (h : packR fl rc rb ra re rd opc = packR fl' rc' rb' ra' re' rd' opc') :
    fl = fl' ∧ rc = rc' ∧ rb = rb' ∧ ra = ra' ∧ re = re' ∧ rd = rd' ∧ opc = opc' :=
  ⟨by simpa using congrArg flField h, by simpa using congrArg rcField h, by simpa using congrArg rbField h,
    by simpa using congrArg raField h, by simpa using congrArg reField h, by simpa using congrArg rdField h,
    by simpa using congrArg opcField h⟩

/-- The converse of `TableRow.meets`: for a word that meets a row it is enough to compare field by field, and there
each field that the row fixes is zero. -/
theorem packR_eq_of_meets {v : Word} {fl rc rb ra re rd mfl mrc mrb mra mre mrd : BitVec 4} {opc : BitVec 8}
    (hfl : flField v &&& mfl = 0 → fl = flField v) (hrc : rcField v &&& mrc = 0 → rc = rcField v)
    (hrb : rbField v &&& mrb = 0 → rb = rbField v) (hra : raField v &&& mra = 0 → ra = raField v)
    (hre : reField v &&& mre = 0 → re = reField v) (hrd : rdField v &&& mrd = 0 → rd = rdField v)
    (h : v &&& packR mfl mrc mrb mra mre mrd 0xFF = packR 0 0 0 0 0 0 opc) :
    packR fl rc rb ra re rd opc = v := by
  rw [← packR_fields v, packR_and] at h
  obtain ⟨h1, h2, h3, h4, h5, h6, h7⟩ := packR_inj h
  have hopc : opcField v = opc := BitVec.and_allOnes.symm.trans h7
  rw [hfl h1, hrc h2, hrb h3, hra h4, hre h5, hrd h6, ← hopc, packR_fields]

namespace Row
/-! What `packR_eq_of_meets` asks of one field, for each kind of field. -/

/-- A field that the row fixes at zero. -/
theorem fixed {f : BitVec 4} (h : f &&& 0xF = 0) : 0 = f := (BitVec.and_allOnes.symm.trans h).symm

/-- A field that the row leaves free. -/
theorem free {f g : BitVec 4} (h : g = f) (_ : f &&& 0 = 0) : g = f := h

/-- A free field that is read as the number of an operand register. -/
theorem op {f : BitVec 4} (_ : f &&& 0 = 0) : opBits (opOf f) = f := opBits_opOf f

/-- FL of an MM command: only FL[0] is free. -/
theorem engine {f : BitVec 4} (h : f &&& 0xE = 0) : engineBits (engineOf (f.getLsbD 0)) = f := by
  revert f; decide

theorem flag0 {f : BitVec 4} (h : f &&& 0xE = 0) : flagBits false false (f.getLsbD 0) = f := by
  revert f; decide

theorem flag012 {f : BitVec 4} (h : f &&& 0x8 = 0) :
    flagBits (f.getLsbD 2) (f.getLsbD 1) (f.getLsbD 0) = f := by
  revert f; decide

/-- FL[0] of SIGN, VERIFY and ECDH says that the key field is absent (R136). -/
theorem keyAbsent {α : Type} {v : Word} {o : Option α} (ho : o.isSome = !flBit v 0)
    (h : flField v &&& 0xE = 0) : flagBits false false o.isNone = flField v := by
  rw [← Option.not_isSome, ho, Bool.not_not]
  exact flag0 h

/-- The flags of SET_KEYPAIR say which fields are present and which slot is meant (R136). -/
theorem keypair {v : Word} {priv : Option OpIdx} {pub : Option PtIdx} (hpriv : priv.isSome = flBit v 1)
    (hpub : pub.isSome = flBit v 2) (h : flField v &&& 0x8 = 0) :
    flagBits pub.isSome priv.isSome (slotOf (flBit v 0) == .eph) = flField v := by
  have hslot : (slotOf (flBit v 0) == .eph) = flBit v 0 := by cases flBit v 0 <;> rfl
  rw [hpriv, hpub, hslot]
  exact flag012 h

end Row

theorem bne_of_fields_ne {f g : BitVec 4} (h : f ≠ g) : (opOf f != opOf g) = true :=
  bne_iff_ne.2 fun e => h (congrArg opBits e)

/-! ### The immediates of format I -/

theorem encode_init_of_meets {v : Word} (h : v &&& 0x7C00FFFF = 0x00000001) :
    encode (.init (policyOf (v.getLsbD 31)) (fieldBitsField v)) = v := by
  have hpol : (policyOf (v.getLsbD 31) == .ct) = v.getLsbD 31 := by cases v.getLsbD 31 <;> rfl
  apply BitVec.eq_of_getLsbD_eq
  intro k hk
  have hbit := congrArg (BitVec.getLsbD · k) h
  simp only [encode, packI, fieldBitsField, hpol, BitVec.getLsbD_append, BitVec.getLsbD_and] at hbit ⊢
  interval_cases k <;> simp_all

theorem encode_setStdDomain_of_meets {v : Word} (h : v &&& 0xFF00FFFF = 0x00000003) :
    encode (.setStdDomain (cidField v)) = v := by
  apply BitVec.eq_of_getLsbD_eq
  intro k hk
  have hbit := congrArg (BitVec.getLsbD · k) h
  simp only [encode, packI, cidField, BitVec.getLsbD_append, BitVec.getLsbD_and] at hbit ⊢
  interval_cases k <;> simp_all

/-! ### The rows -/

open Row in
/-- What a legal word decodes to is well-formed and encodes to that word, row by row. -/
theorem encode_of_decode {v : Word} {i : Instr} (h : decode v = .ok i) : i.wellFormed = true ∧ encode i = v := by
  unfold decode at h
  split at h
  -- no row: the opcode is unassigned
  case h_30 => cases h
  all_goals
    simp only [rowCheck_eq_ok, bind_eq_ok, distinctDests_eq_ok, ptOf_eq_ok_iff, optOpOf_eq_ok, optPtOf_eq_ok,
      Except.ok.injEq] at h
    obtain ⟨hm, h⟩ := h
  -- NOP, SET_DOMAIN, GET_DOMAIN, GET_ORDER_BITS
  case h_1 | h_3 | h_5 | h_6 =>
    subst h
    exact ⟨rfl, packR_eq_of_meets fixed fixed fixed fixed fixed fixed hm⟩
  -- INIT
  case h_2 => subst h; exact ⟨rfl, encode_init_of_meets hm⟩
  -- SET_STD_DOMAIN
  case h_4 => subst h; exact ⟨rfl, encode_setStdDomain_of_meets hm⟩
  -- MM_ENC, MM_DEC, MM_SQR, MM_INV
  case h_7 | h_8 | h_10 | h_11 =>
    subst h
    exact ⟨rfl, packR_eq_of_meets engine fixed fixed op fixed op hm⟩
  -- MM_MUL
  case h_9 =>
    subst h
    exact ⟨rfl, packR_eq_of_meets engine fixed op op fixed op hm⟩
  -- PT_SET_AFFINE
  case h_12 =>
    obtain ⟨rd, hrd, rfl⟩ := h
    exact ⟨rfl, packR_eq_of_meets fixed fixed op op fixed (free hrd) hm⟩
  -- PT_SET_PROJ
  case h_13 =>
    obtain ⟨rd, hrd, rfl⟩ := h
    exact ⟨rfl, packR_eq_of_meets fixed op op op fixed (free hrd) hm⟩
  -- PT_SET_INF
  case h_14 =>
    obtain ⟨rd, hrd, rfl⟩ := h
    exact ⟨rfl, packR_eq_of_meets fixed fixed fixed fixed fixed (free hrd) hm⟩
  -- PT_GET_AFFINE
  case h_15 =>
    obtain ⟨ra, hra, hne, rfl⟩ := h
    exact ⟨bne_of_fields_ne hne, packR_eq_of_meets fixed fixed fixed (free hra) op op hm⟩
  -- PT_CHECK
  case h_16 =>
    obtain ⟨ra, hra, rfl⟩ := h
    exact ⟨rfl, packR_eq_of_meets fixed fixed fixed (free hra) fixed fixed hm⟩
  -- PT_CMP
  case h_17 =>
    obtain ⟨ra, hra, rb, hrb, rfl⟩ := h
    exact ⟨rfl, packR_eq_of_meets fixed fixed (free hrb) (free hra) fixed fixed hm⟩
  -- PT_NEG, PT_DBL
  case h_18 | h_19 =>
    obtain ⟨rd, hrd, ra, hra, rfl⟩ := h
    exact ⟨rfl, packR_eq_of_meets fixed fixed fixed (free hra) fixed (free hrd) hm⟩
  -- PT_ADD
  case h_20 =>
    obtain ⟨rd, hrd, ra, hra, rb, hrb, rfl⟩ := h
    exact ⟨rfl, packR_eq_of_meets fixed fixed (free hrb) (free hra) fixed (free hrd) hm⟩
  -- PT_MUL
  case h_21 =>
    obtain ⟨rd, hrd, ra, hra, rfl⟩ := h
    exact ⟨rfl, packR_eq_of_meets fixed fixed op (free hra) fixed (free hrd) hm⟩
  -- PT_MUL_BASE, DERIVE_PUB
  case h_22 | h_25 =>
    obtain ⟨rd, hrd, rfl⟩ := h
    exact ⟨rfl, packR_eq_of_meets fixed fixed fixed op fixed (free hrd) hm⟩
  -- PT_MUL2
  case h_23 =>
    obtain ⟨rd, hrd, ra, hra, rc, hrc, rfl⟩ := h
    exact ⟨rfl, packR_eq_of_meets fixed (free hrc) op (free hra) op (free hrd) hm⟩
  -- GEN_KEYPAIR
  case h_24 =>
    obtain ⟨re, hre, rfl⟩ := h
    exact ⟨rfl, packR_eq_of_meets fixed fixed fixed fixed (free hre) op hm⟩
  -- SET_KEYPAIR
  case h_26 =>
    obtain ⟨priv, ⟨hpriv, hra⟩, pub, ⟨hpub, hrb⟩, rfl⟩ := h
    exact ⟨rfl, packR_eq_of_meets (keypair hpriv hpub) fixed (free hrb) (free hra) fixed fixed hm⟩
  -- SIGN
  case h_27 =>
    obtain ⟨priv, ⟨hpriv, hrb⟩, hne, rfl⟩ := h
    exact ⟨bne_of_fields_ne hne, packR_eq_of_meets (keyAbsent hpriv) fixed (free hrb) op op op hm⟩
  -- VERIFY
  case h_28 =>
    obtain ⟨pub, ⟨hpub, hrd⟩, rfl⟩ := h
    exact ⟨rfl, packR_eq_of_meets (keyAbsent hpub) op op op fixed (free hrd) hm⟩
  -- ECDH
  case h_29 =>
    obtain ⟨priv, ⟨hpriv, hra⟩, rb, hrb, rfl⟩ := h
    exact ⟨rfl, packR_eq_of_meets (keyAbsent hpriv) fixed (free hrb) (free hra) fixed op hm⟩

/-- Settles O2: the row's mask fixes every field that the command does not hold. -/
theorem encodeDecodeRoundTrip : Obligations.EncodeDecodeRoundTrip := fun _ _ => encode_of_decode

/-- A word in flight that does not decode completes with IllegalCommand (R139). -/
theorem sequencer_illegal {s : State} {e : DecodeError} (hb : s.busy = true) (hd : decode s.lastCmd = .error e) :
    s.sequencer = .next (s.completeErr .illegalCommand) := by
  simp [State.sequencer, hb, hd]

/-- Settles O5: such a word does not decode, since a command it decoded to would encode to it. -/
theorem illegalWordCompletes : Obligations.IllegalWordCompletes := by
  intro s hb hill
  cases hd : decode s.lastCmd with
  | error e => exact sequencer_illegal hb hd
  | ok i =>
    obtain ⟨hwf, henc⟩ := encode_of_decode hd
    exact absurd henc (hill i hwf)

/-- Settles O3: each word is evaluated. -/
theorem specWordsDecode : Obligations.SpecWordsDecode := by
  unfold Obligations.SpecWordsDecode
  decide

/-- Settles O11: an error and a waiting GEN_KEYPAIR write no register, and an OK commits staged writes within
the command's frame. -/
theorem registerFrame : Obligations.RegisterFrame := by
  intro i s t ht
  rcases exec_answers i s with ⟨u, v, hu, ho⟩ | ⟨e, v, -, -, -, ho⟩ | ⟨-, ho | ho⟩
  all_goals cases ht.symm.trans ho
  · refine ⟨fun j hj => ?_, fun j hj hc => hu.pts hc j hj, fun j hc => hu.stale hc j⟩
    have hop : (u.close .ok v).op j = s.op j := hu.ops j hj
    exact ⟨hop, fun k => by rw [hop]⟩
  all_goals exact ⟨fun _ _ => ⟨rfl, fun _ => rfl⟩, fun _ _ _ => rfl, fun _ _ => .inl rfl⟩

end Sys2Proof.Proofs
end

section
/-! PROOFS. The pseudo-instructions (spec 30_encoding.md R143): each step completes with OK and leaves its value in
the destination, where the next step finds it; at the end the radix cancels (40_montgomery.md R173 to R177), and
⊖⊖P = P (43_group_law.md R278). -/

namespace Sys2Proof.Proofs
open Sys2Proof.Machine

/-! ### A command whose checks all hold -/

theorem finish_of_none {s t : State} {cs : List Check} (h : firstFailure cs = none) (v : Word) :
    s.finish cs t v = .next (t.completeOk v) := by
  rw [State.finish, h]

theorem commonChecks_none {s : State} {srcs : List Src} (hi : s.ctx.init = true) (hs : s.dom.set = true)
    (h : ∀ x ∈ srcs, s.present x = true ∧ s.fresh x = true) : firstFailure (s.commonChecks srcs) = none := by
  have hp : srcs.all s.present = true := List.all_eq_true.2 fun x hx => (h x hx).1
  have hf : srcs.all s.fresh = true := List.all_eq_true.2 fun x hx => (h x hx).2
  simp [State.commonChecks, State.presenceChecks, firstFailure_append, firstFailure_map, firstFailure_cons, hp,
    hf, hi, hs]

/-- A list of commands goes on from the state that its first one leaves. -/
theorem runCmds_cons {i : Instr} {s t : State} (h : exec i s = .next t) (rest : List Instr) :
    runCmds (i :: rest) s = runCmds rest t := by
  rw [runCmds, h]

/-! ### The Montgomery steps -/

/-- A source OPi that passes the checks of R172: it holds `v`, a residue of the modulus of the bound engine `E` that
`e` selects. The modulus fits an operand register, so a residue is stored whole. -/
structure MmSource (s : State) (e : EngineSel) (E : Engine) (i : OpIdx) (v : Nat) : Prop where
  init : s.ctx.init = true
  set : s.dom.set = true
  engine : s.engine e = E
  fits : E.m < 2 ^ 544
  valid : (s.op i).valid = true
  val : s.opVal i = v
  lt : v < E.m

section montgomery

variable {s : State} {e : EngineSel} {E : Engine} {rd ra rb : OpIdx} {a b : Nat}

/-- A command that completes with a residue in its destination leaves a source there and keeps the others. -/
theorem mmSource_step {i : Instr} {x : Nat} (ha : MmSource s e E ra a)
    (hx : exec i s = .next ((s.writeOp rd (x % E.m)).completeOk 0)) :
    ∃ t, exec i s = .next t ∧ t.code = .ok ∧ MmSource t e E rd (x % E.m) ∧
      ∀ rb b, rd ≠ rb → MmSource s e E rb b → MmSource t e E rb b := by
  have hE : State.engine ((s.writeOp rd (x % E.m)).completeOk 0) e = E := by rw [← ha.engine]; cases e <;> rfl
  have hlt : x % E.m < E.m := Nat.mod_lt _ (Nat.zero_lt_of_lt ha.lt)
  refine ⟨_, hx, rfl, ⟨ha.init, ha.set, hE, ha.fits, congrArg OpReg.valid (s.op_writeOp_self rd _),
    s.opVal_writeOp_self rd (hlt.trans ha.fits), hlt⟩, fun rb b hne hb => ?_⟩
  exact ⟨hb.init, hb.set, hE, hb.fits, (congrArg OpReg.valid (s.op_writeOp_ne _ hne)).trans hb.valid,
    (s.opVal_writeOp_ne _ hne).trans hb.val, hb.lt⟩

theorem mmChecks_none {srcs : List OpIdx} (hi : s.ctx.init = true) (hs : s.dom.set = true)
    (h : ∀ i ∈ srcs, ∃ v, MmSource s e E i v) : firstFailure (s.mmChecks e srcs) = none := by
  have hcommon : firstFailure (s.commonChecks (srcs.map .op)) = none := by
    refine commonChecks_none hi hs fun x hx => ?_
    obtain ⟨i, hmem, rfl⟩ := List.mem_map.1 hx
    obtain ⟨v, hv⟩ := h i hmem
    exact ⟨hv.valid, rfl⟩
  have hrange : (srcs.all fun i => decide (s.opVal i < (s.engine e).m)) = true := by
    refine List.all_eq_true.2 fun i hmem => decide_eq_true ?_
    obtain ⟨v, hv⟩ := h i hmem
    rw [hv.val, hv.engine]
    exact hv.lt
  rw [State.mmChecks, firstFailure_append, hcommon, firstFailure_map, if_pos hrange]
  rfl

theorem mmChecks_none_one (ha : MmSource s e E ra a) : firstFailure (s.mmChecks e [ra]) = none :=
  mmChecks_none ha.init ha.set (by simpa using ⟨a, ha⟩)

theorem exec_mmEnc (ha : MmSource s e E ra a) (rd : OpIdx) :
    exec (.mmEnc rd ra e) s = .next ((s.writeOp rd (a * E.radix % E.m)).completeOk 0) := by
  simp only [exec, execMmEnc, ha.val, ha.engine]
  exact finish_of_none (mmChecks_none_one ha) 0

theorem exec_mmDec (ha : MmSource s e E ra a) (rd : OpIdx) :
    exec (.mmDec rd ra e) s = .next ((s.writeOp rd (a * invMod E.m E.radix % E.m)).completeOk 0) := by
  simp only [exec, execMmDec, ha.val, ha.engine]
  exact finish_of_none (mmChecks_none_one ha) 0

theorem exec_mmMul (ha : MmSource s e E ra a) (hb : MmSource s e E rb b) (rd : OpIdx) :
    exec (.mmMul rd ra rb e) s =
      .next ((s.writeOp rd (a * b * invMod E.m E.radix % E.m)).completeOk 0) := by
  simp only [exec, execMmMul, ha.val, hb.val, ha.engine]
  exact finish_of_none (mmChecks_none ha.init ha.set (by simpa using ⟨⟨a, ha⟩, b, hb⟩)) 0

theorem exec_mmSqr (ha : MmSource s e E ra a) (rd : OpIdx) :
    exec (.mmSqr rd ra e) s = .next ((s.writeOp rd (a * a * invMod E.m E.radix % E.m)).completeOk 0) := by
  simp only [exec, execMmSqr, ha.val, ha.engine]
  exact finish_of_none (mmChecks_none_one ha) 0

theorem exec_mmInv (ha : MmSource s e E ra a) (hg : Nat.gcd a E.m = 1) (rd : OpIdx) :
    exec (.mmInv rd ra e) s =
      .next ((s.writeOp rd (E.radix * E.radix * invMod E.m a % E.m)).completeOk 0) := by
  simp only [exec, execMmInv, ha.val, ha.engine, hg]
  refine finish_of_none ?_ 0
  rw [firstFailure_append, mmChecks_none_one ha]
  rfl

end montgomery

/-! ### The radix cancels -/

/-- An encoded residue has an inverse when the residue has one. -/
theorem encoded_coprime {m a : Nat} (hodd : m % 2 = 1) (hg : Nat.gcd a m = 1) :
    Nat.gcd (a * radix m % m) m = 1 := by
  rw [← Nat.gcd_rec, Nat.gcd_comm]
  exact Nat.Coprime.mul_left hg (radix_coprime hodd)

section radix

variable {m : Nat} (hm : 1 < m) (hodd : m % 2 = 1)
include hm hodd

theorem invMod_radix_mul : ((invMod m (radix m) : Nat) : ZMod m) * (radix m : ZMod m) = 1 :=
  invMod_cast_mul hm (radix_coprime hodd)

/-- (a·R)·b·R⁻¹ = a·b. -/
theorem fmul_value (a b : Nat) : a * radix m % m * b * invMod m (radix m) % m = a * b % m := by
  have hR := invMod_radix_mul hm hodd
  refine eq_of_cast_eq (Nat.mod_lt _ (by omega)) (Nat.mod_lt _ (by omega)) ?_
  simp only [cast_natMod, Nat.cast_mul]
  linear_combination (a : ZMod m) * b * hR

/-- (a·R)²·R⁻¹·R⁻¹ = a². -/
theorem fsqr_value (a : Nat) : (a * radix m % m) * (a * radix m % m) * invMod m (radix m) % m *
    invMod m (radix m) % m = a * a % m := by
  have hR := invMod_radix_mul hm hodd
  refine eq_of_cast_eq (Nat.mod_lt _ (by omega)) (Nat.mod_lt _ (by omega)) ?_
  simp only [cast_natMod, Nat.cast_mul]
  linear_combination (a : ZMod m) * a * (1 + invMod m (radix m) * radix m) * hR

/-- R²·(a·R)⁻¹·R⁻¹ is an inverse of a. -/
theorem finv_value {a : Nat} (hg : Nat.gcd a m = 1) :
    radix m * radix m * invMod m (a * radix m % m) % m * invMod m (radix m) % m * a % m = 1 := by
  have hR := invMod_radix_mul hm hodd
  have hA := invMod_cast_mul hm (encoded_coprime hodd hg)
  refine eq_of_cast_eq (Nat.mod_lt _ (by omega)) hm ?_
  simp only [cast_natMod, Nat.cast_mul, Nat.cast_one] at hA ⊢
  linear_combination (radix m : ZMod m) * invMod m (a * radix m % m) * a * hR + hA

end radix

/-! ### The engines of an installed domain -/

theorem engine_m (s : State) (e : EngineSel) : (s.engine e).m = if e = .p then s.dom.p else s.dom.r := by
  cases e <;> rfl

theorem engine_radix (s : State) (e : EngineSel) : (s.engine e).radix = radix (s.engine e).m := by
  cases e <;> rfl

/-- The modulus of a bound engine is odd, at least 3 and fits an operand register (R67, R170). -/
theorem engine_bounds {s : State} (h : s.Inv) (hs : s.dom.set = true) (e : EngineSel) :
    (s.engine e).m % 2 = 1 ∧ 3 ≤ (s.engine e).m ∧ (s.engine e).m < 2 ^ 544 := by
  have hd := h.dom_valid hs
  have hf := (h.ctx_range (h.set_init hs)).2
  rw [Config.maxFieldBits] at hf
  cases e with
  | p => exact ⟨hd.p_odd, hd.p_ge, (bitlen_le_iff _ _).1 (hd.p_bits.trans (by omega))⟩
  | n => exact ⟨hd.r_odd, hd.r_ge, (bitlen_le_iff _ _).1 (hd.r_bits.trans (by omega))⟩

/-! ### The point steps -/

/-- A source PTi of a point command under the domain `d`: it is VALID and holds `P`, and R206 does not leave the
command open. -/
structure PtSource (s : State) (d : Domain) (i : PtIdx) (P : Point) : Prop where
  init : s.ctx.init = true
  set : s.dom.set = true
  dom : s.dom = d
  notComposite : s.compositeP = false
  valid : s.pt i = .valid P

section points

variable {s : State} {d : Domain} {rd ra rb : PtIdx} {P Q : Point}

/-- A command that completes with a point in its destination leaves a source there and keeps the others. -/
theorem ptSource_step {i : Instr} {v : Word} (ha : PtSource s d ra P)
    (hx : exec i s = .next ((s.writePt rd Q).completeOk v)) :
    ∃ t, exec i s = .next t ∧ t.code = .ok ∧ PtSource t d rd Q ∧
      ∀ rb P', rd ≠ rb → PtSource s d rb P' → PtSource t d rb P' :=
  ⟨_, hx, rfl, ⟨ha.init, ha.set, ha.dom, ha.notComposite, s.pt_writePt_self rd Q⟩, fun _ _ hne hb =>
    ⟨hb.init, hb.set, hb.dom, hb.notComposite, (s.pt_writePt_ne Q hne).trans hb.valid⟩⟩

theorem PtSource.usable (h : PtSource s d ra P) : s.present (.pt ra) = true ∧ s.fresh (.pt ra) = true :=
  (s.pt_valid_iff ra).1 ⟨P, h.valid⟩

theorem exec_ptNeg (ha : PtSource s d ra P) (rd : PtIdx) :
    exec (.ptNeg rd ra) s = .next ((s.writePt rd (d.neg P)).completeOk (infResult (d.neg P))) := by
  simp only [exec, execPtNeg, State.ptVal_of_valid ha.valid, ha.dom, s.finishGroup_of_not ha.notComposite]
  exact finish_of_none (commonChecks_none ha.init ha.set (by simpa using ha.usable)) _

theorem exec_ptAdd (ha : PtSource s d ra P) (hb : PtSource s d rb Q) (rd : PtIdx) :
    exec (.ptAdd rd ra rb) s = .next ((s.writePt rd (d.add P Q)).completeOk (infResult (d.add P Q))) := by
  simp only [exec, execPtAdd, State.ptVal_of_valid ha.valid, State.ptVal_of_valid hb.valid, ha.dom,
    s.finishGroup_of_not ha.notComposite]
  exact finish_of_none (commonChecks_none ha.init ha.set (by simpa using ⟨ha.usable, hb.usable⟩)) _

end points

/-- ⊖⊖P = P (R278). -/
theorem neg_neg_point (d : Domain) {P : Point} (h : P.below d.p) : d.neg (d.neg P) = P := by
  cases P with
  | inf => rfl
  | aff x y =>
    have hp : 0 < d.p := Nat.zero_lt_of_lt h.2
    simp only [Domain.neg, Point.aff.injEq, true_and]
    refine eq_of_cast_eq (residue_lt _ hp) h.2 ?_
    rw [residue_cast _ hp, Int.cast_sub, Int.cast_natCast, Int.cast_natCast, residue_cast _ hp]
    simp

/-! ### The expansions -/

section expansions

variable {s : State} {e : EngineSel} {E : Engine} {d a b : OpIdx} {x y : Nat}
  (hR : E.radix = radix E.m) (hm : 1 < E.m) (hodd : E.m % 2 = 1)
include hR hm hodd

theorem runCmds_fmul (ha : MmSource s e E a x) (hb : MmSource s e E b y) (hdb : d ≠ b) :
    ∃ t, runCmds (Pseudo.fmul e d a b).expand s = .next t ∧ t.code = .ok ∧ MmSource t e E d (x * y % E.m) := by
  obtain ⟨t, ht, -, h1, hkeep⟩ := mmSource_step ha (exec_mmEnc ha d)
  obtain ⟨u, hu, hok, h2, -⟩ := mmSource_step h1 (exec_mmMul h1 (hkeep b y hdb hb) d)
  rw [hR, fmul_value hm hodd] at h2
  exact ⟨u, (runCmds_cons ht _).trans (runCmds_cons hu _), hok, h2⟩

theorem runCmds_fsqr (ha : MmSource s e E a x) :
    ∃ t, runCmds (Pseudo.fsqr e d a).expand s = .next t ∧ t.code = .ok ∧ MmSource t e E d (x * x % E.m) := by
  obtain ⟨t, ht, -, h1, -⟩ := mmSource_step ha (exec_mmEnc ha d)
  obtain ⟨u, hu, -, h2, -⟩ := mmSource_step h1 (exec_mmSqr h1 d)
  obtain ⟨w, hw, hok, h3, -⟩ := mmSource_step h2 (exec_mmDec h2 d)
  rw [hR, fsqr_value hm hodd] at h3
  exact ⟨w, (runCmds_cons ht _).trans ((runCmds_cons hu _).trans (runCmds_cons hw _)), hok, h3⟩

theorem runCmds_finv (ha : MmSource s e E a x) (hg : Nat.gcd x E.m = 1) :
    ∃ t v, runCmds (Pseudo.finv e d a).expand s = .next t ∧ t.code = .ok ∧ MmSource t e E d v ∧
      v * x % E.m = 1 := by
  have hg1 : Nat.gcd (x * E.radix % E.m) E.m = 1 := hR ▸ encoded_coprime hodd hg
  obtain ⟨t, ht, -, h1, -⟩ := mmSource_step ha (exec_mmEnc ha d)
  obtain ⟨u, hu, -, h2, -⟩ := mmSource_step h1 (exec_mmInv h1 hg1 d)
  obtain ⟨w, hw, hok, h3, -⟩ := mmSource_step h2 (exec_mmDec h2 d)
  refine ⟨w, _, (runCmds_cons ht _).trans ((runCmds_cons hu _).trans (runCmds_cons hw _)), hok, h3, ?_⟩
  rw [hR]
  exact finv_value hm hodd hg

end expansions

theorem runCmds_ptCopy {s : State} {dom : Domain} {d a : PtIdx} {P : Point} (ha : PtSource s dom a P)
    (hP : P.below dom.p) :
    ∃ t, runCmds (Pseudo.ptCopy d a).expand s = .next t ∧ t.code = .ok ∧ PtSource t dom d P := by
  obtain ⟨t, ht, -, h1, -⟩ := ptSource_step ha (exec_ptNeg ha d)
  obtain ⟨u, hu, hok, h2, -⟩ := ptSource_step h1 (exec_ptNeg h1 d)
  rw [neg_neg_point dom hP] at h2
  exact ⟨u, (runCmds_cons ht _).trans (runCmds_cons hu _), hok, h2⟩

theorem runCmds_ptSub {s : State} {dom : Domain} {d a b : PtIdx} {P Q : Point} (ha : PtSource s dom a P)
    (hb : PtSource s dom b Q) (hda : d ≠ a) :
    ∃ t, runCmds (Pseudo.ptSub d a b).expand s = .next t ∧ t.code = .ok ∧
      PtSource t dom d (dom.add P (dom.neg Q)) := by
  obtain ⟨t, ht, -, h1, hkeep⟩ := ptSource_step hb (exec_ptNeg hb d)
  obtain ⟨u, hu, hok, h2, -⟩ := ptSource_step h1 (exec_ptAdd (hkeep a P hda ha) h1 d)
  exact ⟨u, (runCmds_cons ht _).trans (runCmds_cons hu _), hok, h2⟩

/-- Settles O17: each step finds in its source what the step before left there, and the radix and the second
negation cancel. -/
theorem pseudoInstructionsCompute : Obligations.PseudoInstructionsCompute := by
  intro s e m hinv hset hm
  rw [← engine_m] at hm
  subst hm
  have hinit := hinv.set_init hset
  have hR := engine_radix s e
  obtain ⟨hodd, hge, hfits⟩ := engine_bounds hinv hset e
  have hone : 1 < (s.engine e).m := by omega
  have source : ∀ i, (s.op i).valid = true → s.opVal i < (s.engine e).m →
      MmSource s e (s.engine e) i (s.opVal i) := fun i hv hl => ⟨hinit, hset, rfl, hfits, hv, rfl, hl⟩
  have point : ∀ i P, s.compositeP = false → s.pt i = .valid P → PtSource s s.dom i P :=
    fun i P hc hP => ⟨hinit, hset, rfl, hc, hP⟩
  refine ⟨fun d a b hdb hva hvb ha hb => ?_, fun d a hva ha => ?_, fun d a hva ha hg => ?_, fun d a P hc hP => ?_,
    fun d a b P Q hc hda hP hQ => ?_⟩
  · obtain ⟨t, ht, hok, h⟩ := runCmds_fmul hR hone hodd (source a hva ha) (source b hvb hb) hdb
    exact ⟨t, ht, hok, h.valid, h.val⟩
  · obtain ⟨t, ht, hok, h⟩ := runCmds_fsqr hR hone hodd (d := d) (source a hva ha)
    exact ⟨t, ht, hok, h.valid, h.val⟩
  · obtain ⟨t, v, ht, hok, h, hv⟩ := runCmds_finv hR hone hodd (d := d) (source a hva ha) hg
    exact ⟨t, ht, hok, h.valid, h.val ▸ h.lt, h.val ▸ hv⟩
  · obtain ⟨t, ht, hok, h⟩ := runCmds_ptCopy (d := d) (point a P hc hP) (hinv.pt_valid a P hP).2
    exact ⟨t, ht, hok, h.valid⟩
  · obtain ⟨t, ht, hok, h⟩ := runCmds_ptSub (point a P hc hP) (point b Q hc hQ) hda
    exact ⟨t, ht, hok, h.valid⟩

end Sys2Proof.Proofs
end

section
/-! PROOFS. The Montgomery engines (spec 40_montgomery.md R170 to R177): after the common checks every source must lie
below the modulus, and the value written is the residue that the rule's congruence determines. -/

namespace Sys2Proof.Proofs
open Sys2Proof.Machine Sys2Proof.Laws

/-- A well-formed command has the opcode of its table row, and its word decodes to it (R131, R141). -/
theorem encodes_of_wellFormed {i : Instr} (h : i.wellFormed = true) :
    Encodes i (opcField (TableRow.row i).2) :=
  ⟨opcField_encode i, decode_encode h⟩

/-- The modulus and the radix of the statements are those of the selected engine (R170). -/
theorem engine_eq {s : State} {e : EngineSel} {m R : Nat} (hm : m = if e = .p then s.dom.p else s.dom.r)
    (hR : R = 2 ^ (32 * ((bitlen m + 31) / 32))) : m = (s.engine e).m ∧ R = (s.engine e).radix := by
  rw [← engine_m] at hm
  subst hm
  exact ⟨rfl, hR.trans (engine_radix s e).symm⟩

/-- `x·y⁻¹·y ≡ x` (mod m), for a `y` with an inverse (R8). -/
theorem mul_invMod_mul_mod {m y : Nat} (hm : 1 < m) (hg : Nat.gcd y m = 1) (x : Nat) :
    x * invMod m y % m * y % m = x % m := by
  rw [Nat.mod_mul_mod, Nat.mul_assoc, Nat.mul_mod, invMod_mul_mod hm hg, Nat.mul_one, Nat.mod_mod]

/-! ### The discipline of R172 -/

section discipline

variable {i : Instr} {s t : State} {e : EngineSel} {srcs : List OpIdx} {v : Word}

/-- A command of the engines makes the common checks first; for a ready one a source that is not below the modulus is
a RangeError, and else the command goes on with the checks of its own. -/
theorem mmCommand_rule {rest : List Check} (hsrc : sources i = srcs.map .op)
    (hexec : exec i s = s.finish (s.mmChecks e srcs ++ rest) t v) :
    CommonFirst i s ∧ (s.ready i = true →
      ((∃ j ∈ srcs, (s.engine e).m ≤ s.opVal j) → exec i s = .next (s.completeErr .rangeError)) ∧
      ((∀ j ∈ srcs, s.opVal j < (s.engine e).m) → exec i s = s.finish rest t v)) := by
  rw [State.mmChecks, ← hsrc, List.append_assoc] at hexec
  obtain ⟨hcommon, hrun⟩ := commonFirst_of_finish hexec
  refine ⟨hcommon, fun hready => ?_⟩
  rw [hrun hready, State.finish_append, firstFailure_map]
  refine ⟨fun ⟨j, hj, hge⟩ => ?_, fun hlt => ?_⟩
  · rw [if_neg]
    exact fun hall => absurd (of_decide_eq_true (List.all_eq_true.1 hall j hj)) (Nat.not_lt.2 hge)
  · rw [if_pos]
    exact List.all_eq_true.2 fun j hj => decide_eq_true (hlt j hj)

/-- The rule that MM_DEC, MM_MUL and MM_SQR share: such a command writes the Montgomery reduction of the product `x`
of its sources, the `v` below m with `v·R ≡ x` (mod m) (R174 to R176). -/
theorem mmReduce_rule {rd : OpIdx} {x : Nat} (hinv : s.Inv) (hsrc : sources i = srcs.map .op)
    (hexec : exec i s = s.finish (s.mmChecks e srcs)
      (s.writeOp rd (x * invMod (s.engine e).m (s.engine e).radix % (s.engine e).m)) 0) :
    CommonFirst i s ∧ (s.ready i = true →
      ((∃ j ∈ srcs, (s.engine e).m ≤ s.opVal j) → exec i s = .next (s.completeErr .rangeError)) ∧
      ((∀ j ∈ srcs, s.opVal j < (s.engine e).m) → ∃ v, v < (s.engine e).m ∧
        v * (s.engine e).radix % (s.engine e).m = x % (s.engine e).m ∧
        exec i s = .next ((s.writeOp rd v).completeOk 0))) := by
  rw [← List.append_nil (s.mmChecks e srcs)] at hexec
  obtain ⟨hcommon, hrun⟩ := mmCommand_rule hsrc hexec
  refine ⟨hcommon, fun hready => ⟨(hrun hready).1, fun hlt => ?_⟩⟩
  obtain ⟨hodd, hge, -⟩ := engine_bounds hinv (dom_set_of_ready hready) e
  refine ⟨_, Nat.mod_lt _ (by omega), ?_, (hrun hready).2 hlt⟩
  rw [engine_radix]
  exact mul_invMod_mul_mod (by omega) (radix_coprime hodd) x

end discipline

/-! ### The commands -/

/-- Settles O13: once the checks hold, the value written is the one the rule states. -/
theorem mmEncRule : Obligations.MmEncRule := by
  intro rd ra e s m R hm hR
  obtain ⟨rfl, rfl⟩ := engine_eq hm hR
  obtain ⟨hcommon, hrun⟩ := mmCommand_rule (i := .mmEnc rd ra e) (srcs := [ra]) (rest := []) rfl rfl
  simp only [List.mem_singleton, exists_eq_left, forall_eq, State.finish_nil] at hrun
  exact ⟨encodes_of_wellFormed rfl, hcommon, hrun⟩

/-- Settles O14: MM_DEC reduces the source itself, which is its own residue. -/
theorem mmDecRule : Obligations.MmDecRule := by
  intro rd ra e s m R hinv hm hR
  obtain ⟨rfl, rfl⟩ := engine_eq hm hR
  obtain ⟨hcommon, hrun⟩ := mmReduce_rule (i := .mmDec rd ra e) (srcs := [ra]) hinv rfl rfl
  simp only [List.mem_singleton, exists_eq_left, forall_eq] at hrun
  refine ⟨encodes_of_wellFormed rfl, hcommon, fun hready => ⟨(hrun hready).1, fun ha => ?_⟩⟩
  obtain ⟨v, hv, hvR, hexec⟩ := (hrun hready).2 ha
  exact ⟨v, hv, hvR.trans (Nat.mod_eq_of_lt ha), hexec⟩

/-- Settles O15: MM_MUL reduces a·b, and MM_SQR reduces a·a. -/
theorem mmMulSqrRule : Obligations.MmMulSqrRule := by
  intro rd ra rb e s m R hinv hm hR
  obtain ⟨rfl, rfl⟩ := engine_eq hm hR
  obtain ⟨hmul, hmulRun⟩ := mmReduce_rule (i := .mmMul rd ra rb e) (srcs := [ra, rb]) hinv rfl rfl
  obtain ⟨hsqr, hsqrRun⟩ := mmReduce_rule (i := .mmSqr rd ra e) (srcs := [ra]) hinv rfl rfl
  simp only [List.mem_pair, exists_eq_or_imp, exists_eq_left, forall_eq_or_imp, forall_eq, and_imp] at hmulRun
  simp only [List.mem_singleton, exists_eq_left, forall_eq] at hsqrRun
  exact ⟨encodes_of_wellFormed rfl, hmul, encodes_of_wellFormed rfl, hsqr, hmulRun, hsqrRun⟩

/-- Settles O16: a ready MM_INV with its source in range goes on with the check for an inverse, and R²·a⁻¹ cancels
against a. -/
theorem mmInvRule : Obligations.MmInvRule := by
  intro rd ra e s m R hinv hm hR
  obtain ⟨rfl, rfl⟩ := engine_eq hm hR
  obtain ⟨hcommon, hrun⟩ := mmCommand_rule (i := .mmInv rd ra e) (srcs := [ra]) rfl rfl
  simp only [List.mem_singleton, exists_eq_left, forall_eq, State.finish_cons, State.finish_nil,
    decide_eq_true_eq] at hrun
  refine ⟨encodes_of_wellFormed rfl, hcommon, fun hready => ?_⟩
  obtain ⟨hrange, hrest⟩ := hrun hready
  obtain ⟨-, hge, -⟩ := engine_bounds hinv (dom_set_of_ready hready) e
  refine ⟨hrange, fun ha hg => (hrest ha).trans (if_neg hg), fun ha hg => ?_⟩
  exact ⟨_, Nat.mod_lt _ (by omega), mul_invMod_mul_mod (by omega) hg _, (hrest ha).trans (if_pos hg)⟩

end Sys2Proof.Proofs
end

section
/-! PROOFS. The context and domain commands (spec 41_domain.md R201 to R210): which check decides, the one state
that INIT, SET_DOMAIN and SET_STD_DOMAIN commit, and the seven integers that GET_DOMAIN writes back. -/

namespace Sys2Proof.Proofs
open Sys2Proof.Machine

/-! ### NOP -/

/-- The row of NOP masks no bit of the word (R201). -/
theorem decode_opcode_zero {v : Word} (hopc : opcField v = 0) (hv : v ≠ 0) : decode v = .error .mustBeZero := by
  have hmask : v &&& 0xFFFFFFFF = v := BitVec.and_allOnes
  rw [decode, hopc]
  exact if_neg fun hz => hv (hmask.symm.trans hz)

/-- Settles O18: NOP has no check, and its row compares the whole word. -/
theorem nopRule : Obligations.NopRule :=
  ⟨rfl, fun _ => decode_opcode_zero, fun _ => rfl⟩

/-! ### INIT -/

/-- Settles O19: the one check of INIT is the range of fieldBits, and its commit is the state written out. -/
theorem initRule : Obligations.InitRule := by
  intro pol fb s
  have hrange : (decide (Config.minFieldBits ≤ fb.toNat) && decide (fb.toNat ≤ Config.maxFieldBits)) = true ↔
      2 ≤ fb.toNat ∧ fb.toNat ≤ 521 := by
    rw [Bool.and_eq_true, decide_eq_true_eq, decide_eq_true_eq]
    rfl
  refine ⟨encodes_of_wellFormed rfl, fun hout => (State.finish_cons ..).trans (if_neg ?_),
    fun hlo hhi => (State.finish_cons ..).trans (if_pos ?_)⟩
  · exact mt hrange.1 (by omega)
  · exact hrange.2 ⟨hlo, hhi⟩

/-! ### Installing a domain (R203, R204, R208) -/

/-- The checks of check_domain all hold when the seven conditions do (R204). -/
theorem domainChecks_none_iff {n : Nat} {t : CurveTuple} :
    firstFailure (domainChecks n t) = none ↔ t.Fits n := by
  have hall : (∀ c ∈ domainChecks n t, c.1 = true) ↔ t.Fits n := by
    simp [domainChecks, CurveTuple.Fits, and_assoc]
  exact ⟨fun h => hall.1 (all_of_firstFailure h), fun h => firstFailure_eq_none (hall.2 h)⟩

/-- check_domain has no other code than RangeError (R204). -/
theorem domainChecks_rangeError {n : Nat} {t : CurveTuple} (h : ¬ t.Fits n) :
    firstFailure (domainChecks n t) = some .rangeError := by
  cases hf : firstFailure (domainChecks n t) with
  | none => exact absurd (domainChecks_none_iff.1 hf) h
  | some e => rw [List.mem_singleton.1 (codes_domain (List.mem_singleton_self _) e (firstFailure_mem hf))]

/-- The state that the model commits is the one of the statements (R203, R207). -/
theorem installDomain_eq_withDomain (s : State) (t : CurveTuple) : s.installDomain t = s.withDomain t := rfl

/-- What SET_DOMAIN and SET_STD_DOMAIN share: the context, then check_domain, then the commit (R203, R208). -/
theorem install_rule {s : State} {t : CurveTuple} {o : StepResult}
    (ho : o = s.finish ((s.ctx.init, .contextMismatch) :: domainChecks s.ctx.fieldBits t) (s.installDomain t) 0) :
    (s.ctx.init = false → o = .next (s.completeErr .contextMismatch)) ∧
    (s.ctx.init = true →
      (¬ t.Fits s.ctx.fieldBits → o = .next (s.completeErr .rangeError)) ∧
      (t.Fits s.ctx.fieldBits → o = .next ((s.withDomain t).completeOk 0))) := by
  rw [installDomain_eq_withDomain, State.finish_cons] at ho
  refine ⟨fun hi => ho.trans (if_neg (by simp [hi])), fun hi => ?_⟩
  rw [if_pos hi] at ho
  refine ⟨fun hf => ?_, fun hf => ho.trans (finish_of_none (domainChecks_none_iff.2 hf) 0)⟩
  rw [ho, State.finish, domainChecks_rangeError hf]

theorem mem_domainRegs (i : OpIdx) : i ∈ domainRegs ↔ i.val ≤ 6 := by
  revert i
  decide

theorem domainRegs_present (s : State) :
    (domainRegs.map .op).all s.present = true ↔ ∀ i : OpIdx, i.val ≤ 6 → (s.op i).valid = true := by
  simp only [List.all_map, List.all_eq_true, mem_domainRegs, Function.comp_apply, State.present]

/-- SET_DOMAIN looks for its seven sources first, and then installs what they hold (R203, R425). -/
theorem exec_setDomain (s : State) : exec .setDomain s =
    if (domainRegs.map .op).all s.present then
      s.finish ((s.ctx.init, .contextMismatch) :: domainChecks s.ctx.fieldBits s.domainOperands)
        (s.installDomain s.domainOperands) 0
    else .next (s.completeErr .nullInput) := by
  rw [exec, execSetDomain, List.append_assoc, State.finish_append, State.presenceChecks, firstFailure_map]
  cases (domainRegs.map Src.op).all s.present <;> rfl

/-- Settles O20: without one of the sources the presence decides, and with all of them `install_rule`. -/
theorem setDomainRule : Obligations.SetDomainRule := by
  rintro s t rfl
  refine ⟨encodes_of_wellFormed rfl, fun ⟨i, hi, hv⟩ => ?_, fun hv => install_rule ?_⟩
  · rw [exec_setDomain, if_neg]
    intro hall
    rw [(domainRegs_present s).1 hall i hi] at hv
    cases hv
  · rw [exec_setDomain, if_pos ((domainRegs_present s).2 hv)]
    rfl

/-- An identifier that the catalog has goes on as SET_DOMAIN does with its tuple (R208). -/
theorem exec_setStdDomain_of_some {cid : BitVec 8} {t : CurveTuple} (h : catalog cid = some t) (s : State) :
    exec (.setStdDomain cid) s =
      s.finish ((s.ctx.init, .contextMismatch) :: domainChecks s.ctx.fieldBits t) (s.installDomain t) 0 := by
  rw [exec, execSetStdDomain, h]
  rfl

/-- An identifier that the catalog lacks is refused only after the context is checked (R208). -/
theorem exec_setStdDomain_of_none {cid : BitVec 8} (h : catalog cid = none) (s : State) :
    exec (.setStdDomain cid) s =
      if s.ctx.init then .next (s.completeErr .invalidCurveId) else .next (s.completeErr .contextMismatch) := by
  rw [exec, execSetStdDomain, h]
  exact State.finish_cons ..

/-- Settles O21: the catalog decides between the refusal and the installation, and both check the context first. -/
theorem setStdDomainRule : Obligations.SetStdDomainRule := by
  intro cid s
  refine ⟨encodes_of_wellFormed rfl, fun hi => ?_, fun hi => ⟨fun hc => ?_, fun t hc => ?_⟩⟩
  · cases hc : catalog cid with
    | none => rw [exec_setStdDomain_of_none hc, hi, if_neg Bool.false_ne_true]
    | some t => exact (install_rule (exec_setStdDomain_of_some hc s)).1 hi
  · rw [exec_setStdDomain_of_none hc, if_pos hi]
  · exact (install_rule (exec_setStdDomain_of_some hc s)).2 hi

/-! ### Reading a domain back (R209, R210) -/

/-- The seven integers of a domain, as GET_DOMAIN reads them (R209). -/
def domainTuple (d : Domain) : CurveTuple where
  p := d.p
  a := d.a
  b := d.b
  gx := (d.coords d.G).1
  gy := (d.coords d.G).2
  r := d.r
  h := d.h

/-- The state with a tuple staged in OP0 to OP6, where SET_DOMAIN reads it (R43). -/
def writeTuple (s : State) (t : CurveTuple) : State :=
  ((((((s.writeOp 0 t.p).writeOp 1 t.a).writeOp 2 t.b).writeOp 3 t.gx).writeOp 4 t.gy).writeOp 5 t.r).writeOp 6 t.h

/-- An operand register after a write of `v` (R9, R42). -/
def written (v : Nat) : OpReg := { valid := true, value := BitVec.ofNat 544 v }

theorem op_writeTuple (s : State) (t : CurveTuple) : domainRegs.map (writeTuple s t).op =
    [written t.p, written t.a, written t.b, written t.gx, written t.gy, written t.r, written t.h] := by
  simp [domainRegs, writeTuple, written, State.op_writeOp]

theorem op_writeTuple_of_ge (s : State) (t : CurveTuple) {j : OpIdx} (hj : 7 ≤ j.val) :
    (writeTuple s t).op j = s.op j := by
  have hne : ∀ i : OpIdx, i.val ≤ 6 → i ≠ j := by
    rintro i hi rfl
    omega
  simp [writeTuple, State.op_writeOp_ne, hne]

theorem writeTuple_opsOnly (s : State) (t : CurveTuple) :
    writeTuple s t = { s with ops := (writeTuple s t).ops } := by
  simp only [writeTuple, State.writeOp]

/-- A tuple read from the registers of `u` and written back gives each of them its value: every one fits 544 bits
(R9, R40). -/
theorem opVal_writeTuple_domainOperands (s u : State) {j : OpIdx} (hj : j.val ≤ 6) :
    (writeTuple s u.domainOperands).opVal j = u.opVal j := by
  refine List.map_inj_left.1 (?_ : domainRegs.map _ = domainRegs.map _) j ((mem_domainRegs j).2 hj)
  simp [domainRegs, State.domainOperands, writeTuple, State.opVal, State.op_writeOp]

/-- SET_DOMAIN stores its tuple as GET_DOMAIN reads it: for the pair INF_ENC(b) the point at infinity is stored, and
read as that pair (R207, R209). -/
theorem domainTuple_domainOf (t : CurveTuple) : domainTuple (domainOf t) = t := by
  have hG : (domainOf t).coords (domainOf t).G = (t.gx, t.gy) := by
    simp only [domainOf]
    split
    · next h => exact h.symm
    · rfl
  rw [domainTuple, hG]
  rfl

/-- GET_DOMAIN makes the common checks, and writes the seven integers (R209). -/
theorem exec_getDomain (s : State) : exec .getDomain s =
    s.finish (s.commonChecks (sources .getDomain) ++ []) (writeTuple s (domainTuple s.dom)) 0 := rfl

theorem exec_getDomain_of_ready {s : State} (h : s.ready .getDomain = true) :
    exec .getDomain s = .next ((writeTuple s (domainTuple s.dom)).completeOk 0) :=
  ((commonFirst_of_finish (exec_getDomain s)).2 h).trans (State.finish_nil ..)

theorem exec_getOrderBits (s : State) : exec .getOrderBits s =
    s.finish (s.commonChecks (sources .getOrderBits) ++ []) s (BitVec.ofNat 32 (bitlen s.dom.r)) := rfl

/-- Settles O23: both commands make the common checks alone; GET_DOMAIN leaves in OP0 to OP6 what `op_writeTuple`
says, where an infinite G reads as INF_ENC(b). -/
theorem getDomainOrderBitsRule : Obligations.GetDomainOrderBitsRule := by
  intro s
  obtain ⟨hcommon, -⟩ := commonFirst_of_finish (exec_getDomain s)
  obtain ⟨hcommon', hrun'⟩ := commonFirst_of_finish (exec_getOrderBits s)
  refine ⟨encodes_of_wellFormed rfl, hcommon, encodes_of_wellFormed rfl, hcommon', fun hready => ?_, hrun'⟩
  have hops := op_writeTuple s (domainTuple s.dom)
  simp only [domainRegs, List.map_cons, List.map_nil, List.cons.injEq, and_true] at hops
  obtain ⟨hp, ha, hb, hx, hy, hr, hh⟩ := hops
  refine ⟨writeTuple s (domainTuple s.dom), exec_getDomain_of_ready hready, writeTuple_opsOnly _ _,
    fun j => op_writeTuple_of_ge _ _, hp, ha, hb, ?_, hr, hh⟩
  rw [hx, hy]
  cases hG : s.dom.G with
  | inf =>
    simp only [domainTuple, hG, Domain.coords, infEnc]
    split <;> exact ⟨rfl, rfl⟩
  | aff x y =>
    simp only [domainTuple, hG, Domain.coords]
    exact ⟨rfl, rfl⟩

/-- SET_DOMAIN completes with OK only by installing the tuple it reads, under an initialised context (R203). -/
theorem setDomain_installs {s t : State} (h : exec .setDomain s = .next t) (hok : t.code = .ok) :
    s.ctx.init = true ∧ t = (s.withDomain s.domainOperands).completeOk 0 := by
  obtain ⟨-, hnull, hrun⟩ := setDomainRule s s.domainOperands rfl
  have hno : ∀ e, e ≠ .ok → exec .setDomain s ≠ .next (s.completeErr e) := fun e he ho => by
    cases h.symm.trans ho
    exact he hok
  by_cases hv : ∀ i : OpIdx, i.val ≤ 6 → (s.op i).valid = true
  · obtain ⟨hctx, hinstall⟩ := hrun hv
    have hi : s.ctx.init = true := by
      by_contra hi
      exact hno _ (by decide) (hctx (Bool.eq_false_iff.2 hi))
    obtain ⟨hrange, hcommit⟩ := hinstall hi
    have hf : s.domainOperands.Fits s.ctx.fieldBits := by
      by_contra hf
      exact hno _ (by decide) (hrange hf)
    cases h.symm.trans (hcommit hf)
    exact ⟨hi, rfl⟩
  · push Not at hv
    obtain ⟨i, hi, hvalid⟩ := hv
    exact absurd (hnull ⟨i, hi, Bool.eq_false_iff.2 hvalid⟩) (hno _ (by decide))

/-- Settles O24: the domain that SET_DOMAIN installs holds the tuple it read, and GET_DOMAIN writes that tuple to the
registers it was read from. -/
theorem domainReadsBack : Obligations.DomainReadsBack := by
  intro s t hset hok
  obtain ⟨hinit, ht⟩ := setDomain_installs hset hok
  have hready : t.ready .getDomain = true := by
    simp [ht, State.ready, State.allPresent, sources, State.withDomain, hinit]
  have htuple : domainTuple t.dom = s.domainOperands := by
    rw [ht]
    exact domainTuple_domainOf _
  have hget := exec_getDomain_of_ready hready
  rw [htuple] at hget
  refine ⟨_, hget, rfl, fun j hj => ?_⟩
  exact (State.opVal_congr (State.completeOk_ops _ _) j).trans (opVal_writeTuple_domainOperands t s hj)

end Sys2Proof.Proofs
end

section
/-! PROOFS. The standard-curve catalog (spec 42_curve_catalog.md R240 to R254): the entries in the order of their
identifiers, and why a bit length alone can keep one out of a context (R208). -/

namespace Sys2Proof.Proofs
open Sys2Proof.Machine

/-- The entries of the catalog, in the order of their identifiers 1 to 13 (R240). -/
def catalogTuples : List CurveTuple :=
  [secp112r1, secp112r2, secp128r1, secp128r2, secp160r1, secp160r2, secp192r1, secp224r1, secp256r1, secp384r1,
   secp521r1, sm2p256, bnp256]

/-- The catalog is that list, numbered from 1 (R240). -/
theorem catalog_eq_getElem? (cid : BitVec 8) :
    catalog cid = if cid.toNat = 0 then none else catalogTuples[cid.toNat - 1]? := by
  unfold catalog
  split
  case h_14 =>
    split
    · rfl
    · refine (List.getElem?_eq_none (?_ : 13 ≤ cid.toNat - 1)).symm
      simp only [imp_false] at *
      omega
  all_goals
    next hcid => rw [hcid]; rfl

theorem catalog_isSome_iff (cid : BitVec 8) :
    (catalog cid).isSome = true ↔ 1 ≤ cid.toNat ∧ cid.toNat ≤ 13 := by
  have hlen : catalogTuples.length = 13 := rfl
  rw [catalog_eq_getElem?]
  split
  · next h0 => simp [h0]
  · rw [isSome_getElem?, hlen]
    omega

theorem mem_catalogTuples {cid : BitVec 8} {t : CurveTuple} (h : catalog cid = some t) : t ∈ catalogTuples := by
  rw [catalog_eq_getElem?] at h
  split at h
  · cases h
  · exact List.mem_of_getElem? h

/-- Each base point is on its curve (R11, R254). -/
theorem catalogTuples_base_onCurve : ∀ t ∈ catalogTuples, (domainOf t).onCurve (.aff t.gx t.gy) = true := by
  decide

/-- Each entry fits the widest context, and its cofactor is below p (R202, R204, R254). -/
theorem catalogTuples_fits_widest : ∀ t ∈ catalogTuples, t.Fits Config.maxFieldBits ∧ t.h < t.p := by
  unfold CurveTuple.Fits
  decide +kernel

/-- A tuple that fits one context fits every other in which p and r do: the other conditions of R204 name no bit
length, but for that of h, which is no longer than p. -/
theorem fits_iff_of_fits {n : Nat} {t : CurveTuple} (ht : t.Fits n) (hhp : t.h ≤ t.p) (fieldBits : Nat) :
    t.Fits fieldBits ↔ bitlen t.p ≤ fieldBits ∧ bitlen t.r ≤ fieldBits + 1 := by
  obtain ⟨⟨hpo, hp3, -⟩, ha, hb, hgx, hgy, ⟨hro, hr3, -⟩, -⟩ := ht
  constructor
  · rintro ⟨⟨-, -, hp⟩, -, -, -, -, ⟨-, -, hr⟩, -⟩
    exact ⟨hp, hr⟩
  · rintro ⟨hp, hr⟩
    exact ⟨⟨hpo, hp3, hp⟩, ha, hb, hgx, hgy, ⟨hro, hr3, hr⟩, (bitlen_mono hhp).trans hp⟩

/-- Settles O22: the identifiers are the positions in the list, the table is evaluated on the constants (by the
kernel, for the bit lengths of large numbers), and each entry fits some context, so that only its bit lengths can
keep it out of another. -/
theorem catalogEntries : Obligations.CatalogEntries := by
  refine ⟨catalog_isSome_iff, by decide +kernel, fun cid t h => ?_⟩
  have ht := mem_catalogTuples h
  obtain ⟨hfits, hhp⟩ := catalogTuples_fits_widest t ht
  exact ⟨of_decide_eq_true (catalogTuples_base_onCurve t ht), fits_iff_of_fits hfits hhp.le⟩

end Sys2Proof.Proofs
end

section
/-! PROOFS. The group law on points (spec 43_group_law.md R278 to R285): dbl and ⊕ by their slopes in ZMod p, the
identities that hold of all points, and the group of the on-curve points that are not singular. -/

namespace Sys2Proof.Proofs
open Sys2Proof.Machine

/-! ### The slopes (R279, R281) -/

section slopes

variable {d : Domain} [Fact d.p.Prime]

/-- Different coordinates below p stay different in ZMod p. -/
theorem cast_sub_ne_zero {x y : Nat} (hx : x < d.p) (hy : y < d.p) (hne : x ≠ y) :
    (x : ZMod d.p) - y ≠ 0 :=
  sub_ne_zero.2 fun h => hne (eq_of_cast_eq hx hy h)

/-- The denominator of the tangent's slope is invertible for an odd p (R279). -/
theorem two_mul_cast_ne_zero (hp : d.p ≠ 2) {y : Nat} (hy : y < d.p) (h0 : y ≠ 0) : 2 * (y : ZMod d.p) ≠ 0 :=
  mul_ne_zero (two_ne_zero_of_odd hp) fun h => h0 ((cast_eq_zero_iff hy).1 h)

/-- dbl(P) for y ≠ 0, by the slope of the tangent (R279). -/
theorem dbl_tangent (hp : d.p ≠ 2) {x y : Nat} (hy : y < d.p) (h0 : y ≠ 0) :
    ∃ l x3 y3 : Nat, x3 < d.p ∧ y3 < d.p ∧ d.dbl (.aff x y) = .aff x3 y3 ∧
      (l : ZMod d.p) * (2 * y) = 3 * x ^ 2 + d.a ∧ (x3 : ZMod d.p) = l ^ 2 - 2 * x ∧
      (y3 : ZMod d.p) = l * (x - x3) - y := by
  obtain ⟨x3, y3, hdbl, hx3, hy3, hcx, hcy⟩ := d.dbl_aff hp (x := x) hy h0
  obtain ⟨l, hl⟩ := ZMod.natCast_zmod_surjective (n := d.p) ((3 * (x : ZMod d.p) ^ 2 + d.a) / (2 * y))
  refine ⟨l, x3, y3, hx3, hy3, hdbl, ?_, hl ▸ hcx, hl ▸ hcy⟩
  rw [hl, div_mul_cancel₀ _ (two_mul_cast_ne_zero hp hy h0)]

/-- P ⊕ Q for different x, by the slope of the chord (R281). -/
theorem add_chord {x1 y1 x2 y2 : Nat} (h1 : x1 < d.p) (h2 : x2 < d.p) (hne : x1 ≠ x2) :
    ∃ l x3 y3 : Nat, x3 < d.p ∧ y3 < d.p ∧ d.add (.aff x1 y1) (.aff x2 y2) = .aff x3 y3 ∧
      (l : ZMod d.p) * (x2 - x1) = y2 - y1 ∧ (x3 : ZMod d.p) = l ^ 2 - x1 - x2 ∧
      (y3 : ZMod d.p) = l * (x1 - x3) - y1 := by
  obtain ⟨x3, y3, hadd, hx3, hy3, hcx, hcy⟩ := d.add_aff (y1 := y1) (y2 := y2) h1 h2 hne
  obtain ⟨l, hl⟩ := ZMod.natCast_zmod_surjective (n := d.p) (((y2 : ZMod d.p) - y1) / (x2 - x1))
  refine ⟨l, x3, y3, hx3, hy3, hadd, ?_, hl ▸ hcx, hl ▸ hcy⟩
  rw [hl, div_mul_cancel₀ _ (cast_sub_ne_zero h2 h1 hne.symm)]

end slopes

theorem dbl_aff_zero (d : Domain) (x : Nat) : d.dbl (.aff x 0) = .inf := by
  simp only [Domain.dbl, if_true]

theorem add_inf_point (d : Domain) (P : Point) : d.add P .inf = P := by cases P <;> rfl

theorem add_self_point (d : Domain) (P : Point) : d.add P P = d.dbl P := by
  cases P with
  | inf => rfl
  | aff x y => simp only [Domain.add, if_true]

theorem add_vertical_point (d : Domain) (x : Nat) {y1 y2 : Nat} (h : y1 ≠ y2) :
    d.add (.aff x y1) (.aff x y2) = .inf := by
  simp only [Domain.add, if_true, if_neg h]

/-- An equation of integers in ZMod p is a congruence (R8). -/
theorem modEq_of_cast_eq {p : Nat} {a b : Int} (h : (a : ZMod p) = b) : a ≡ b [ZMOD p] :=
  (ZMod.intCast_eq_intCast_iff a b p).1 h

/-- Settles O31: a point with y = 0 is the first branch, and every other has a tangent. -/
theorem dblIsTangentRule : Obligations.DblIsTangentRule := by
  intro d hprime hp
  have : Fact d.p.Prime := ⟨hprime⟩
  refine ⟨rfl, fun x y _ hy => ⟨?_, fun h0 => ?_⟩⟩
  · rintro rfl
    exact dbl_aff_zero d x
  · obtain ⟨l, x3, y3, hx3, hy3, hdbl, hl, hcx, hcy⟩ := dbl_tangent hp (x := x) hy h0
    refine ⟨l, x3, y3, hx3, hy3, hdbl, modEq_of_cast_eq ?_, modEq_of_cast_eq ?_, modEq_of_cast_eq ?_⟩
    all_goals push_cast; assumption

/-- Settles O32: the special cases are branches of ⊕, and points with different x have a chord. -/
theorem addIsChordRule : Obligations.AddIsChordRule := by
  intro d hprime hp
  have : Fact d.p.Prime := ⟨hprime⟩
  refine ⟨fun _ => rfl, add_inf_point d, fun x1 y1 x2 y2 h1 _ h2 _ => ⟨?_, ?_, fun hne => ?_⟩⟩
  · rintro rfl rfl
    exact add_self_point d _
  · rintro rfl hy
    exact add_vertical_point d x1 hy
  · obtain ⟨l, x3, y3, hx3, hy3, hadd, hl, hcx, hcy⟩ := add_chord (y1 := y1) (y2 := y2) h1 h2 hne
    refine ⟨l, x3, y3, hx3, hy3, hadd, modEq_of_cast_eq ?_, modEq_of_cast_eq ?_, modEq_of_cast_eq ?_⟩
    all_goals push_cast; assumption

/-! ### The identities of all points (R285) -/

section identities

variable {d : Domain} [Fact d.p.Prime]

/-- The chord has one slope from either end, so its third point is the same. -/
theorem add_comm_of_ne {x1 y1 x2 y2 : Nat} (h1 : x1 < d.p) (h2 : x2 < d.p) (hne : x1 ≠ x2) :
    d.add (.aff x1 y1) (.aff x2 y2) = d.add (.aff x2 y2) (.aff x1 y1) := by
  obtain ⟨l, x3, y3, hx3, hy3, hadd, hl, hcx, hcy⟩ := add_chord (y1 := y1) (y2 := y2) h1 h2 hne
  obtain ⟨l', x3', y3', hx3', hy3', hadd', hl', hcx', hcy'⟩ := add_chord (y1 := y2) (y2 := y1) h2 h1 hne.symm
  have hslope : (l : ZMod d.p) = l' :=
    mul_right_cancel₀ (cast_sub_ne_zero h2 h1 hne.symm) (by linear_combination hl + hl')
  have hx : (x3 : ZMod d.p) = x3' := by rw [hcx, hcx', hslope]; ring
  have hy : (y3 : ZMod d.p) = y3' := by rw [hcy, hcy', ← hx, ← hslope]; linear_combination -hl
  rw [hadd, hadd', eq_of_cast_eq hx3 hx3' hx, eq_of_cast_eq hy3 hy3' hy]

theorem add_comm_point {P Q : Point} (hP : P.below d.p) (hQ : Q.below d.p) : d.add P Q = d.add Q P := by
  cases P with
  | inf => exact (add_inf_point d Q).symm
  | aff x1 y1 =>
    cases Q with
    | inf => rfl
    | aff x2 y2 =>
      by_cases hx : x1 = x2
      · subst hx
        by_cases hy : y1 = y2
        · rw [hy]
        · rw [add_vertical_point d x1 hy, add_vertical_point d x1 (Ne.symm hy)]
      · exact add_comm_of_ne hP.1 hQ.1 hx

/-- A point that is its own negation has y = 0 and doubles to INF; any other is on a vertical chord with its
negation. -/
theorem add_neg_point (hp : d.p ≠ 2) {P : Point} (hP : P.below d.p) : d.add P (d.neg P) = .inf := by
  cases P with
  | inf => rfl
  | aff x y =>
    obtain ⟨y', hneg, -, hcast⟩ := d.neg_aff x y
    rw [hneg]
    by_cases hy : y = y'
    · subst hy
      have h0 : y = 0 := by
        by_contra h0
        exact two_mul_cast_ne_zero hp hP.2 h0 (by linear_combination hcast)
      rw [h0, add_self_point, dbl_aff_zero]
    · exact add_vertical_point d x hy

end identities

/-- Settles O33: none of the identities needs the curve equation. -/
theorem groupLawIdentities : Obligations.GroupLawIdentities := by
  intro d hprime hp P Q hP hQ
  have : Fact d.p.Prime := ⟨hprime⟩
  exact ⟨add_comm_point hP hQ, add_neg_point hp hP, add_inf_point d P, (add_self_point d P).symm, neg_neg_point d hP⟩

/-! ### The group (R285) -/

section group

variable {d : Domain} [Fact d.p.Prime]

/-- A singular point is where both partial derivatives vanish in ZMod p. -/
theorem smooth_aff_iff (hp : d.p ≠ 2) {x y : Nat} (hy : y < d.p) :
    d.smooth (.aff x y) ↔ 3 * (x : ZMod d.p) ^ 2 + d.a ≠ 0 ∨ 2 * (y : ZMod d.p) ≠ 0 := by
  have hx : 3 * (x : ZMod d.p) ^ 2 + d.a = 0 ↔ (3 * x ^ 2 + d.a) % d.p = 0 := by
    rw [← Nat.dvd_iff_mod_eq_zero, ← ZMod.natCast_eq_zero_iff]
    push_cast
    rfl
  have hy0 : 2 * (y : ZMod d.p) = 0 ↔ y = 0 := by
    rw [mul_eq_zero, or_iff_right (two_ne_zero_of_odd hp), cast_eq_zero_iff hy]
  rw [Domain.smooth, ← hx, ← hy0, not_and_or, or_comm]

/-- The points of the group are the on-curve points that are not singular. -/
theorem exists_rep_iff (hp : d.p ≠ 2) (P : Point) :
    (∃ g, d.Rep P g) ↔ P.below d.p ∧ d.onCurve P = true ∧ d.smooth P := by
  cases P with
  | inf => exact ⟨fun _ => ⟨trivial, rfl, trivial⟩, fun _ => ⟨0, rfl⟩⟩
  | aff x y =>
    constructor
    · rintro ⟨_, hx, hy, hn, -⟩
      obtain ⟨hcurve, hderiv⟩ := (d.nonsingular_iff _ _).1 hn
      exact ⟨⟨hx, hy⟩, (d.onCurve_aff_iff x y).2 hcurve, (smooth_aff_iff hp hy).2 hderiv⟩
    · rintro ⟨⟨hx, hy⟩, hcurve, hsmooth⟩
      exact ⟨_, hx, hy, (d.nonsingular_iff _ _).2
        ⟨(d.onCurve_aff_iff x y).1 hcurve, (smooth_aff_iff hp hy).1 hsmooth⟩, rfl⟩

end group

/-- Settles O34: on the points that stand for an element of Mathlib's group of the curve the operations are the
group's, and an element has one point, so that associativity is that of the group. -/
theorem onCurvePointsFormGroup : Obligations.OnCurvePointsFormGroup := by
  intro d hprime hp
  have : Fact d.p.Prime := ⟨hprime⟩
  have M := d.curveModel hp
  refine ⟨fun P Q S hP hQ hS hPc hQc hSc hPs hQs hSs => ?_, fun hns P hP hPc => ?_⟩
  · obtain ⟨g, hg⟩ := (exists_rep_iff hp P).2 ⟨hP, hPc, hPs⟩
    obtain ⟨h, hh⟩ := (exists_rep_iff hp Q).2 ⟨hQ, hQc, hQs⟩
    obtain ⟨k, hk⟩ := (exists_rep_iff hp S).2 ⟨hS, hSc, hSs⟩
    obtain ⟨hab, hac, has⟩ := (exists_rep_iff hp _).1 ⟨_, M.add hg hh⟩
    obtain ⟨hnb, hnc, hnsm⟩ := (exists_rep_iff hp _).1 ⟨_, M.neg hg⟩
    have hassoc : d.add (d.add P Q) S = d.add P (d.add Q S) :=
      M.unique (M.add (M.add hg hh) hk) (add_assoc g h k ▸ M.add hg (M.add hh hk))
    have hinv := add_neg_point hp hP
    exact ⟨⟨hac, hab, has⟩, ⟨hnc, hnb, hnsm⟩, hassoc, add_comm_point hP hQ, add_inf_point d P, rfl, hinv,
      (add_comm_point hnb hP).trans hinv⟩
  · exact ((exists_rep_iff hp P).1 (d.exists_rep hp hns hP hPc)).2.2

end Sys2Proof.Proofs
end

section
/-! PROOFS. The Jacobian datapath (spec 43_group_law.md R280): a triple is x·Z², y·Z³, Z for its affine image (x, y),
and on such triples each formula of the datapath is the affine one times a power of the new Z. -/

namespace Sys2Proof.Proofs
open Sys2Proof.Machine

/-- The affine image of a triple, by its equations: X = x·Z² and Y = y·Z³ in ZMod p (R62, R273). -/
structure AffineImage (d : Domain) (X Y Z x y : Nat) : Prop where
  x_lt : x < d.p
  y_lt : y < d.p
  Z_ne : (Z : ZMod d.p) ≠ 0
  X_eq : (X : ZMod d.p) = x * Z ^ 2
  Y_eq : (Y : ZMod d.p) = y * Z ^ 3

section image

variable {d : Domain} [Fact d.p.Prime]

theorem residue_eq_zero_iff {a : Int} {p : Nat} (hp : 0 < p) : residue a p = 0 ↔ (a : ZMod p) = 0 := by
  rw [← cast_eq_zero_iff (residue_lt a hp), residue_cast a hp]

/-- Z⁻¹ is an inverse for Z ≢ 0, so the image is the one R273 computes. -/
theorem ofJacobian_affineImage {X Y Z : Nat} (hZ : (Z : ZMod d.p) ≠ 0) :
    ∃ x y, d.ofJacobian X Y Z = .aff x y ∧ AffineImage d X Y Z x y := by
  have h0 : Z ≠ 0 := by
    rintro rfl
    exact hZ Nat.cast_zero
  refine ⟨_, _, if_neg h0, Nat.mod_lt _ d.p_pos, Nat.mod_lt _ d.p_pos, hZ, ?_, ?_⟩
  all_goals
    rw [cast_natMod, Nat.cast_mul, Nat.cast_pow, invMod_cast_prime hZ]
    field_simp

/-- The equations have one solution. -/
theorem AffineImage.unique {X Y Z x y x' y' : Nat} (h : AffineImage d X Y Z x y) (h' : AffineImage d X Y Z x' y') :
    x = x' ∧ y = y' :=
  ⟨eq_of_cast_eq h.x_lt h'.x_lt (mul_right_cancel₀ (pow_ne_zero 2 h.Z_ne) (h.X_eq.symm.trans h'.X_eq)),
    eq_of_cast_eq h.y_lt h'.y_lt (mul_right_cancel₀ (pow_ne_zero 3 h.Z_ne) (h.Y_eq.symm.trans h'.Y_eq))⟩

theorem AffineImage.ofJacobian {X Y Z x y : Nat} (h : AffineImage d X Y Z x y) :
    d.ofJacobian X Y Z = .aff x y := by
  obtain ⟨x', y', hpt, h'⟩ := ofJacobian_affineImage (X := X) (Y := Y) h.Z_ne
  obtain ⟨rfl, rfl⟩ := h.unique h'
  exact hpt

end image

/-! ### The triples that the datapath answers, in ZMod p -/

theorem toPoint_of_Z_zero (d : Domain) {J : Jacobian} (h : J.Z = 0) : J.toPoint d = .inf := if_pos h

/-- H of the addition, in ZMod p (R280). -/
def chordH (d : Domain) (J K : Jacobian) : ZMod d.p := K.X * J.Z ^ 2 - J.X * K.Z ^ 2

/-- rr of the addition, in ZMod p (R280). -/
def chordR (d : Domain) (J K : Jacobian) : ZMod d.p := K.Y * J.Z ^ 3 - J.Y * K.Z ^ 3

section coordinates

variable (d : Domain) [Fact d.p.Prime] (J K : Jacobian)

theorem jacobianDbl_Z : ((J.dbl d).Z : ZMod d.p) = 2 * J.Y * J.Z := by
  simp [Jacobian.dbl, residue_cast _ d.p_pos]

theorem jacobianDbl_Z_eq_zero_iff : (J.dbl d).Z = 0 ↔ 2 * (J.Y : ZMod d.p) * J.Z = 0 := by
  simp only [Jacobian.dbl, residue_eq_zero_iff d.p_pos]
  norm_cast

theorem jacobianDbl_X : ((J.dbl d).X : ZMod d.p) = (3 * J.X ^ 2 + d.a * J.Z ^ 4) ^ 2 - 2 * (4 * J.X * J.Y ^ 2) := by
  simp [Jacobian.dbl, residue_cast _ d.p_pos]

theorem jacobianDbl_Y : ((J.dbl d).Y : ZMod d.p) =
    (3 * J.X ^ 2 + d.a * J.Z ^ 4) * (4 * J.X * J.Y ^ 2 - (J.dbl d).X) - 8 * J.Y ^ 4 := by
  rw [jacobianDbl_X]
  simp [Jacobian.dbl, residue_cast _ d.p_pos]

variable {d J K}

theorem residue_H_eq_zero_iff : residue ((K.X : Int) * J.Z ^ 2 - J.X * K.Z ^ 2) d.p = 0 ↔ chordH d J K = 0 := by
  rw [residue_eq_zero_iff d.p_pos, chordH]
  norm_cast

theorem residue_rr_eq_zero_iff : residue ((K.Y : Int) * J.Z ^ 3 - J.Y * K.Z ^ 3) d.p = 0 ↔ chordR d J K = 0 := by
  rw [residue_eq_zero_iff d.p_pos, chordR]
  norm_cast

/-- The coordinates of the sum when both triples are finite and H ≢ 0 (R280). -/
theorem jacobianAdd_coordinates (hJ : J.Z ≠ 0) (hK : K.Z ≠ 0) (hH : chordH d J K ≠ 0) :
    ((J.add d K).Z : ZMod d.p) = J.Z * K.Z * chordH d J K ∧
    ((J.add d K).X : ZMod d.p) =
      chordR d J K ^ 2 - chordH d J K ^ 3 - 2 * (J.X * K.Z ^ 2) * chordH d J K ^ 2 ∧
    ((J.add d K).Y : ZMod d.p) = chordR d J K * (J.X * K.Z ^ 2 * chordH d J K ^ 2 - (J.add d K).X) -
      J.Y * K.Z ^ 3 * chordH d J K ^ 3 := by
  have hres := mt residue_H_eq_zero_iff.1 hH
  simp [Jacobian.add, hJ, hK, hres, residue_cast _ d.p_pos, chordH, chordR]

/-- The dispatch of the sum when H ≡ 0 (R280). -/
theorem jacobianAdd_of_H_zero (hJ : J.Z ≠ 0) (hK : K.Z ≠ 0) (hH : chordH d J K = 0) :
    J.add d K = if chordR d J K = 0 then J.dbl d else { X := 1, Y := 1, Z := 0 } := by
  simp only [Jacobian.add, if_neg hJ, if_neg hK, if_pos (residue_H_eq_zero_iff.2 hH), residue_rr_eq_zero_iff]

end coordinates

/-! ### The abstract values -/

section refinement

variable {d : Domain} [Fact d.p.Prime] {J K : Jacobian}

/-- A double of a finite triple is finite exactly when y ≠ 0, and its image is the tangent's point. -/
theorem toPoint_dbl_of_image (hp : d.p ≠ 2) {x y : Nat} (h : AffineImage d J.X J.Y J.Z x y) :
    (J.dbl d).toPoint d = d.dbl (.aff x y) := by
  by_cases h0 : y = 0
  · have hZ : (J.dbl d).Z = 0 := (jacobianDbl_Z_eq_zero_iff d J).2 (by simp [h.Y_eq, h0])
    rw [toPoint_of_Z_zero d hZ, h0, dbl_aff_zero]
  · obtain ⟨l, x3, y3, hx3, hy3, hdbl, hl, hcx, hcy⟩ := dbl_tangent hp (x := x) h.y_lt h0
    have hM : 3 * (J.X : ZMod d.p) ^ 2 + d.a * J.Z ^ 4 = l * (2 * y) * J.Z ^ 4 := by
      rw [h.X_eq, hl]; ring
    have hX : ((J.dbl d).X : ZMod d.p) = x3 * (J.dbl d).Z ^ 2 := by
      rw [jacobianDbl_X, hM, jacobianDbl_Z, h.X_eq, h.Y_eq, hcx]; ring
    rw [hdbl]
    refine AffineImage.ofJacobian ⟨hx3, hy3, ?_, hX, ?_⟩
    · rw [jacobianDbl_Z, h.Y_eq, ← mul_assoc]
      exact mul_ne_zero (mul_ne_zero (two_mul_cast_ne_zero hp h.y_lt h0) (pow_ne_zero 3 h.Z_ne)) h.Z_ne
    · rw [jacobianDbl_Y, hM, hX, jacobianDbl_Z, h.X_eq, h.Y_eq, hcy]; ring

theorem toPoint_dbl (hp : d.p ≠ 2) (hZ : J.Z < d.p) : (J.dbl d).toPoint d = d.dbl (J.toPoint d) := by
  by_cases h0 : J.Z = 0
  · have hZ' : (J.dbl d).Z = 0 := (jacobianDbl_Z_eq_zero_iff d J).2 (by simp [h0])
    rw [toPoint_of_Z_zero d hZ', toPoint_of_Z_zero d h0]
    rfl
  · obtain ⟨x, y, hpt, h⟩ := ofJacobian_affineImage (X := J.X) (Y := J.Y) (mt (cast_eq_zero_iff hZ).1 h0)
    rw [toPoint_dbl_of_image hp h, Jacobian.toPoint, hpt]

/-- For a ≡ −3 the two forms of M are one residue, 3(X − Z²)(X + Z²) = 3X² + a·Z⁴ (R284). -/
theorem dblM3_eq_dbl (h : (d.a + 3) % d.p = 0) (J : Jacobian) : J.dblM3 d = J.dbl d := by
  have ha : (d.a : ZMod d.p) = -3 := by
    have h3 : ((d.a + 3 : Nat) : ZMod d.p) = 0 := (ZMod.natCast_eq_zero_iff _ _).2 (Nat.dvd_of_mod_eq_zero h)
    push_cast at h3
    exact eq_neg_of_add_eq_zero_left h3
  have hM : (3 * (J.X - J.Z ^ 2) * (J.X + J.Z ^ 2) : ZMod d.p) = 3 * J.X ^ 2 + d.a * J.Z ^ 4 := by
    rw [ha]; ring
  simp only [Jacobian.dblM3, Jacobian.dbl, Jacobian.mk.injEq, and_true]
  constructor
  all_goals
    refine eq_of_cast_eq (residue_lt _ d.p_pos) (residue_lt _ d.p_pos) ?_
    simp [residue_cast _ d.p_pos, hM]

/-- H = (x2 − x1)·Z1²·Z2² and rr = (y2 − y1)·Z1³·Z2³, so the dispatch is that of ⊕, and elsewhere rr is the slope of
the chord times the new Z. -/
theorem toPoint_add_of_image (hp : d.p ≠ 2) {x1 y1 x2 y2 : Nat} (hJ0 : J.Z ≠ 0) (hK0 : K.Z ≠ 0)
    (hJ : AffineImage d J.X J.Y J.Z x1 y1) (hK : AffineImage d K.X K.Y K.Z x2 y2) :
    (J.add d K).toPoint d = d.add (.aff x1 y1) (.aff x2 y2) := by
  have hH : chordH d J K = (x2 - x1) * (J.Z ^ 2 * K.Z ^ 2) := by
    rw [chordH, hJ.X_eq, hK.X_eq]; ring
  have hR : chordR d J K = (y2 - y1) * (J.Z ^ 3 * K.Z ^ 3) := by
    rw [chordR, hJ.Y_eq, hK.Y_eq]; ring
  have hZ2 := mul_ne_zero (pow_ne_zero 2 hJ.Z_ne) (pow_ne_zero 2 hK.Z_ne)
  have hZ3 := mul_ne_zero (pow_ne_zero 3 hJ.Z_ne) (pow_ne_zero 3 hK.Z_ne)
  by_cases hx : x1 = x2
  · subst hx
    rw [jacobianAdd_of_H_zero hJ0 hK0 (by rw [hH, sub_self, zero_mul]), hR]
    by_cases hy : y1 = y2
    · subst hy
      rw [if_pos (by rw [sub_self, zero_mul]), add_self_point, toPoint_dbl_of_image hp hJ]
    · rw [if_neg (mul_ne_zero (cast_sub_ne_zero hK.y_lt hJ.y_lt (Ne.symm hy)) hZ3), add_vertical_point d x1 hy]
      exact toPoint_of_Z_zero d rfl
  · obtain ⟨l, x3, y3, hx3, hy3, hadd, hl, hcx, hcy⟩ := add_chord (y1 := y1) (y2 := y2) hJ.x_lt hK.x_lt hx
    have hH0 := hH ▸ mul_ne_zero (cast_sub_ne_zero hK.x_lt hJ.x_lt (Ne.symm hx)) hZ2
    obtain ⟨hZ, hX, hY⟩ := jacobianAdd_coordinates (d := d) hJ0 hK0 hH0
    have hX' : ((J.add d K).X : ZMod d.p) = x3 * (J.add d K).Z ^ 2 := by
      rw [hX, hZ, hR, hH, hJ.X_eq, ← hl, hcx]; ring
    rw [hadd]
    refine AffineImage.ofJacobian ⟨hx3, hy3, ?_, hX', ?_⟩
    · rw [hZ]
      exact mul_ne_zero (mul_ne_zero hJ.Z_ne hK.Z_ne) hH0
    · rw [hY, hX', hZ, hR, hH, hJ.X_eq, hJ.Y_eq, ← hl, hcy]; ring

theorem toPoint_add (hp : d.p ≠ 2) (hJ : J.Z < d.p) (hK : K.Z < d.p) :
    (J.add d K).toPoint d = d.add (J.toPoint d) (K.toPoint d) := by
  by_cases hJ0 : J.Z = 0
  · rw [toPoint_of_Z_zero d hJ0, Jacobian.add, if_pos hJ0]
    rfl
  · by_cases hK0 : K.Z = 0
    · rw [toPoint_of_Z_zero d hK0, Jacobian.add, if_neg hJ0, if_pos hK0, add_inf_point]
    · obtain ⟨x1, y1, hptJ, h1⟩ := ofJacobian_affineImage (X := J.X) (Y := J.Y) (mt (cast_eq_zero_iff hJ).1 hJ0)
      obtain ⟨x2, y2, hptK, h2⟩ := ofJacobian_affineImage (X := K.X) (Y := K.Y) (mt (cast_eq_zero_iff hK).1 hK0)
      rw [toPoint_add_of_image hp hJ0 hK0 h1 h2, Jacobian.toPoint, Jacobian.toPoint, hptJ, hptK]

end refinement

/-- Settles O35: the powers of Z cancel in both formulas, and the shortcut computes the same M. -/
theorem jacobianDatapathRefines : Obligations.JacobianDatapathRefines := by
  intro d hprime hp J K _ _ hJ _ _ hK
  have : Fact d.p.Prime := ⟨hprime⟩
  exact ⟨toPoint_dbl hp hJ, fun h => dblM3_eq_dbl h J, toPoint_add hp hJ hK⟩

end Sys2Proof.Proofs
end

section
/-! PROOFS. The point commands (spec 43_group_law.md R270 to R283): when R206 does not leave a command open it makes the
common checks, then those of its coordinates, and commits the point of its rule. -/

namespace Sys2Proof.Proofs
open Sys2Proof.Machine

/-! ### The discipline of R270 -/

section discipline

variable {i : Instr} {s t any : State} {v : Word}

/-- A group-law command that R206 does not leave open makes the common checks first, and a ready one goes on with the
checks of its coordinates: one that is not below p is a RangeError, and else the command commits. -/
theorem coordCommand_rule {srcs : List OpIdx} (hc : s.compositeP = false)
    (hexec : exec i s = s.finishGroup i any (s.commonChecks (sources i) ++ s.coordChecks srcs) t v) :
    CommonFirst i s ∧ (s.ready i = true →
      ((∃ j ∈ srcs, s.dom.p ≤ s.opVal j) → exec i s = .next (s.completeErr .rangeError)) ∧
      ((∀ j ∈ srcs, s.opVal j < s.dom.p) → exec i s = .next (t.completeOk v))) := by
  rw [s.finishGroup_of_not hc] at hexec
  obtain ⟨hcommon, hrun⟩ := commonFirst_of_finish hexec
  refine ⟨hcommon, fun hready => ?_⟩
  rw [hrun hready, State.finish, State.coordChecks, firstFailure_map]
  refine ⟨fun ⟨j, hj, hge⟩ => ?_, fun hlt => ?_⟩
  · rw [if_neg]
    exact fun hall => absurd (of_decide_eq_true (List.all_eq_true.1 hall j hj)) (Nat.not_lt.2 hge)
  · rw [if_pos]
    exact List.all_eq_true.2 fun j hj => decide_eq_true (hlt j hj)

/-- The same for a command without coordinates: a ready one commits. -/
theorem groupCommand_rule (hc : s.compositeP = false)
    (hexec : exec i s = s.finishGroup i any (s.commonChecks (sources i)) t v) :
    CommonFirst i s ∧ (s.ready i = true → exec i s = .next (t.completeOk v)) := by
  rw [s.finishGroup_of_not hc, ← List.append_nil (s.commonChecks _)] at hexec
  exact commonFirst_of_finish hexec

end discipline

/-! ### Import (R272 to R274) -/

/-- Settles O25: the point that the model stores for a pair is the one written out in the statement, and PT_SET_INF has
no check of its own and no composite case. -/
theorem ptSetAffineInfRule : Obligations.PtSetAffineInfRule := by
  intro rd ra rb s
  obtain ⟨hcommon, hrun⟩ := commonFirst_of_finish (i := .ptSetInf rd) (s := s) (rest := []) rfl
  refine ⟨encodes_of_wellFormed rfl, fun hc => ?_, encodes_of_wellFormed rfl, hcommon, hrun⟩
  have h := coordCommand_rule (i := .ptSetAffine rd ra rb) (srcs := [ra, rb]) hc rfl
  simp only [List.mem_pair, exists_eq_or_imp, exists_eq_left, forall_eq_or_imp, forall_eq, and_imp] at h
  exact h

/-- The image of a triple with Z ≠ 0, by its equations in residues (R273). -/
theorem ofJacobian_equations {d : Domain} (hprime : d.p.Prime) {X Y Z : Nat} (hX : X < d.p) (hY : Y < d.p)
    (hZ : Z < d.p) (h0 : Z ≠ 0) : ∃ x y, x < d.p ∧ y < d.p ∧ x * Z ^ 2 % d.p = X ∧ y * Z ^ 3 % d.p = Y ∧
      d.ofJacobian X Y Z = .aff x y := by
  have : Fact d.p.Prime := ⟨hprime⟩
  obtain ⟨x, y, hpt, h⟩ := ofJacobian_affineImage (X := X) (Y := Y) (mt (cast_eq_zero_iff hZ).1 h0)
  refine ⟨x, y, h.x_lt, h.y_lt, eq_of_cast_eq (Nat.mod_lt _ d.p_pos) hX ?_,
    eq_of_cast_eq (Nat.mod_lt _ d.p_pos) hY ?_, hpt⟩
  · rw [cast_natMod, h.X_eq]
    push_cast
    rfl
  · rw [cast_natMod, h.Y_eq]
    push_cast
    rfl

/-- Settles O26: PT_SET_PROJ commits the image of its triple. -/
theorem ptSetProjRule : Obligations.PtSetProjRule := by
  intro rd ra rb rc s
  refine ⟨encodes_of_wellFormed rfl, fun hc => ?_⟩
  obtain ⟨hcommon, hrun⟩ := coordCommand_rule (i := .ptSetProj rd ra rb rc) (srcs := [ra, rb, rc]) hc rfl
  simp only [List.mem_cons, List.not_mem_nil, or_false, exists_eq_or_imp, exists_eq_left, forall_eq_or_imp,
    forall_eq, and_imp] at hrun
  refine ⟨hcommon, fun hready => ⟨(hrun hready).1, fun hX hY hZ => ?_⟩⟩
  rw [(hrun hready).2 hX hY hZ]
  refine ⟨fun h0 => ?_, fun h0 hprime => ?_⟩
  · rw [Domain.ofJacobian, if_pos h0]
  · obtain ⟨x, y, hx, hy, hxZ, hyZ, hpt⟩ := ofJacobian_equations hprime hX hY hZ h0
    exact ⟨x, y, hx, hy, hxZ, hyZ, by rw [hpt]⟩

/-! ### Export and test (R275 to R277) -/

theorem infResult_eq (P : Point) : infResult P = if P = .inf then 1 else 0 := by cases P <;> rfl

theorem infEnc_eq (b : Nat) : infEnc b = (0, if b = 0 then 1 else 0) := by
  unfold infEnc
  split <;> rfl

/-- Settles O27: the pair written is that of the point, and INF_ENC(b) has first coordinate 0. -/
theorem ptGetAffineRule : Obligations.PtGetAffineRule := by
  intro rd re ra s hne
  refine ⟨encodes_of_wellFormed (bne_iff_ne.2 hne), fun hc => ?_⟩
  obtain ⟨hcommon, hrun⟩ := groupCommand_rule (i := .ptGetAffine rd re ra) hc rfl
  refine ⟨hcommon, fun hready => ⟨fun hP => ?_, fun x y hP => ?_⟩⟩
  · rw [hrun hready, State.ptVal_of_valid hP, Domain.coords, infEnc_eq]
    rfl
  · rw [hrun hready, State.ptVal_of_valid hP]
    rfl

/-- PT_CHECK of an affine point, by the curve equation with its powers (R11, R276). -/
theorem checkResult_aff (d : Domain) (x y : Nat) :
    checkResult d (.aff x y) = if y ^ 2 % d.p = (x ^ 3 + d.a * x + d.b) % d.p then 0 else 2 := by
  have hx : x ^ 3 = x * x * x := by ring
  simp only [checkResult, Point.isInf, Domain.onCurve, decide_eq_true_eq, sq, hx, Bool.false_eq_true, if_false]

/-- Settles O28: both commands leave the registers and answer by the value of their sources alone. -/
theorem ptCheckCmpRule : Obligations.PtCheckCmpRule := by
  intro ra rb s
  refine ⟨encodes_of_wellFormed rfl, encodes_of_wellFormed rfl, fun hc => ?_⟩
  obtain ⟨hcheck, hcheckRun⟩ := groupCommand_rule (i := .ptCheck ra) hc rfl
  obtain ⟨hcmp, hcmpRun⟩ := groupCommand_rule (i := .ptCmp ra rb) hc rfl
  refine ⟨hcheck, hcmp, fun hready => ⟨fun hP => ?_, fun x y hP => ?_⟩, fun hready P Q hP hQ => ?_⟩
  · rw [hcheckRun hready, State.ptVal_of_valid hP]
    rfl
  · rw [hcheckRun hready, State.ptVal_of_valid hP, checkResult_aff]
  · rw [hcmpRun hready, State.ptVal_of_valid hP, State.ptVal_of_valid hQ]
    exact ⟨fun h => by rw [if_pos h], fun h => by rw [if_neg h]⟩

/-! ### The group operations (R278, R282, R283) -/

/-- ⊖P in natural numbers, for a coordinate below p (R278). -/
theorem neg_aff_of_lt (d : Domain) (x : Nat) {y : Nat} (hy : y < d.p) :
    d.neg (.aff x y) = .aff x ((d.p - y) % d.p) := by
  rw [Domain.neg, residue, ← Nat.cast_sub hy.le, ← Int.natCast_mod, Int.toNat_natCast]

/-- Settles O29: each command commits its function of the values of its sources. -/
theorem ptNegDblAddRule : Obligations.PtNegDblAddRule := by
  intro rd ra rb s
  refine ⟨encodes_of_wellFormed rfl, encodes_of_wellFormed rfl, encodes_of_wellFormed rfl, fun hc => ?_⟩
  obtain ⟨hneg, hnegRun⟩ := groupCommand_rule (i := .ptNeg rd ra) hc rfl
  obtain ⟨hdbl, hdblRun⟩ := groupCommand_rule (i := .ptDbl rd ra) hc rfl
  obtain ⟨hadd, haddRun⟩ := groupCommand_rule (i := .ptAdd rd ra rb) hc rfl
  refine ⟨hneg, hdbl, hadd, fun hready => ⟨fun hP => ?_, fun x y hP hy => ?_⟩, fun hready P hP => ?_,
    fun hready P Q hP hQ => ?_⟩
  · rw [hnegRun hready, State.ptVal_of_valid hP]
    rfl
  · rw [hnegRun hready, State.ptVal_of_valid hP, neg_aff_of_lt _ x hy]
    rfl
  · rw [hdblRun hready, State.ptVal_of_valid hP, infResult_eq]
  · rw [haddRun hready, State.ptVal_of_valid hP, State.ptVal_of_valid hQ, infResult_eq]

end Sys2Proof.Proofs
end


section
/-! PROOFS. The scalar recoding (spec 44_scalar_mul.md R326): in base 2^w the digits and the borrow into them add up to
what is left of k' at each window. -/

namespace Sys2Proof.Proofs
open Sys2Proof.Machine

/-- What R326 says of the digits `L` that the recoding of `q` in windows of `w` bits leaves, the low one first, when the
windows below borrow `b`. -/
structure Recodes (w q b : Nat) (L : List Nat) : Prop where
  range : ∀ x ∈ L, 1 ≤ x ∧ x ≤ 2 ^ w
  last : L.getLast? = some 1 ∨ L.getLast? = some 2
  value : Nat.ofDigits (2 ^ w) L + b = q

theorem Recodes.ne_nil {w q b : Nat} {L : List Nat} (h : Recodes w q b L) : L ≠ [] := by
  rintro rfl
  simpa using h.last

theorem Recodes.getLastD {w q b : Nat} {L : List Nat} (h : Recodes w q b L) :
    L.getLastD 0 = 1 ∨ L.getLastD 0 = 2 := by
  rw [List.getLastD_eq_getLast?]
  exact h.last.imp (fun hl => by rw [hl]; rfl) fun hl => by rw [hl]; rfl

/-- A digit below, with the borrow `b'` that it passes up. -/
theorem Recodes.cons {w q b b' x : Nat} {L : List Nat} (h : Recodes w (q / 2 ^ w) b' L) (hx1 : 1 ≤ x)
    (hx2 : x ≤ 2 ^ w) (hx : x + b = q % 2 ^ w + 2 ^ w * b') : Recodes w q b (x :: L) where
  range := List.forall_mem_cons.2 ⟨⟨hx1, hx2⟩, h.range⟩
  last := by
    rw [List.getLast?_cons]
    exact h.last.imp (fun hl => by rw [hl]; rfl) fun hl => by rw [hl]; rfl
  value := by
    have hq := Nat.mod_add_div q (2 ^ w)
    rw [← h.value, Nat.mul_add] at hq
    rw [Nat.ofDigits_cons]
    omega

theorem length_recodeLoop (w k' : Nat) : ∀ n i b : Nat, (recodeLoop w k' n i b).length = n + 1
  | 0, _, _ => rfl
  | n + 1, i, b => by
    unfold recodeLoop
    dsimp only
    split <;> exact congrArg (· + 1) (length_recodeLoop w k' n (i + 1) _)

/-- The recoding has NW + 1 digits, for every scalar (R326). -/
theorem length_recode (k w nw : Nat) : (recode k w nw).length = nw + 1 := length_recodeLoop ..

/-- The loop of R326 when the top window of k' is 2: a window not above its borrow takes 2^w from the next. -/
theorem recodeLoop_recodes {w : Nat} (hw : 2 ≤ w) (k' : Nat) : ∀ n i b : Nat, b ≤ 1 →
    k' / 2 ^ (w * (i + n)) = 2 → Recodes w (k' / 2 ^ (w * i)) b (recodeLoop w k' n i b)
  | 0, i, b, hb, htop => by
    have hB : 2 ^ 2 ≤ 2 ^ w := Nat.pow_le_pow_right (by decide) hw
    rw [Nat.add_zero] at htop
    rw [recodeLoop, htop, Nat.mod_eq_of_lt (by omega)]
    refine ⟨?_, ?_, ?_⟩
    · simp only [List.mem_singleton, forall_eq]
      omega
    · simp only [List.getLast?_singleton, Option.some.injEq]
      omega
    · rw [Nat.ofDigits_singleton]
      omega
  | n + 1, i, b, hb, htop => by
    have hB : 2 ^ 2 ≤ 2 ^ w := Nat.pow_le_pow_right (by decide) hw
    have hnext : k' / 2 ^ (w * (i + 1)) = k' / 2 ^ (w * i) / 2 ^ w := by
      rw [Nat.div_div_eq_div_mul, ← pow_add, Nat.mul_succ]
    have ih := fun b' hb' => recodeLoop_recodes hw k' n (i + 1) b' hb' (by rwa [Nat.add_right_comm])
    rw [hnext] at ih
    have hlt : k' / 2 ^ (w * i) % 2 ^ w < 2 ^ w := Nat.mod_lt _ (by omega)
    unfold recodeLoop
    dsimp only
    split
    · exact (ih 1 le_rfl).cons (by omega) (by omega) (by omega)
    · exact (ih 0 (by decide)).cons (by omega) (by omega) (by omega)

/-- The recoding of a scalar that fits in the windows (R326). -/
theorem recode_recodes {w nw k : Nat} (hw : 2 ≤ w) (hk : k < 2 ^ (w * nw)) :
    Recodes w (k + 2 * 2 ^ (w * nw)) 0 (recode k w nw) := by
  have htop : (k + 2 * 2 ^ (w * nw)) / 2 ^ (w * (0 + nw)) = 2 := by
    rw [Nat.zero_add, Nat.add_mul_div_right _ _ (Nat.two_pow_pos _), Nat.div_eq_of_lt hk]
  simpa [recode] using recodeLoop_recodes hw _ nw 0 0 (by decide) htop

/-- Settles O39: the digits of the loop, and the weighted sum is their value in base 2^w. -/
theorem recodingDigits : Obligations.RecodingDigits := by
  refine ⟨fun w nw k hw hk => ?_, by decide, by decide, by decide, by decide⟩
  have h := recode_recodes hw hk
  refine ⟨length_recode k w nw, h.range, h.getLastD, ?_⟩
  rw [← h.value, Nat.ofDigits_eq_sum_mapIdx, List.mapIdx_eq_zipIdx_map]
  simp only [pow_mul, Nat.add_zero]

end Sys2Proof.Proofs
end

section
/-! PROOFS. The scalar multiplications (spec 44_scalar_mul.md R323 to R332): an algorithm run on a point that stands for a
group element g leaves at each pass a known multiple of g in its accumulator, so it ends with the multiple of R12. -/

namespace Sys2Proof.Proofs
open Sys2Proof.Machine

/-- The bit that a pass of a loop adds to the bits above it. -/
theorem div_two_pow_eq (x i : Nat) : x / 2 ^ i = 2 * (x / 2 ^ (i + 1)) + (x.testBit i).toNat := by
  rw [pow_succ, ← Nat.div_div_eq_div_mul, Nat.toNat_testBit, Nat.div_add_mod]

/-! ### FAST (R323) -/

section fast

variable {d : Domain} {G : Type} [AddCommGroup G] {ρ : Point → G → Prop} {g : G}

/-- The registers of FAST between two passes: the point and its negation, and `m` times the point in the accumulator. -/
structure FastRegs (ρ : Point → G → Prop) (g : G) (m : Int) (t : Datapath) : Prop where
  P : ρ (t.get .P) g
  U : ρ (t.get .U) (-g)
  R : ρ (t.get .R) (m • g)

/-- A step that writes R alone. -/
theorem FastRegs.writeR {m n : Int} {t u : Datapath} (h : FastRegs ρ g m t) (hne : ∀ r, .R ≠ r → u.get r = t.get r)
    (hR : ρ (u.get .R) (n • g)) : FastRegs ρ g n u where
  P := by rw [hne _ (by decide)]; exact h.P
  U := by rw [hne _ (by decide)]; exact h.U
  R := hR

/-- A doubling of the accumulator doubles its multiple. -/
theorem FastRegs.dbl (M : GroupModel d G ρ) {m : Int} {t : Datapath} (h : FastRegs ρ g m t) :
    FastRegs ρ g (2 * m) (t.dbl d .R .R) :=
  h.writeR (fun r hr => by rw [Datapath.get_dbl, if_neg hr]) (by
    rw [Datapath.get_dbl, if_pos rfl, two_mul, add_zsmul]
    exact M.dbl h.R)

/-- Adding a register that holds `n` times the point adds `n`. -/
theorem FastRegs.add (M : GroupModel d G ρ) {m n : Int} {t : Datapath} (h : FastRegs ρ g m t) {b : WorkReg}
    (hb : ρ (t.get b) (n • g)) : FastRegs ρ g (m + n) (t.add d .R .R b) :=
  h.writeR (fun r hr => by rw [Datapath.get_add, if_neg hr]) (by
    rw [Datapath.get_add, if_pos rfl, add_zsmul]
    exact M.add h.R hb)

/-- A pass doubles the multiple and adds the signed digit H[i] − K[i]. -/
theorem fastStep_regs (M : GroupModel d G ρ) (K H i : Nat) {m : Int} {t : Datapath} (h : FastRegs ρ g m t) :
    FastRegs ρ g (2 * m + (H.testBit i).toNat - (K.testBit i).toNat) (fastStep d K H i t) := by
  have hd := h.dbl M
  have hplus := hd.add M (n := 1) (by rw [one_zsmul]; exact hd.P)
  have hminus := hd.add M (n := -1) (by rw [neg_one_zsmul]; exact hd.U)
  unfold fastStep
  cases H.testBit i <;> cases K.testBit i
  · simpa using hd
  · simpa [sub_eq_add_neg] using hminus
  · simpa using hplus
  · simpa using hd

/-- The loop leaves the difference of H and K without their lowest bits. -/
theorem fastLoop_regs (M : GroupModel d G ρ) (K H : Nat) : ∀ (n : Nat) (t : Datapath),
    FastRegs ρ g ((H / 2 ^ (n + 1) : Nat) - (K / 2 ^ (n + 1) : Nat)) t →
    FastRegs ρ g ((H / 2 : Nat) - (K / 2 : Nat)) (fastLoop d K H n t)
  | 0, _, h => h
  | n + 1, t, h => by
    refine fastLoop_regs M K H n _ ?_
    convert fastStep_regs M K H (n + 1) h using 1
    rw [div_two_pow_eq H, div_two_pow_eq K]
    push_cast
    ring

/-- The highest bit of 3k lies above k. -/
theorem div_top_bit {k : Nat} (hk : k ≠ 0) :
    3 * k / 2 ^ (bitlen (3 * k) - 2 + 1) = 1 ∧ k / 2 ^ (bitlen (3 * k) - 2 + 1) = 0 := by
  have h2 : 2 ≤ bitlen (3 * k) := by
    rw [bitlen_eq_size]
    exact Nat.lt_size.2 (by omega)
  obtain ⟨n, hn⟩ := Nat.exists_eq_add_of_le' h2
  have hlo : 2 ^ (n + 1) ≤ 3 * k := Nat.lt_size.1 (by rw [← bitlen_eq_size]; omega)
  have hhi : 3 * k < 2 ^ (n + 2) := hn ▸ lt_two_pow_bitlen (3 * k)
  rw [pow_succ] at hhi
  rw [hn, Nat.add_sub_cancel]
  exact ⟨Nat.div_eq_of_lt_le (by omega) (by omega), Nat.div_eq_of_lt (by omega)⟩

/-- FAST leaves `k` times its point: (3k − k)/2 = k, as 3k and k have the same lowest bit. -/
theorem fastMul_acc (M : GroupModel d G ρ) {P : Point} (hP : ρ P g) (k : Nat) :
    ρ (fastMul d k P).acc (k • g) := by
  unfold fastMul
  split
  · next hk =>
    subst hk
    rw [zero_nsmul]
    exact M.inf
  · next hk =>
    obtain ⟨htop, hzero⟩ := div_top_bit hk
    have hstart : FastRegs ρ g 1 { file := [(.P, P), (.U, d.neg P), (.R, P)], ops := [] } :=
      ⟨hP, M.neg hP, by rw [one_zsmul]; exact hP⟩
    have h := fastLoop_regs M k (3 * k) (bitlen (3 * k) - 2) _ (by rw [htop, hzero]; exact hstart)
    have hend : ((3 * k / 2 : Nat) : Int) - (k / 2 : Nat) = k := by omega
    rw [← natCast_zsmul, ← hend]
    exact h.R

end fast

/-! ### CT (R324 to R328) -/

section ct

variable {d : Domain} {G : Type} [AddCommGroup G] {ρ : Point → G → Prop} {g : G}

/-- The registers of CT that no window writes: the point, and the table of its multiples up to `n`. -/
structure CtTable (ρ : Point → G → Prop) (g : G) (n : Nat) (t : Datapath) : Prop where
  P : ρ (t.get .P) g
  tbl : ∀ j, 1 ≤ j → j ≤ n → ρ (t.get (.tbl j)) (j • g)

/-- A step that leaves the point and the table alone. -/
theorem CtTable.of_get {n : Nat} {t u : Datapath} (h : CtTable ρ g n t) (hP : u.get .P = t.get .P)
    (htbl : ∀ j, u.get (.tbl j) = t.get (.tbl j)) : CtTable ρ g n u where
  P := by rw [hP]; exact h.P
  tbl j h1 h2 := by rw [htbl]; exact h.tbl j h1 h2

/-- Each table addition gives the next multiple (R325). -/
theorem ctTable_table (M : GroupModel d G ρ) {t : Datapath} (h : CtTable ρ g 1 t) :
    ∀ n, CtTable ρ g (n + 1) (ctTable d n t)
  | 0 => h
  | n + 1 => by
    have ih := ctTable_table M h n
    unfold ctTable
    refine ⟨?_, fun j h1 h2 => ?_⟩
    · rw [Datapath.get_add, if_neg (by simp)]
      exact ih.P
    · rw [Datapath.get_add]
      split
      · next he =>
        obtain rfl : n + 2 = j := WorkReg.tbl.inj he
        rw [succ_nsmul]
        exact M.add (ih.tbl (n + 1) (by omega) le_rfl) ih.P
      · next hne => exact ih.tbl j h1 (by have : n + 2 ≠ j := fun e => hne (e ▸ rfl); omega)

/-- The scan for a digit that indexes a table entry gives that multiple (R327). -/
theorem CtTable.scan {n digit : Nat} {t : Datapath} (h : CtTable ρ g n t) (h1 : 1 ≤ digit) (h2 : digit ≤ n) :
    ρ (Machine.scan t.file n digit) (digit • g) := by
  rw [scan_eq, if_pos ⟨h1, h2⟩]
  exact h.tbl digit h1 h2

theorem dblTimes_self (M : GroupModel d G ρ) (r : WorkReg) : ∀ (n : Nat) (t : Datapath) {x : G},
    ρ (t.get r) x → ρ ((t.dblTimes d r n).get r) (2 ^ n • x)
  | 0, _, x, h => by rw [pow_zero, one_nsmul]; exact h
  | n + 1, t, x, h => by
    rw [Datapath.dblTimes, pow_succ, mul_nsmul', two_nsmul]
    exact dblTimes_self M r n _ (by rw [Datapath.get_dbl, if_pos rfl]; exact M.dbl h)

/-- A window shifts the multiple by w bits and adds its digit. -/
theorem ctWindow_regs (M : GroupModel d G ρ) {w v x : Nat} {t : Datapath} (ht : CtTable ρ g (2 ^ w) t)
    (hR : ρ (t.get .R) (v • g)) (h1 : 1 ≤ x) (h2 : x ≤ 2 ^ w) :
    CtTable ρ g (2 ^ w) (ctWindow d w t x) ∧ ρ ((ctWindow d w t x).get .R) ((x + 2 ^ w * v) • g) := by
  have htd : CtTable ρ g (2 ^ w) (t.dblTimes d .R w) :=
    ht.of_get (Datapath.get_dblTimes_ne d (by decide) w t) fun _ => Datapath.get_dblTimes_ne d (by simp) w t
  refine ⟨htd.of_get (by simp [ctWindow]) (by simp [ctWindow]), ?_⟩
  have hsum := M.add (dblTimes_self M .R w t hR) (htd.scan h1 h2)
  rw [add_comm, add_nsmul, mul_nsmul']
  simpa [ctWindow] using hsum

/-- The windows of R325 for the digits `L` below a digit `c` that the accumulator holds. -/
theorem foldr_ctWindow_regs (M : GroupModel d G ρ) {w c : Nat} {t : Datapath} (ht : CtTable ρ g (2 ^ w) t)
    (hR : ρ (t.get .R) (c • g)) : ∀ L : List Nat, (∀ x ∈ L, 1 ≤ x ∧ x ≤ 2 ^ w) →
    CtTable ρ g (2 ^ w) (L.foldr (fun x u => ctWindow d w u x) t) ∧
      ρ ((L.foldr (fun x u => ctWindow d w u x) t).get .R) (Nat.ofDigits (2 ^ w) (L ++ [c]) • g)
  | [], _ => ⟨ht, by rwa [List.nil_append, Nat.ofDigits_singleton]⟩
  | x :: L, hL => by
    obtain ⟨⟨h1, h2⟩, hL⟩ := List.forall_mem_cons.1 hL
    obtain ⟨ht', hR'⟩ := foldr_ctWindow_regs M ht hR L hL
    exact ctWindow_regs M ht' hR' h1 h2

/-- The scan of the highest digit and the windows below it leave the value of the digits. -/
theorem ctWindows_regs (M : GroupModel d G ρ) {w : Nat} {L : List Nat} {t : Datapath} (hne : L ≠ [])
    (hL : ∀ x ∈ L, 1 ≤ x ∧ x ≤ 2 ^ w) (ht : CtTable ρ g (2 ^ w) t) :
    CtTable ρ g (2 ^ w) (ctWindows d w L.reverse t) ∧
      ρ ((ctWindows d w L.reverse t).get .R) (Nat.ofDigits (2 ^ w) L • g) := by
  obtain ⟨h1, h2⟩ := hL _ (List.getLast_mem hne)
  have hscan : ρ ((t.scan .R (2 ^ w) (L.getLast hne)).get .R) (L.getLast hne • g) := by
    rw [Datapath.get_scan, if_pos rfl]
    exact ht.scan h1 h2
  have h := foldr_ctWindow_regs M (ht.of_get (by simp) (by simp)) hscan L.dropLast
    fun x hx => hL x (List.dropLast_subset L hx)
  have hrun : ctWindows d w L.reverse t =
      L.dropLast.foldr (fun x u => ctWindow d w u x) (t.scan .R (2 ^ w) (L.getLast hne)) := by
    rw [ctWindows, List.tail_reverse, List.foldl_reverse, List.headD_eq_head?_getD, List.head?_reverse,
      List.getLast?_eq_some_getLast hne, Option.getD_some]
  rw [hrun]
  rwa [List.dropLast_append_getLast hne] at h

/-- The correction of R328 takes 2^n times the point off. -/
theorem ctCorrect_acc (M : GroupModel d G ρ) (n : Nat) {t : Datapath} {x : G} (hP : ρ (t.get .P) g)
    (hR : ρ (t.get .R) x) : ρ (ctCorrect d n t).acc (x - 2 ^ n • g) := by
  have hC := dblTimes_self M .C n (t.load .C (t.get .P)) (by simpa using hP)
  have hRn : ((t.load .C (t.get .P)).dblTimes d .C n).get .R = t.get .R := by
    rw [Datapath.get_dblTimes_ne d (by decide), Datapath.get_load, if_neg (by decide)]
  rw [sub_eq_add_neg]
  simpa [ctCorrect, Datapath.acc, hRn] using M.add hR (M.neg hC)

theorem two_le_windowWidth (bits : Nat) : 2 ≤ windowWidth bits := by
  unfold windowWidth
  split <;> decide

/-- The windows cover the scalar (R324). -/
theorem bits_le_windows (bits : Nat) : bits ≤ windowWidth bits * windowCount bits := by
  have hw := two_le_windowWidth bits
  have h := Nat.div_add_mod (bits + windowWidth bits - 1) (windowWidth bits)
  have hlt := Nat.mod_lt (bits + windowWidth bits - 1) (show 0 < windowWidth bits by omega)
  unfold windowCount
  omega

/-- CT leaves `k` times its point: the digits are worth k + 2·2^(w·NW), and the correction takes 2^(w·NW + 1) off. -/
theorem ctMul_acc (M : GroupModel d G ρ) {P : Point} (hP : ρ P g) {k : Nat} (hk : bitlen k ≤ d.orderBits) :
    ρ (ctMul d k P).acc (k • g) := by
  have hlt : k < 2 ^ (windowWidth d.orderBits * windowCount d.orderBits) :=
    (bitlen_le_iff k _).1 (hk.trans (bits_le_windows _))
  have hrec := recode_recodes (two_le_windowWidth d.orderBits) hlt
  have hstart : CtTable ρ g 1 { file := [(.P, P), (.tbl 1, P)], ops := [] } :=
    ⟨hP, fun j h1 h2 => by
      obtain rfl : j = 1 := by omega
      rw [one_nsmul]
      exact hP⟩
  have htable := ctTable_table M hstart (2 ^ windowWidth d.orderBits - 1)
  rw [Nat.sub_add_cancel Nat.one_le_two_pow] at htable
  obtain ⟨hend, hR⟩ := ctWindows_regs M hrec.ne_nil hrec.range htable
  have h := ctCorrect_acc M (windowWidth d.orderBits * windowCount d.orderBits + 1) hend.P hR
  rwa [← Nat.add_zero (Nat.ofDigits _ _), hrec.value, add_nsmul, ← pow_succ', add_sub_cancel_right] at h

end ct

/-! ### The two-scalar product (R331, R332) -/

section twoScalar

variable {d : Domain} {G : Type} [AddCommGroup G] {ρ : Point → G → Prop} {P Q : Point} {g h : G}

theorem shamirEntry_rep (M : GroupModel d G ρ) (hP : ρ P g) (hQ : ρ Q h) (b1 b2 : Bool) :
    ρ (shamirEntry d P Q b1 b2) (b1.toNat • g + b2.toNat • h) := by
  cases b1 <;> cases b2
  · simpa [shamirEntry] using M.inf
  · simpa [shamirEntry] using hQ
  · simpa [shamirEntry] using hP
  · simpa [shamirEntry] using M.add hP hQ

/-- The loop of R331 on points of one group. -/
theorem fastLoop2_rep (M : GroupModel d G ρ) (hP : ρ P g) (hQ : ρ Q h) (s1 s2 : Nat) : ∀ (i : Nat) (R : Point),
    ρ R ((s1 / 2 ^ i) • g + (s2 / 2 ^ i) • h) → ρ (fastLoop2 d s1 P s2 Q i R) (s1 • g + s2 • h)
  | 0, R, hR => by simpa [fastLoop2] using hR
  | i + 1, R, hR => by
    refine fastLoop2_rep M hP hQ s1 s2 i _ ?_
    have hentry := shamirEntry_rep M hP hQ (s1.testBit i) (s2.testBit i)
    have hbits : (s1 / 2 ^ i) • g + (s2 / 2 ^ i) • h =
        ((s1 / 2 ^ (i + 1)) • g + (s2 / 2 ^ (i + 1)) • h + ((s1 / 2 ^ (i + 1)) • g + (s2 / 2 ^ (i + 1)) • h)) +
          ((s1.testBit i).toNat • g + (s2.testBit i).toNat • h) := by
      rw [div_two_pow_eq s1 i, div_two_pow_eq s2 i]
      simp only [add_nsmul, mul_nsmul', two_nsmul]
      abel
    rw [hbits]
    split
    · exact M.add (M.dbl hR) hentry
    · next hnone =>
      simp only [Bool.or_eq_true, not_or, Bool.not_eq_true] at hnone
      simpa [hnone] using M.dbl hR

/-- Shamir's trick starts above the highest bit of both scalars. -/
theorem fastMul2_rep (M : GroupModel d G ρ) (hP : ρ P g) (hQ : ρ Q h) (s1 s2 : Nat) :
    ρ (fastMul2 d s1 P s2 Q) (s1 • g + s2 • h) := by
  refine fastLoop2_rep M hP hQ s1 s2 _ _ ?_
  rw [Nat.div_eq_of_lt ((bitlen_le_iff s1 _).1 (le_max_left _ _)),
    Nat.div_eq_of_lt ((bitlen_le_iff s2 _).1 (le_max_right _ _))]
  simpa using M.inf

end twoScalar

/-! ### The values (R322) -/

/-- Settles O36: every on-curve point stands for an element of some group, where FAST computes the multiple. -/
theorem fastMulIsMultiple : Obligations.FastMulIsMultiple := by
  intro d hprime hp k P hb hc
  have : Fact d.p.Prime := ⟨hprime⟩
  obtain ⟨G, _, ρ, g, M, hP⟩ := d.exists_groupModel hp hb hc
  exact M.unique (fastMul_acc M hP k) (M.mulRef hP k)

/-- Settles O37: as for FAST, with the scalar within the windows. -/
theorem ctMulIsMultiple : Obligations.CtMulIsMultiple := by
  intro d hprime hp k P hk hb hc
  have : Fact d.p.Prime := ⟨hprime⟩
  obtain ⟨G, _, ρ, g, M, hP⟩ := d.exists_groupModel hp hb hc
  exact M.unique (ctMul_acc M hP hk) (M.mulRef hP k)

/-- On a curve that is not singular both points of a product lie in the one group of the curve. -/
theorem fastMul2_eq {d : Domain} (hprime : d.p.Prime) (hp : d.p ≠ 2) (hs : d.singular = false) (s1 s2 : Nat)
    {P Q : Point} (hPb : P.below d.p) (hQb : Q.below d.p) (hPc : d.onCurve P = true) (hQc : d.onCurve Q = true) :
    fastMul2 d s1 P s2 Q = d.add (d.mulRef s1 P) (d.mulRef s2 Q) := by
  have : Fact d.p.Prime := ⟨hprime⟩
  have M := d.curveModel hp
  have hns := of_decide_eq_false hs
  obtain ⟨g, hg⟩ := d.exists_rep hp hns hPb hPc
  obtain ⟨h, hh⟩ := d.exists_rep hp hns hQb hQc
  exact M.unique (fastMul2_rep M hg hh s1 s2) (M.add (M.mulRef hg s1) (M.mulRef hh s2))

/-- Settles O38: CT, and FAST on a singular curve, add two single products; elsewhere FAST interleaves them. -/
theorem twoScalarProductIsSum : Obligations.TwoScalarProductIsSum := by
  intro d hprime hp pol s1 s2 P Q h1 h2 hPb hQb hPc hQc
  cases pol with
  | fast =>
    cases hs : d.singular with
    | true =>
      simp only [policyMul2, hs, if_true]
      rw [fastMulIsMultiple d hprime hp s1 P hPb hPc, fastMulIsMultiple d hprime hp s2 Q hQb hQc]
    | false =>
      simp only [policyMul2, hs, Bool.false_eq_true, if_false]
      exact fastMul2_eq hprime hp hs s1 s2 hPb hQb hPc hQc
  | ct =>
    simp only [policyMul2, ctMul2]
    rw [ctMulIsMultiple d hprime hp s1 P h1 hPb hPc, ctMulIsMultiple d hprime hp s2 Q h2 hQb hQc]

end Sys2Proof.Proofs
end

section
/-! PROOFS. The CT operation schedule (spec 44_scalar_mul.md R329): each part of the algorithm appends a list of steps
that only ORDER_BITS determines. -/

namespace Sys2Proof.Proofs
open Sys2Proof.Machine

/-! ### The steps of each part (R325, R328) -/

@[simp] theorem ops_ctTable (d : Domain) (t : Datapath) : ∀ n, (ctTable d n t).ops =
    t.ops ++ (List.range n).map fun i => GroupOp.add (.tbl (i + 2)) (.tbl (i + 1)) .P
  | 0 => (List.append_nil t.ops).symm
  | n + 1 => by
    rw [ctTable, Datapath.ops_add, ops_ctTable d t n, List.range_succ, List.map_append, List.append_assoc]
    rfl

/-- The steps of one window. -/
def windowSteps (w : Nat) : List GroupOp :=
  List.replicate w (GroupOp.dbl .R .R) ++ [GroupOp.scan .S (2 ^ w), GroupOp.add .R .R .S]

theorem ops_ctWindow (d : Domain) (w digit : Nat) (t : Datapath) :
    (ctWindow d w t digit).ops = t.ops ++ windowSteps w := by
  simp [ctWindow, windowSteps]

theorem ops_foldl_ctWindow (d : Domain) (w : Nat) : ∀ (L : List Nat) (t : Datapath),
    (L.foldl (ctWindow d w) t).ops = t.ops ++ (List.replicate L.length (windowSteps w)).flatten
  | [], t => (List.append_nil t.ops).symm
  | x :: L, t => by
    rw [List.foldl_cons, ops_foldl_ctWindow d w L, ops_ctWindow, List.length_cons, List.replicate_succ,
      List.flatten_cons, List.append_assoc]

/-- The number of digits decides how many windows there are, and not their values. -/
@[simp] theorem ops_ctWindows (d : Domain) (w : Nat) (L : List Nat) (t : Datapath) : (ctWindows d w L t).ops =
    t.ops ++ [GroupOp.scan .R (2 ^ w)] ++ (List.replicate (L.length - 1) (windowSteps w)).flatten := by
  rw [ctWindows, ops_foldl_ctWindow, Datapath.ops_scan, List.length_tail]

@[simp] theorem ops_ctCorrect (d : Domain) (n : Nat) (t : Datapath) :
    (ctCorrect d n t).ops = t.ops ++ List.replicate n (GroupOp.dbl .C .C) ++ [GroupOp.add .R .R .N] := by
  simp [ctCorrect]

/-! ### The schedule (R329) -/

/-- The steps of a CT multiplication are those of the schedule. -/
theorem ops_ctMul (d : Domain) (k : Nat) (P : Point) : (ctMul d k P).ops = ctSchedule d.orderBits := by
  simp [ctMul, ctSchedule, length_recode, windowSteps]

theorem kinds_windowSteps (w : Nat) :
    (windowSteps w).map GroupOp.kind = List.replicate w OpKind.dbl ++ [OpKind.scan, OpKind.add] := by
  simp [windowSteps, GroupOp.kind]

/-- The letters of the schedule (R329). -/
theorem kinds_ctSchedule {bits w nw : Nat} (hw : windowWidth bits = w) (hnw : windowCount bits = nw) :
    (ctSchedule bits).map GroupOp.kind = List.replicate (2 ^ w - 1) OpKind.add ++ [OpKind.scan] ++
      (List.replicate nw (List.replicate w OpKind.dbl ++ [OpKind.scan, OpKind.add])).flatten ++
      List.replicate (w * nw + 1) OpKind.dbl ++ [OpKind.add] := by
  subst hw hnw
  rw [← kinds_windowSteps]
  simp [ctSchedule, windowSteps, GroupOp.kind, Function.comp_def, List.map_flatten]

/-- Settles O40: the steps are the schedule, and the counts are those of its letters. -/
theorem ctScheduleIndependentOfScalar : Obligations.CtScheduleIndependentOfScalar := by
  refine ⟨fun d d' k k' P P' h => by rw [ops_ctMul, ops_ctMul, h], fun d k P w nw hw hnw => ?_⟩
  have hwidth : windowWidth d.orderBits = w := hw.symm
  have hcount : windowCount d.orderBits = nw := by rw [hnw, windowCount, hwidth]
  rw [ops_ctMul, kinds_ctSchedule hwidth hcount]
  refine ⟨rfl, by rw [ctSchedule, hwidth, hcount], ?_, ?_, ?_⟩
  · have hdbl : nw * w + (w * nw + 1) = 2 * w * nw + 1 := by ring
    simpa [List.count_flatten, List.count_replicate] using hdbl
  · simp [List.count_flatten, List.count_replicate]
  · simp [List.count_flatten, List.count_replicate]

end Sys2Proof.Proofs
end

section
/-! PROOFS. The scalar-multiplication commands (spec 44_scalar_mul.md R333 to R335): after the common checks a scalar
longer than ORDER_BITS is a RangeError, and otherwise the command commits the result point of R322. -/

namespace Sys2Proof.Proofs
open Sys2Proof.Machine

/-! ### The result point (R322) -/

/-- A prime p is that of an installed domain, as the cleared domain has p = 0 (R55). -/
theorem dom_valid_of_prime {s : State} (h : s.Inv) (hprime : s.dom.p.Prime) : s.dom.Valid s.ctx.fieldBits := by
  cases hs : s.dom.set with
  | true => exact h.dom_valid hs
  | false =>
    rw [h.dom_cleared hs] at hprime
    exact absurd hprime Nat.not_prime_zero

theorem p_ne_two_of_prime {s : State} (h : s.Inv) (hprime : s.dom.p.Prime) : s.dom.p ≠ 2 := by
  have := (dom_valid_of_prime h hprime).p_ge
  omega

section result

variable {s : State} (hprime : s.dom.p.Prime) (hp : s.dom.p ≠ 2)
include hprime hp

/-- The result point of a single-scalar multiplication under either policy (R321, R322). -/
theorem mulPoint_onCurve (pol : Policy) {k : Nat} {P : Point} (hk : bitlen k ≤ s.dom.orderBits)
    (hb : P.below s.dom.p) (hc : s.dom.onCurve P = true) : s.mulPoint pol k P = s.dom.mulRef k P := by
  rw [State.mulPoint, if_pos hc]
  cases pol with
  | fast => exact fastMulIsMultiple _ hprime hp k P hb hc
  | ct => exact ctMulIsMultiple _ hprime hp k P hk hb hc

/-- The result point of a two-scalar product (R322). -/
theorem mulPoint2_onCurve {s1 s2 : Nat} {P Q : Point} (h1 : bitlen s1 ≤ s.dom.orderBits)
    (h2 : bitlen s2 ≤ s.dom.orderBits) (hPb : P.below s.dom.p) (hQb : Q.below s.dom.p)
    (hPc : s.dom.onCurve P = true) (hQc : s.dom.onCurve Q = true) :
    s.mulPoint2 s1 P s2 Q = s.dom.add (s.dom.mulRef s1 P) (s.dom.mulRef s2 Q) := by
  rw [State.mulPoint2, hPc, hQc, Bool.and_self, if_pos rfl]
  exact twoScalarProductIsSum _ hprime hp _ s1 s2 P Q h1 h2 hPb hQb hPc hQc

end result

/-! ### The discipline of R320 -/

/-- A command with scalars makes the common checks first; for a ready one a scalar longer than ORDER_BITS is a
RangeError, and else the command commits. -/
theorem scalarCommand_rule {i : Instr} {s t any : State} {v : Word} {ks : List Nat} (hinv : s.Inv)
    (hc : s.compositeP = false)
    (hexec : exec i s = s.finishGroup i any (s.commonChecks (sources i) ++ ks.map s.scalarCheck) t v) :
    CommonFirst i s ∧ (s.ready i = true →
      ((∃ k ∈ ks, bitlen s.dom.r < bitlen k) → exec i s = .next (s.completeErr .rangeError)) ∧
      ((∀ k ∈ ks, bitlen k ≤ bitlen s.dom.r) → exec i s = .next (t.completeOk v))) := by
  rw [s.finishGroup_of_not hc] at hexec
  obtain ⟨hcommon, hrun⟩ := commonFirst_of_finish hexec
  refine ⟨hcommon, fun hready => ?_⟩
  have hscalars : firstFailure (ks.map s.scalarCheck) =
      if ks.all (fun k => decide (bitlen k ≤ bitlen s.dom.r)) then none else some .rangeError := by
    rw [← (hinv.dom_valid (dom_set_of_ready hready)).orderBits_eq]
    exact firstFailure_map ..
  rw [hrun hready, State.finish, hscalars]
  refine ⟨fun ⟨k, hk, hgt⟩ => ?_, fun hle => ?_⟩
  · rw [if_neg]
    exact fun hall => absurd (of_decide_eq_true (List.all_eq_true.1 hall k hk)) (Nat.not_le.2 hgt)
  · rw [if_pos]
    exact List.all_eq_true.2 fun k hk => decide_eq_true (hle k hk)

/-! ### The commands -/

/-- Settles O41: the point committed is that of `State.mulPoint`, for the register and for the base point. -/
theorem ptMulRule : Obligations.PtMulRule := by
  intro rd ra rb s hinv
  have hmul := fun hc => scalarCommand_rule (i := .ptMul rd ra rb) (ks := [s.opVal rb]) hinv hc rfl
  have hbase := fun hc => scalarCommand_rule (i := .ptMulBase rd rb) (ks := [s.opVal rb]) hinv hc rfl
  simp only [List.mem_singleton, exists_eq_left, forall_eq] at hmul hbase
  refine ⟨encodes_of_wellFormed rfl, encodes_of_wellFormed rfl, fun hc => ⟨(hmul hc).1, (hbase hc).1⟩,
    fun hprime hready P hP => ?_, fun hprime hready => ?_⟩
  all_goals
    have hcomp := State.compositeP_of_prime hprime
    have hv := dom_valid_of_prime hinv hprime
    have hp := p_ne_two_of_prime hinv hprime
  · obtain ⟨hlong, hok⟩ := (hmul hcomp).2 hready
    have hb := (hinv.pt_valid ra P hP).2
    refine ⟨hlong, fun hk => ⟨s.mulPoint s.ctx.policy (s.opVal rb) P, s.mulPoint_below hprime.pos _ _ hb,
      fun hc => mulPoint_onCurve hprime hp _ (hv.orderBits_eq ▸ hk) hb hc, ?_⟩⟩
    rw [hok hk, State.ptVal_of_valid hP, infResult_eq]
  · obtain ⟨hlong, hok⟩ := (hbase hcomp).2 hready
    refine ⟨hlong, fun hk => ⟨s.mulPoint s.ctx.policy (s.opVal rb) s.dom.G, s.mulPoint_below hprime.pos _ _ hv.G_below,
      fun hc => mulPoint_onCurve hprime hp _ (hv.orderBits_eq ▸ hk) hv.G_below hc, ?_⟩⟩
    rw [hok hk, infResult_eq]

/-- Settles O42: the point committed is that of `State.mulPoint2`. -/
theorem ptMul2Rule : Obligations.PtMul2Rule := by
  intro rd ra rc rb re s hinv
  have hmul := fun hc =>
    scalarCommand_rule (i := .ptMul2 rd ra rb rc re) (ks := [s.opVal rb, s.opVal re]) hinv hc rfl
  simp only [List.mem_pair, exists_eq_or_imp, exists_eq_left, forall_eq_or_imp, forall_eq, and_imp] at hmul
  refine ⟨encodes_of_wellFormed rfl, fun hc => (hmul hc).1, fun hprime hready P Q hP hQ => ?_⟩
  have hv := dom_valid_of_prime hinv hprime
  have hp := p_ne_two_of_prime hinv hprime
  obtain ⟨hlong, hok⟩ := (hmul (State.compositeP_of_prime hprime)).2 hready
  have hPb := (hinv.pt_valid ra P hP).2
  have hQb := (hinv.pt_valid rc Q hQ).2
  refine ⟨hlong, fun h1 h2 => ⟨s.mulPoint2 (s.opVal rb) P (s.opVal re) Q, s.mulPoint2_below hprime.pos _ _ hPb hQb,
    fun hPc hQc => mulPoint2_onCurve hprime hp (hv.orderBits_eq ▸ h1) (hv.orderBits_eq ▸ h2) hPb hQb hPc hQc, ?_⟩⟩
  rw [hok h1 h2, State.ptVal_of_valid hP, State.ptVal_of_valid hQ, infResult_eq]

end Sys2Proof.Proofs
end

section
/-! PROOFS. The policy (spec 44_scalar_mul.md R321, R322): only the result points of PT_MUL, PT_MUL_BASE, PT_MUL2 and
VERIFY are computed by the algorithm of the policy, and for on-curve points that changes no value. -/

namespace Sys2Proof.Proofs
open Sys2Proof.Machine

@[simp] theorem withPolicy_dom (s : State) (pol : Policy) : (s.withPolicy pol).dom = s.dom := rfl

theorem writeOp_withPolicy (s : State) (pol : Policy) (i : OpIdx) (v : Nat) :
    (s.withPolicy pol).writeOp i v = (s.writeOp i v).withPolicy pol := rfl

theorem writeKey_withPolicy (s : State) (pol : Policy) (slot : KeySlot) (kp : KeyPair) :
    (s.withPolicy pol).writeKey slot kp = (s.writeKey slot kp).withPolicy pol := by cases slot <;> rfl

theorem writeTuple_withPolicy (s : State) (pol : Policy) (t : CurveTuple) :
    writeTuple (s.withPolicy pol) t = (writeTuple s t).withPolicy pol := by
  simp only [writeTuple, writeOp_withPolicy]

/-- An answer with another policy in the context of its state (R54). -/
def answerWithPolicy (pol : Policy) : StepResult → StepResult
  | .next t => .next (t.withPolicy pol)
  | .fault f => .fault f
  | .refused r => .refused r

/-! ### The end of a meaning under another policy -/

section ends

variable {pol : Policy} {s t t' any any' : State} {cs : List Check} {v v' : Word}

/-- The same checks decide, so the staged states need to agree only when they all hold. -/
theorem finish_withPolicy (h : firstFailure cs = none → t' = t.withPolicy pol ∧ v' = v) :
    (s.withPolicy pol).finish cs t' v' = answerWithPolicy pol (s.finish cs t v) := by
  unfold State.finish
  cases hf : firstFailure cs with
  | some e => rfl
  | none =>
    obtain ⟨rfl, rfl⟩ := h hf
    rfl

theorem finishGroup_withPolicy {i : Instr} (ha : any' = any.withPolicy pol)
    (h : firstFailure cs = none → t' = t.withPolicy pol ∧ v' = v) :
    (s.withPolicy pol).finishGroup i any' cs t' v' = answerWithPolicy pol (s.finishGroup i any cs t v) := by
  unfold State.finishGroup
  rw [show (s.withPolicy pol).compositeP = s.compositeP from rfl]
  split
  · subst ha
    unfold State.completeAny
    rw [show (s.withPolicy pol).freeCode = s.freeCode from rfl]
    dsimp only
    split <;> rfl
  · exact finish_withPolicy h

/-- A command whose staged state and RESULT do not depend on the policy. -/
theorem finish_same_withPolicy (ht : t' = t.withPolicy pol) (hv : v' = v) :
    (s.withPolicy pol).finish cs t' v' = answerWithPolicy pol (s.finish cs t v) :=
  finish_withPolicy fun _ => ⟨ht, hv⟩

theorem finishGroup_same_withPolicy {i : Instr} (ha : any' = any.withPolicy pol) (ht : t' = t.withPolicy pol)
    (hv : v' = v) :
    (s.withPolicy pol).finishGroup i any' cs t' v' = answerWithPolicy pol (s.finishGroup i any cs t v) :=
  finishGroup_withPolicy ha fun _ => ⟨ht, hv⟩

end ends

/-! ### The commands that the policy steers -/

/-- The points that a command can multiply lie on the curve, and p is prime. -/
structure OnCurveState (s : State) : Prop where
  inv : s.Inv
  prime : s.dom.p.Prime
  base : s.dom.onCurve s.dom.G = true
  pts : ∀ j P, s.pt j = .valid P → s.dom.onCurve P = true
  pub : s.dom.onCurve s.keyReg.pub = true

section steered

variable {s : State} (h : OnCurveState s) (pol : Policy)
include h

/-- A point source of a ready command is a Point on the curve. -/
theorem OnCurveState.source {i : Instr} {j : PtIdx} (hready : s.ready i = true) (hj : .pt j ∈ sources i) :
    (s.ptVal j).below s.dom.p ∧ s.dom.onCurve (s.ptVal j) = true := by
  obtain ⟨P, hP⟩ := pt_valid_of_ready hready hj
  rw [State.ptVal_of_valid hP]
  exact ⟨(h.inv.pt_valid j P hP).2, h.pts j P hP⟩

theorem OnCurveState.mulPoint {k : Nat} {P : Point} (hk : bitlen k ≤ s.dom.orderBits) (hb : P.below s.dom.p)
    (hc : s.dom.onCurve P = true) : (s.withPolicy pol).mulPoint pol k P = s.mulPoint s.ctx.policy k P := by
  have hp := p_ne_two_of_prime h.inv h.prime
  rw [mulPoint_onCurve (s := s.withPolicy pol) h.prime hp pol hk hb hc, mulPoint_onCurve h.prime hp _ hk hb hc]
  rfl

theorem OnCurveState.mulPoint2 {s1 s2 : Nat} {P Q : Point} (h1 : bitlen s1 ≤ s.dom.orderBits)
    (h2 : bitlen s2 ≤ s.dom.orderBits) (hP : P.below s.dom.p ∧ s.dom.onCurve P = true)
    (hQ : Q.below s.dom.p ∧ s.dom.onCurve Q = true) :
    (s.withPolicy pol).mulPoint2 s1 P s2 Q = s.mulPoint2 s1 P s2 Q := by
  have hp := p_ne_two_of_prime h.inv h.prime
  rw [mulPoint2_onCurve (s := s.withPolicy pol) h.prime hp h1 h2 hP.1 hQ.1 hP.2 hQ.2,
    mulPoint2_onCurve h.prime hp h1 h2 hP.1 hQ.1 hP.2 hQ.2]
  rfl

theorem OnCurveState.G_source : s.dom.G.below s.dom.p ∧ s.dom.onCurve s.dom.G = true :=
  ⟨(dom_valid_of_prime h.inv h.prime).G_below, h.base⟩

/-- VERIFY multiplies by residues mod r, which fit in ORDER_BITS. -/
theorem OnCurveState.verifyResult (e sx sy : Nat) {Q : Point} (hQ : Q.below s.dom.p ∧ s.dom.onCurve Q = true) :
    (s.withPolicy pol).verifyResult e sx sy Q = s.verifyResult e sx sy Q := by
  have hv := dom_valid_of_prime h.inv h.prime
  have hbits : ∀ x, bitlen (x % s.dom.r) ≤ s.dom.orderBits := fun x => by
    rw [hv.orderBits_eq]
    exact bitlen_mono (Nat.mod_lt x (Nat.lt_of_lt_of_le (by decide) hv.r_ge)).le
  simp only [State.verifyResult, withPolicy_dom, h.mulPoint2 pol (hbits _) (hbits _) h.G_source hQ]

/-- The public key of a ready VERIFY. -/
theorem OnCurveState.publicKey {ra rb rc : OpIdx} {pub : Option PtIdx}
    (hready : s.ready (.verify ra rb rc pub) = true) :
    (s.publicKey pub).below s.dom.p ∧ s.dom.onCurve (s.publicKey pub) = true := by
  cases pub with
  | none => exact ⟨h.inv.keyReg_within.2, h.pub⟩
  | some j => exact h.source hready (by simp [sources, optPtSrc])

theorem exec_ptMul_withPolicy (rd ra : PtIdx) (rb : OpIdx) :
    exec (.ptMul rd ra rb) (s.withPolicy pol) = answerWithPolicy pol (exec (.ptMul rd ra rb) s) := by
  refine finishGroup_withPolicy rfl fun hchecks => ?_
  obtain ⟨hready, hscalar⟩ := ready_of_common (i := .ptMul rd ra rb) hchecks
  have hk := of_decide_eq_true (all_of_firstFailure hscalar _ (List.mem_singleton_self _))
  obtain ⟨hb, hc⟩ := h.source hready (j := ra) (by simp [sources])
  have hS := h.mulPoint pol hk hb hc
  exact ⟨congrArg ((s.withPolicy pol).writePt rd) hS, congrArg infResult hS⟩

theorem exec_ptMulBase_withPolicy (rd : PtIdx) (ra : OpIdx) :
    exec (.ptMulBase rd ra) (s.withPolicy pol) = answerWithPolicy pol (exec (.ptMulBase rd ra) s) := by
  refine finishGroup_withPolicy rfl fun hchecks => ?_
  obtain ⟨-, hscalar⟩ := ready_of_common (i := .ptMulBase rd ra) hchecks
  have hk := of_decide_eq_true (all_of_firstFailure hscalar _ (List.mem_singleton_self _))
  have hS := h.mulPoint pol hk h.G_source.1 h.base
  exact ⟨congrArg ((s.withPolicy pol).writePt rd) hS, congrArg infResult hS⟩

theorem exec_ptMul2_withPolicy (rd ra : PtIdx) (rb : OpIdx) (rc : PtIdx) (re : OpIdx) :
    exec (.ptMul2 rd ra rb rc re) (s.withPolicy pol) =
      answerWithPolicy pol (exec (.ptMul2 rd ra rb rc re) s) := by
  refine finishGroup_withPolicy rfl fun hchecks => ?_
  obtain ⟨hready, hscalars⟩ := ready_of_common (i := .ptMul2 rd ra rb rc re) hchecks
  have hfit := all_of_firstFailure hscalars
  have hS := h.mulPoint2 pol (of_decide_eq_true (hfit _ (.head _)))
    (of_decide_eq_true (hfit _ (.tail _ (.head _))))
    (h.source hready (j := ra) (by simp [sources])) (h.source hready (j := rc) (by simp [sources]))
  exact ⟨congrArg ((s.withPolicy pol).writePt rd) hS, congrArg infResult hS⟩

theorem exec_verify_withPolicy (ra rb rc : OpIdx) (pub : Option PtIdx) :
    exec (.verify ra rb rc pub) (s.withPolicy pol) = answerWithPolicy pol (exec (.verify ra rb rc pub) s) :=
  finishGroup_withPolicy rfl fun hchecks =>
    ⟨rfl, h.verifyResult pol _ _ _ (h.publicKey (ready_of_common (i := .verify ra rb rc pub) hchecks).1)⟩

end steered

/-! ### GEN_KEYPAIR (R371, R372) -/

section genKeypair

variable {s : State} {e : StatusCode} (rd : OpIdx) (re : PtIdx)

/-- GEN_KEYPAIR without a domain (R372). -/
theorem exec_genKeypair_error (h : firstFailure (s.commonChecks []) = some e) :
    exec (.genKeypair rd re) s = .next (s.completeErr e) := by
  rw [exec, execGenKeypair, h]

/-- A try that lacks words asks for one (R371, R445). -/
theorem exec_genKeypair_asks (h : firstFailure (s.commonChecks []) = none)
    (hw : s.drawn.length < wordsPerTry s.dom.orderBits) :
    exec (.genKeypair rd re) s = .next { s with rngReq := true } := by
  rw [exec, execGenKeypair, h]
  exact if_pos hw

/-- A try whose value is not in (0, r) is dropped (R371). -/
theorem exec_genKeypair_rejects (h : firstFailure (s.commonChecks []) = none)
    (hw : ¬ s.drawn.length < wordsPerTry s.dom.orderBits)
    (hd : ¬ (0 < sampleValue s.dom.orderBits s.drawn ∧ sampleValue s.dom.orderBits s.drawn < s.dom.r)) :
    exec (.genKeypair rd re) s = .next { s with rngReq := true, drawn := [] } := by
  rw [exec, execGenKeypair, h]
  exact (if_neg hw).trans (if_neg hd)

/-- A try whose value is in (0, r) completes the command with it (R372). -/
theorem exec_genKeypair_accepts (h : firstFailure (s.commonChecks []) = none)
    (hw : ¬ s.drawn.length < wordsPerTry s.dom.orderBits)
    (hd : 0 < sampleValue s.dom.orderBits s.drawn ∧ sampleValue s.dom.orderBits s.drawn < s.dom.r) :
    exec (.genKeypair rd re) s = s.finishGroup (.genKeypair rd re)
      ((s.writeOp rd (Config.freeNat s.choice 13)).writePt re (s.freePoint 10)) []
      ((s.writeOp rd (sampleValue s.dom.orderBits s.drawn)).writePt re
        (s.mulPoint .ct (sampleValue s.dom.orderBits s.drawn) s.dom.G)) 0 := by
  rw [exec, execGenKeypair, h]
  exact (if_neg hw).trans (if_pos hd)

/-- GEN_KEYPAIR multiplies by CT whatever the policy is (R321). -/
theorem exec_genKeypair_withPolicy (s : State) (pol : Policy) :
    exec (.genKeypair rd re) (s.withPolicy pol) = answerWithPolicy pol (exec (.genKeypair rd re) s) := by
  cases hf : firstFailure (s.commonChecks []) with
  | some e =>
    rw [exec_genKeypair_error rd re hf, exec_genKeypair_error (s := s.withPolicy pol) rd re hf]
    rfl
  | none =>
    by_cases hw : s.drawn.length < wordsPerTry s.dom.orderBits
    · rw [exec_genKeypair_asks rd re hf hw, exec_genKeypair_asks (s := s.withPolicy pol) rd re hf hw]
      rfl
    · by_cases hd : 0 < sampleValue s.dom.orderBits s.drawn ∧ sampleValue s.dom.orderBits s.drawn < s.dom.r
      · rw [exec_genKeypair_accepts rd re hf hw hd, exec_genKeypair_accepts (s := s.withPolicy pol) rd re hf hw hd]
        exact finishGroup_same_withPolicy rfl rfl rfl
      · rw [exec_genKeypair_rejects rd re hf hw hd, exec_genKeypair_rejects (s := s.withPolicy pol) rd re hf hw hd]
        rfl

end genKeypair

/-! ### Every command -/

/-- Every command but INIT answers the same under another policy. -/
theorem exec_withPolicy {s : State} (h : OnCurveState s) (pol : Policy) (i : Instr) (hi : ∀ q f, i ≠ .init q f) :
    exec i (s.withPolicy pol) = answerWithPolicy pol (exec i s) := by
  cases i with
  | init q f => exact absurd rfl (hi q f)
  | ptMul rd ra rb => exact exec_ptMul_withPolicy h pol rd ra rb
  | ptMulBase rd ra => exact exec_ptMulBase_withPolicy h pol rd ra
  | ptMul2 rd ra rb rc re => exact exec_ptMul2_withPolicy h pol rd ra rb rc re
  | verify ra rb rc pub => exact exec_verify_withPolicy h pol ra rb rc pub
  | genKeypair rd re => exact exec_genKeypair_withPolicy rd re s pol
  | setStdDomain cid =>
    simp only [exec, execSetStdDomain]
    cases catalog cid with
    | none => exact finish_same_withPolicy rfl rfl
    | some t => exact finish_same_withPolicy rfl rfl
  | setKeypair slot priv pub =>
    cases pub with
    | none => exact finish_same_withPolicy (writeKey_withPolicy ..) rfl
    | some j =>
      exact finishGroup_same_withPolicy (writeKey_withPolicy ..) (writeKey_withPolicy ..) rfl
  | nop => rfl
  | getDomain =>
    rw [exec_getDomain, exec_getDomain]
    exact finish_same_withPolicy (writeTuple_withPolicy s pol _) rfl
  | setDomain | getOrderBits | mmEnc | mmDec | mmMul | mmSqr | mmInv | ptSetInf =>
    exact finish_same_withPolicy rfl rfl
  | ptSetAffine | ptSetProj | ptGetAffine | ptCheck | ptCmp | ptNeg | ptDbl | ptAdd | derivePub | sign | ecdh =>
    exact finishGroup_same_withPolicy rfl rfl rfl

/-- Settles O43: the answer under another policy is the answer with that policy. -/
theorem policyUnobservable : Obligations.PolicyUnobservable := by
  intro i s t pol hinv hprime hbase hpts hpub hi ht
  rw [exec_withPolicy ⟨hinv, hprime, hbase, hpts, hpub⟩ pol i hi, ht]
  rfl

end Sys2Proof.Proofs
end

section
/-! PROOFS. The multiples of an on-curve point (spec 00_scope.md R12): they add and compose as in the group that the
point lies in (43_group_law.md R285), so a multiplier counts only mod the order of the point. -/

namespace Sys2Proof.Proofs
open Sys2Proof.Machine

theorem mulRef_inf (d : Domain) : ∀ k, d.mulRef k .inf = .inf
  | 0 => rfl
  | k + 1 => by rw [Domain.mulRef, mulRef_inf d k, add_inf_point]

section multiples

variable {d : Domain} {P : Point} (hprime : d.p.Prime) (hp : d.p ≠ 2) (hb : P.below d.p)
  (hc : d.onCurve P = true)
include hprime hp hb hc

theorem mulRef_onCurve (k : Nat) : d.onCurve (d.mulRef k P) = true ∧ (d.mulRef k P).below d.p := by
  have : Fact d.p.Prime := ⟨hprime⟩
  obtain ⟨G, _, ρ, g, M, hP⟩ := d.exists_groupModel hp hb hc
  exact M.onCurve (M.mulRef hP k)

/-- [j + k]P = [j]P ⊕ [k]P. -/
theorem mulRef_add (j k : Nat) : d.mulRef (j + k) P = d.add (d.mulRef j P) (d.mulRef k P) := by
  have : Fact d.p.Prime := ⟨hprime⟩
  obtain ⟨G, _, ρ, g, M, hP⟩ := d.exists_groupModel hp hb hc
  exact M.unique (add_nsmul g j k ▸ M.mulRef hP (j + k)) (M.add (M.mulRef hP j) (M.mulRef hP k))

/-- [j·k]P = [j]([k]P). -/
theorem mulRef_mul (j k : Nat) : d.mulRef (j * k) P = d.mulRef j (d.mulRef k P) := by
  have : Fact d.p.Prime := ⟨hprime⟩
  obtain ⟨G, _, ρ, g, M, hP⟩ := d.exists_groupModel hp hb hc
  exact M.unique (mul_nsmul' g j k ▸ M.mulRef hP (j * k)) (M.mulRef (M.mulRef hP k) j)

/-- For a P with [r]P = INF the multiplier counts mod r. -/
theorem mulRef_mod {r : Nat} (hr : d.mulRef r P = .inf) (k : Nat) : d.mulRef (k % r) P = d.mulRef k P := by
  conv_rhs => rw [← Nat.div_add_mod' k r, mulRef_add hprime hp hb hc, mulRef_mul hprime hp hb hc, hr, mulRef_inf]
  rfl

end multiples

end Sys2Proof.Proofs
end

section
/-! PROOFS. The key, signature and ECDH commands (spec 45_keys_signature.md R373 to R383): when R206 does not leave a
command open it makes the common checks, then those of its rule in their order, and commits the values of its rule. -/

namespace Sys2Proof.Proofs
open Sys2Proof.Machine

/-! ### The discipline of the checks (R424) -/

section discipline

variable {i : Instr} {s t any : State} {v : Word} {rest : List Check}

/-- A group-law command that R206 does not leave open makes the common checks first, and a ready one goes on with the
checks of its own. -/
theorem keyCommand_rule (hc : s.compositeP = false)
    (hexec : exec i s = s.finishGroup i any (s.commonChecks (sources i) ++ rest) t v) :
    CommonFirst i s ∧ (s.ready i = true → exec i s = s.finish rest t v) :=
  commonFirst_of_finish (hexec.trans (s.finishGroup_of_not hc ..))

/-- The range check of a priv decides first (R373, R375). -/
theorem finish_privateKeyCheck (d : Nat) : s.finish (s.privateKeyCheck d :: rest) t v =
    if 0 < d ∧ d < s.dom.r then s.finish rest t v else .next (s.completeErr .invalidPrivateKey) := by
  simp only [State.privateKeyCheck, State.finish_cons, Bool.and_eq_true, decide_eq_true_eq]

/-- The width check of a scalar decides first (R320). -/
theorem finish_scalarCheck (k : Nat) : s.finish (s.scalarCheck k :: rest) t v =
    if bitlen k ≤ s.dom.orderBits then s.finish rest t v else .next (s.completeErr .rangeError) := by
  simp only [State.scalarCheck, State.finish_cons, decide_eq_true_eq]

end discipline

/-- A scalar below the order fits in ORDER_BITS (R320). -/
theorem bitlen_le_orderBits {d : Domain} {n k : Nat} (h : d.Valid n) (hk : k < d.r) : bitlen k ≤ d.orderBits :=
  h.orderBits_eq ▸ bitlen_mono hk.le

/-! ### DERIVE_PUB (R373) -/

/-- Settles O47: the point committed is that of `State.mulPoint` for the base point and CT. -/
theorem derivePubRule : Obligations.DerivePubRule := by
  intro rd ra s hinv
  have hrule := fun hc =>
    keyCommand_rule (i := .derivePub rd ra) (s := s) (rest := [s.privateKeyCheck (s.opVal ra)]) hc rfl
  refine ⟨encodes_of_wellFormed rfl, fun hc => (hrule hc).1, fun hprime hready => ?_⟩
  have hv := dom_valid_of_prime hinv hprime
  rw [(hrule (State.compositeP_of_prime hprime)).2 hready, finish_privateKeyCheck, State.finish_nil]
  refine ⟨fun hout => if_neg (by omega), fun h0 hlt => ?_⟩
  refine ⟨s.mulPoint .ct (s.opVal ra) s.dom.G, s.mulPoint_below hprime.pos _ _ hv.G_below, fun hc => ?_, ?_⟩
  · exact mulPoint_onCurve hprime (p_ne_two_of_prime hinv hprime) _ (bitlen_le_orderBits hv hlt) hv.G_below hc
  · rw [if_pos ⟨h0, hlt⟩, infResult_eq]

/-! ### SET_KEYPAIR (R374) -/

/-- The round trip of a public key: the pair INF_ENC(b) becomes INF, and every other point stays (R271, R374). -/
theorem norm_eq (d : Domain) (P : Point) :
    d.norm P = if P = (if d.b = 0 then Point.aff 0 1 else Point.aff 0 0) then .inf else P := by
  cases P with
  | inf => rw [ite_self]; rfl
  | aff x y =>
    simp only [Domain.norm, Domain.pointOf, infEnc]
    by_cases hb : d.b = 0 <;> simp [hb]

/-- Without a public key SET_KEYPAIR does not use the group law (R206, log entry 24). -/
theorem exec_setKeypair {s : State} (slot : KeySlot) (priv : Option OpIdx) {pub : Option PtIdx}
    (h : s.compositeP = false ∨ pub = none) : exec (.setKeypair slot priv pub) s =
      s.finish (s.keypairChecks priv pub) (s.writeKey slot (s.importedKey slot priv pub)) 0 := by
  cases pub with
  | none => rfl
  | some j => exact s.finishGroup_of_not (h.resolve_right (by simp)) ..

/-- With a field to import, SET_KEYPAIR makes the common checks first; a ready one goes on with the width of
priv. -/
theorem setKeypair_rule {s : State} (slot : KeySlot) {priv : Option OpIdx} {pub : Option PtIdx}
    (h : s.compositeP = false ∨ pub = none) (hfield : priv ≠ none ∨ pub ≠ none) :
    CommonFirst (.setKeypair slot priv pub) s ∧ (s.ready (.setKeypair slot priv pub) = true →
      exec (.setKeypair slot priv pub) s = s.finish (priv.toList.map fun i => s.scalarCheck (s.opVal i))
        (s.writeKey slot (s.importedKey slot priv pub)) 0) := by
  have hsome : (priv.isSome || pub.isSome) = true := by
    simpa [Option.isSome_iff_ne_none] using hfield
  refine commonFirst_of_finish ((exec_setKeypair slot priv h).trans ?_)
  rw [State.keypairChecks, hsome, List.append_assoc]
  rfl

/-- Settles O48: the pair committed is `State.importedKey`, field by field. -/
theorem setKeypairRule : Obligations.SetKeypairRule := by
  intro slot priv pub s
  refine ⟨encodes_of_wellFormed rfl, ?_, fun h hfield => ?_⟩
  · rintro rfl rfl
    exact exec_setKeypair slot none (.inr rfl)
  · obtain ⟨hcommon, hrun⟩ := setKeypair_rule slot h hfield
    refine ⟨hcommon, fun hready => ?_⟩
    rw [hrun hready]
    refine ⟨?_, fun hfits => ⟨s.importedKey slot priv pub, ?_, ?_, ?_, ?_, ?_⟩⟩
    · rintro ⟨i, rfl, hlong⟩
      exact (finish_scalarCheck _).trans (if_neg (Nat.not_le.2 hlong))
    · rintro rfl
      rfl
    · rintro i rfl
      rfl
    · rintro rfl
      rfl
    · rintro j P rfl hP
      exact (congrArg s.dom.norm (State.ptVal_of_valid hP)).trans (norm_eq s.dom P)
    · have hchecks : firstFailure (priv.toList.map fun i => s.scalarCheck (s.opVal i)) = none := by
        refine firstFailure_eq_none fun c hc => ?_
        obtain ⟨i, hi, rfl⟩ := List.mem_map.1 hc
        exact decide_eq_true (hfits i (Option.mem_toList.1 hi))
      rw [finish_of_none hchecks]
      cases slot <;> rfl

/-! ### SIGN (R375, R380) -/

section signature

variable {s : State} (e d : Nat) (hr : 1 < s.dom.r) (hg : Nat.gcd s.keyEph.priv s.dom.r = 1)
include hr hg

/-- The signature equation k·signY ≡ e + d·signX (mod r). -/
theorem keyEph_mul_signY : s.keyEph.priv * s.signY e d % s.dom.r = (e + d * s.signX) % s.dom.r := by
  rw [State.signY, Nat.mul_comm (invMod _ _), Nat.mul_comm s.keyEph.priv]
  exact mul_invMod_mul_mod hr hg _

theorem signY_eq_zero_iff : s.signY e d = 0 ↔ (e + d * s.signX) % s.dom.r = 0 := by
  refine ⟨fun h => ?_, fun h => ?_⟩
  · rw [← keyEph_mul_signY e d hr hg, h, Nat.mul_zero, Nat.zero_mod]
  · rw [State.signY, Nat.mul_mod, h, Nat.mul_zero, Nat.zero_mod]

end signature

/-- The checks of SIGN after the common ones, in the order of R375. -/
def signChecks (s : State) (e d : Nat) : List Check :=
  [(decide (e < s.dom.r), .messageError), s.privateKeyCheck d, (decide (s.signX ≠ 0), .ephemeralKeyError),
    (decide (Nat.gcd s.keyEph.priv s.dom.r = 1), .ephemeralKeyError),
    (decide (s.signY e d ≠ 0), .ephemeralKeyError)]

theorem sign_rule {s : State} (hc : s.compositeP = false) (rd re ra : OpIdx) (priv : Option OpIdx) :
    CommonFirst (.sign rd re ra priv) s ∧ (s.ready (.sign rd re ra priv) = true →
      exec (.sign rd re ra priv) s = s.finish (signChecks s (s.opVal ra) (s.privateKey priv))
        ((s.writeOp rd s.signX).writeOp re (s.signY (s.opVal ra) (s.privateKey priv))) 0) :=
  keyCommand_rule hc rfl

theorem one_lt_r_of_ready {s : State} {i : Instr} (hinv : s.Inv) (hready : s.ready i = true) : 1 < s.dom.r := by
  have := (hinv.dom_valid (dom_set_of_ready hready)).r_ge
  omega

/-- Settles O49: the checks in their order, and signY from the signature equation. -/
theorem signRule : Obligations.SignRule := by
  intro rd re ra priv s e d k sx hinv hne he hd hk hsx
  obtain rfl : d = s.privateKey priv := hd
  obtain rfl : sx = s.signX := hsx
  subst he hk
  refine ⟨encodes_of_wellFormed (bne_iff_ne.2 hne), fun hc => ?_⟩
  obtain ⟨hcommon, hrun⟩ := sign_rule hc rd re ra priv
  refine ⟨hcommon, fun hready => ?_⟩
  have hr := one_lt_r_of_ready hinv hready
  rw [hrun hready, signChecks]
  simp only [State.finish_cons, finish_privateKeyCheck, State.finish_nil, decide_eq_true_eq]
  refine ⟨fun h => if_neg (Nat.not_lt.2 h), fun h hout => ?_, fun h h0 hlt => ?_⟩
  · rw [if_pos h, if_neg (by omega)]
  rw [if_pos h, if_pos ⟨h0, hlt⟩]
  refine ⟨fun hbad => ?_, fun hx hg hy => ?_⟩
  · by_cases hx : s.signX = 0
    · exact if_neg (not_not.2 hx)
    rw [if_pos hx]
    by_cases hg : Nat.gcd s.keyEph.priv s.dom.r = 1
    · have hy := (hbad.resolve_left hx).resolve_left (not_not.2 hg)
      rw [if_pos hg, if_neg (not_not.2 ((signY_eq_zero_iff _ _ hr hg).2 hy))]
    · exact if_neg hg
  · have hsy := mt (signY_eq_zero_iff _ _ hr hg).1 hy
    refine ⟨_, Nat.pos_of_ne_zero hsy, Nat.mod_lt _ (by omega), keyEph_mul_signY _ _ hr hg, ?_⟩
    rw [if_pos hx, if_pos hg, if_pos hsy]

/-! ### VERIFY (R377, R378, R383) -/

theorem verifyResult_eq_zero_or_one (s : State) (e sx sy : Nat) (Q : Point) :
    s.verifyResult e sx sy Q = 0 ∨ s.verifyResult e sx sy Q = 1 := by
  unfold State.verifyResult
  dsimp only
  split_ifs <;> simp

/-- A component out of range or without an inverse is Invalid (R377, R383). -/
theorem verifyResult_of_bad {s : State} (e : Nat) {sx sy : Nat} (Q : Point)
    (h : s.dom.r ≤ sx ∨ s.dom.r ≤ sy ∨ Nat.gcd sy s.dom.r ≠ 1) : s.verifyResult e sx sy Q = 1 := by
  unfold State.verifyResult
  split
  · rfl
  · next hrange => exact if_pos (by tauto)

/-- A product that is 1 mod m is 1 in ZMod m (R8). -/
theorem cast_mul_eq_one {m x y : Nat} (h : x * y % m = 1) : (x : ZMod m) * y = 1 := by
  rw [← Nat.cast_mul, ← cast_natMod, h, Nat.cast_one]

/-- An inverse mod m is the one of R8. -/
theorem eq_invMod {m x y : Nat} (hm : 1 < m) (hg : Nat.gcd x m = 1) (hy : y < m) (h : x * y % m = 1) :
    y = invMod m x := by
  refine eq_of_cast_eq hy (invMod_lt hm hg) ?_
  linear_combination (invMod m x : ZMod m) * cast_mul_eq_one h - (y : ZMod m) * invMod_cast_mul hm hg

/-- RESULT for a point R: Valid when R is finite and its x is sx mod r (R377). -/
def validResult (r sx : Nat) : Point → Word
  | .inf => 1
  | .aff x _ => if x % r = sx then 0 else 1

/-- VERIFY on on-curve points decides by the point [e·h]G ⊕ [sx·h]Q of R377. -/
theorem verifyResult_onCurve {s : State} (hinv : s.Inv) (hprime : s.dom.p.Prime) (hG : s.dom.onCurve s.dom.G = true)
    {e sx sy h : Nat} {Q : Point} (hQ : Q.below s.dom.p) (hQc : s.dom.onCurve Q = true) (hx : sx < s.dom.r)
    (hy : sy < s.dom.r) (hg : Nat.gcd sy s.dom.r = 1) (hlt : h < s.dom.r) (hh : sy * h % s.dom.r = 1) :
    s.verifyResult e sx sy Q = validResult s.dom.r sx
      (s.dom.add (s.dom.mulRef (e * h % s.dom.r) s.dom.G) (s.dom.mulRef (sx * h % s.dom.r) Q)) := by
  have hv := dom_valid_of_prime hinv hprime
  have hr : 1 < s.dom.r := Nat.lt_of_lt_of_le (by decide) hv.r_ge
  have hbits : ∀ x, bitlen (x % s.dom.r) ≤ s.dom.orderBits := fun x =>
    bitlen_le_orderBits hv (Nat.mod_lt x (by omega))
  rw [State.verifyResult, if_neg (by omega), if_neg (not_not.2 hg), ← eq_invMod hr hg hlt hh]
  dsimp only
  rw [mulPoint2_onCurve hprime (p_ne_two_of_prime hinv hprime) (hbits _) (hbits _) hv.G_below hQ hG hQc]
  cases s.dom.add (s.dom.mulRef (e * h % s.dom.r) s.dom.G) (s.dom.mulRef (sx * h % s.dom.r) Q) <;> rfl

theorem verify_rule {s : State} (hc : s.compositeP = false) (ra rb rc : OpIdx) (pub : Option PtIdx) :
    CommonFirst (.verify ra rb rc pub) s ∧ (s.ready (.verify ra rb rc pub) = true →
      exec (.verify ra rb rc pub) s = if s.opVal ra < s.dom.r then
        .next (s.completeOk (s.verifyResult (s.opVal ra) (s.opVal rb) (s.opVal rc) (s.publicKey pub)))
      else .next (s.completeErr .messageError)) := by
  obtain ⟨hcommon, hrun⟩ := keyCommand_rule (i := .verify ra rb rc pub) hc rfl
  refine ⟨hcommon, fun hready => ?_⟩
  rw [hrun hready, State.finish_cons, State.finish_nil]
  simp only [decide_eq_true_eq]

/-- The public key of VERIFY has coordinates below p (R50, R52). -/
theorem publicKey_below {s : State} (hinv : s.Inv) {pub : Option PtIdx} {Q : Point}
    (hsome : ∀ j, pub = some j → s.pt j = .valid Q) (hnone : pub = none → Q = s.keyReg.pub) :
    s.publicKey pub = Q ∧ Q.below s.dom.p := by
  cases pub with
  | none =>
    rw [hnone rfl]
    exact ⟨rfl, hinv.keyReg_within.2⟩
  | some j => exact ⟨State.ptVal_of_valid (hsome j rfl), (hinv.pt_valid j Q (hsome j rfl)).2⟩

/-- Settles O50: the digest check, and then the completion with RESULT of `State.verifyResult`. -/
theorem verifyRule : Obligations.VerifyRule := by
  intro ra rb rc pub s e sx sy hinv he hx hy
  subst he hx hy
  refine ⟨encodes_of_wellFormed rfl, fun hc => ?_,
    fun hprime hready he hx hy hg Q hsome hnone hG hQc h hlt hh => ?_⟩
  · obtain ⟨hcommon, hrun⟩ := verify_rule hc ra rb rc pub
    refine ⟨hcommon, fun hready => ?_⟩
    rw [hrun hready]
    refine ⟨fun he => if_neg (Nat.not_lt.2 he), fun he => ?_⟩
    rw [if_pos he]
    exact ⟨⟨_, verifyResult_eq_zero_or_one .., rfl⟩, fun hbad => by rw [verifyResult_of_bad _ _ hbad]⟩
  · obtain ⟨hpub, hQ⟩ := publicKey_below hinv hsome hnone
    rw [(verify_rule (State.compositeP_of_prime hprime) ra rb rc pub).2 hready, if_pos he, hpub,
      verifyResult_onCurve hinv hprime hG hQ hQc hx hy hg hlt hh]
    rfl

/-! ### ECDH (R379, R382) -/

theorem ecdh_rule {s : State} (hc : s.compositeP = false) (rd : OpIdx) (priv : Option OpIdx) (rb : PtIdx) :
    CommonFirst (.ecdh rd priv rb) s ∧ (s.ready (.ecdh rd priv rb) = true →
      exec (.ecdh rd priv rb) s = s.finish [s.scalarCheck (s.privateKey priv),
          (!(s.mulPoint .ct (s.privateKey priv) (s.ptVal rb)).isInf, .shareKeyError)]
        (s.writeOp rd (s.mulPoint .ct (s.privateKey priv) (s.ptVal rb)).x) 0) :=
  keyCommand_rule hc rfl

/-- Settles O51: the product is that of `State.mulPoint` for CT. -/
theorem ecdhRule : Obligations.EcdhRule := by
  intro rd priv rb s d hinv hd
  obtain rfl : d = s.privateKey priv := hd
  refine ⟨encodes_of_wellFormed rfl, fun hc => (ecdh_rule hc rd priv rb).1, fun hprime hready P hP => ?_⟩
  have hb := (hinv.pt_valid rb P hP).2
  rw [(ecdh_rule (State.compositeP_of_prime hprime) rd priv rb).2 hready, State.ptVal_of_valid hP,
    finish_scalarCheck, State.finish_cons, State.finish_nil]
  refine ⟨fun hlong => if_neg (Nat.not_le.2 hlong), fun hk => ?_⟩
  rw [if_pos hk]
  refine ⟨s.mulPoint .ct (s.privateKey priv) P, s.mulPoint_below hprime.pos _ _ hb,
    fun hc => mulPoint_onCurve hprime (p_ne_two_of_prime hinv hprime) _ hk hb hc, fun hT => ?_, fun x y hT => ?_⟩
  · rw [hT]
    rfl
  · rw [hT]
    rfl

end Sys2Proof.Proofs
end

section
/-! PROOFS. GEN_KEYPAIR (spec 45_keys_signature.md R371, R372): its single moves, and the run in which the platform
delivers the words of rejected tries and then those of an accepted one (60_exceptions.md R445). -/

namespace Sys2Proof.Proofs
open Sys2Proof.Machine

/-! ### The value of a try (R371) -/

theorem wordsValue_eq_ofDigits : ∀ ws : List Word, wordsValue ws = Nat.ofDigits (2 ^ 32) (ws.map BitVec.toNat)
  | [] => rfl
  | w :: ws => by rw [wordsValue, wordsValue_eq_ofDigits ws, List.map_cons, Nat.ofDigits_cons]

theorem wordsValue_eq_sum (ws : List Word) :
    wordsValue ws = (ws.zipIdx.map fun e => e.1.toNat * 2 ^ (32 * e.2)).sum := by
  rw [wordsValue_eq_ofDigits, Nat.ofDigits_eq_sum_mapIdx, List.mapIdx_eq_zipIdx_map, List.zipIdx_map, List.map_map]
  simp only [pow_mul]
  rfl

/-! ### One move (R372) -/

/-- GEN_KEYPAIR has no source, so the context is all that the common checks ask for. -/
theorem genKeypair_commonChecks (s : State) (rd : OpIdx) (re : PtIdx) : firstFailure (s.commonChecks []) =
    if s.ready (.genKeypair rd re) then none else some .contextMismatch :=
  firstFailure_common s (.genKeypair rd re)

theorem genKeypair_checks_none {s : State} {rd : OpIdx} {re : PtIdx} (h : s.ready (.genKeypair rd re) = true) :
    firstFailure (s.commonChecks []) = none := by
  rw [genKeypair_commonChecks s rd re, if_pos h]

/-- An accepted try with a prime p commits the key pair of R372. -/
theorem exec_genKeypair_completes {s : State} {rd : OpIdx} {re : PtIdx} {d : Nat}
    (hready : s.ready (.genKeypair rd re) = true) (hw : s.drawn.length = wordsPerTry s.dom.orderBits)
    (hd : d = sampleValue s.dom.orderBits s.drawn) (h0 : 0 < d) (hlt : d < s.dom.r) (hprime : s.dom.p.Prime) :
    exec (.genKeypair rd re) s =
      .next (((s.writeOp rd d).writePt re (s.mulPoint .ct d s.dom.G)).completeOk 0) := by
  subst hd
  rw [exec_genKeypair_accepts rd re (genKeypair_checks_none hready) (by omega) ⟨h0, hlt⟩,
    s.finishGroup_of_not (State.compositeP_of_prime hprime), State.finish_nil]

/-- Settles O44: the moves of the model, with the number of words and the value of the try of the statement. -/
theorem genKeypairRule : Obligations.GenKeypairRule := by
  intro rd re s nw d hinv hnw hd
  refine ⟨encodes_of_wellFormed rfl, ⟨fun h => (nomatch h), fun _ hready => ?_⟩, fun hready => ?_⟩
  · refine exec_genKeypair_error rd re ?_
    rw [genKeypair_commonChecks s rd re, hready]
    rfl
  · have hv := hinv.dom_valid (dom_set_of_ready hready)
    have hchecks := genKeypair_checks_none hready
    have hbits := hv.orderBits_eq
    obtain rfl : nw = wordsPerTry s.dom.orderBits := by rw [hnw, hbits, wordsPerTry]
    obtain rfl : d = sampleValue s.dom.orderBits s.drawn := by rw [hd, hbits, sampleValue, wordsValue_eq_sum]
    refine ⟨fun hw => exec_genKeypair_asks rd re hchecks hw,
      fun hw hout => exec_genKeypair_rejects rd re hchecks (by omega) hout, fun hw h0 hlt hprime => ?_⟩
    exact ⟨_, s.mulPoint_below hprime.pos _ _ hv.G_below,
      fun hc => mulPoint_onCurve hprime (p_ne_two_of_prime hinv hprime) _ (bitlen_le_orderBits hv hlt) hv.G_below hc,
      exec_genKeypair_completes hready hw rfl h0 hlt hprime⟩

/-! ### Runs -/

/-- `k` steps lead from `u` to `t`, none of them a stop. -/
def Reaches (k : Nat) (u t : State) : Prop :=
  ∀ n, Host.Core.run Sys2Proof.core (k + n) u = Host.Core.run Sys2Proof.core n t

theorem Reaches.refl (u : State) : Reaches 0 u u := fun n => by rw [Nat.zero_add]

theorem Reaches.trans {j k : Nat} {u t v : State} (h : Reaches j u t) (h' : Reaches k t v) :
    Reaches (j + k) u v := fun n => by rw [Nat.add_assoc, h, h']

theorem core_run_succ {M : Host.Core} {u t : M.State} (h : M.step u = .next t) (n : Nat) :
    M.run (n + 1) u = M.run n t := by
  rw [Host.Core.run, h]

theorem reaches_step {u t : State} (h : step u = .next t) : Reaches 1 u t := fun n => by
  rw [Nat.add_comm]
  exact core_run_succ (M := Sys2Proof.core) h n

theorem Reaches.run {k : Nat} {u t : State} (h : Reaches k u t) : Host.Core.run Sys2Proof.core k u = .next t := h 0

/-! ### The words of a try (R371, R445) -/

/-- What the world does to deliver words: each after a move of the sequencer (log entry 5). -/
def deliveries (ws : List Word) : List Input := ws.flatMap fun w => [Input.run, Input.rng w]

/-- A GEN_KEYPAIR in flight under the domain `d`, with no request pending, that has taken the words `ws` of its try and
has the events `inputs` ahead. -/
structure Waiting (rd : OpIdx) (re : PtIdx) (d : Domain) (ws : List Word) (inputs : List Input) (u : State) : Prop where
  busy : u.busy = true
  lastCmd : u.lastCmd = encode (.genKeypair rd re)
  ready : u.ready (.genKeypair rd re) = true
  dom : u.dom = d
  rngReq : u.rngReq = false
  drawn : u.drawn = ws
  inputs : u.inputs = inputs

/-- All the words of a try are taken and its value is not in (0, r) (R371). -/
def Rejected (d : Domain) (ws : List Word) : Prop :=
  ws.length = wordsPerTry d.orderBits ∧ ¬ (0 < sampleValue d.orderBits ws ∧ sampleValue d.orderBits ws < d.r)

section words

variable {rd : OpIdx} {re : PtIdx} {d : Domain} {ws : List Word} {rest : List Input} {u : State}

theorem step_rng {s : State} {w : Word} (h : s.inputs = .rng w :: rest) : step s = .next (s.advance.offerRng w) := by
  simp [step, State.nextInput, h, State.applyInput]

/-- The sequencer's move of a GEN_KEYPAIR in flight. -/
theorem Waiting.step_run (h : Waiting rd re d ws (.run :: rest) u) : step u = exec (.genKeypair rd re) u.advance :=
  step_exec (.inl (by rw [h.inputs]; rfl)) h.busy (by rw [h.lastCmd]; exact decode_encode rfl)

/-- A move that asks for a word is followed by the word, which joins the words that the move keeps. -/
theorem Waiting.takeWord {w : Word} {vs : List Word} (h : Waiting rd re d ws (.run :: .rng w :: rest) u)
    (hasks : exec (.genKeypair rd re) u.advance = .next { u.advance with rngReq := true, drawn := vs }) :
    ∃ t, Reaches 2 u t ∧ Waiting rd re d (vs ++ [w]) rest t := by
  have hin : u.advance.inputs = .rng w :: rest := congrArg List.tail h.inputs
  have hword : step { u.advance with rngReq := true, drawn := vs } =
      .next { u.advance.advance with rngReq := false, drawn := vs ++ [w] } :=
    step_rng (s := { u.advance with rngReq := true, drawn := vs }) hin
  exact ⟨_, (reaches_step (h.step_run.trans hasks)).trans (reaches_step hword),
    h.busy, h.lastCmd, h.ready, h.dom, rfl, rfl, congrArg List.tail hin⟩

/-- A try that lacks words takes the next one. -/
theorem Waiting.nextWord {w : Word} (h : Waiting rd re d ws (.run :: .rng w :: rest) u)
    (hw : ws.length < wordsPerTry d.orderBits) : ∃ t, Reaches 2 u t ∧ Waiting rd re d (ws ++ [w]) rest t := by
  obtain rfl := h.dom
  obtain rfl := h.drawn
  exact h.takeWord (exec_genKeypair_asks (s := u.advance) rd re (genKeypair_checks_none h.ready) hw)

/-- The word after a rejected try is the first of the next try. -/
theorem Waiting.firstWord {w : Word} (h : Waiting rd re d ws (.run :: .rng w :: rest) u) (hr : Rejected d ws) :
    ∃ t, Reaches 2 u t ∧ Waiting rd re d [w] rest t := by
  obtain rfl := h.dom
  obtain rfl := h.drawn
  exact h.takeWord (exec_genKeypair_rejects (s := u.advance) rd re (genKeypair_checks_none h.ready) hr.1.not_lt hr.2)

/-- Words that fit in the try are taken in order. -/
theorem Waiting.nextWords : ∀ (l ws : List Word) (u : State), Waiting rd re d ws (deliveries l ++ rest) u →
    ws.length + l.length ≤ wordsPerTry d.orderBits →
    ∃ t, Reaches (2 * l.length) u t ∧ Waiting rd re d (ws ++ l) rest t
  | [], ws, u, h, _ => ⟨u, .refl u, by rw [List.append_nil]; exact h⟩
  | w :: l, ws, u, h, hle => by
    rw [List.length_cons] at hle
    obtain ⟨t, hut, ht⟩ := h.nextWord (w := w) (by omega)
    obtain ⟨v, htv, hv⟩ := nextWords l (ws ++ [w]) t ht (by rw [List.length_append, List.length_singleton]; omega)
    rw [List.append_assoc, List.singleton_append] at hv
    refine ⟨v, ?_, hv⟩
    rw [List.length_cons, Nat.mul_succ, Nat.add_comm]
    exact hut.trans htv

/-- All the words of one try are taken, from the start or after a rejected try. -/
theorem Waiting.oneTry {l : List Word} (h : Waiting rd re d ws (deliveries l ++ rest) u)
    (hws : ws = [] ∨ Rejected d ws) (hl : l.length = wordsPerTry d.orderBits) (hpos : 0 < wordsPerTry d.orderBits) :
    ∃ t, Reaches (2 * wordsPerTry d.orderBits) u t ∧ Waiting rd re d l rest t := by
  rcases hws with rfl | hr
  · rw [← hl]
    exact nextWords l [] u h (by rw [List.length_nil]; omega)
  · cases l with
    | nil => rw [← hl] at hpos; cases hpos
    | cons w l =>
      obtain ⟨t, hut, ht⟩ := h.firstWord hr
      rw [List.length_cons] at hl
      obtain ⟨v, htv, hv⟩ := nextWords l [w] t ht (by rw [List.length_singleton]; omega)
      refine ⟨v, ?_, hv⟩
      rw [← hl, Nat.mul_succ, Nat.add_comm]
      exact hut.trans htv

/-- Any number of rejected tries leaves the command in flight, before a new try. -/
theorem Waiting.rejectedTries (hpos : 0 < wordsPerTry d.orderBits) : ∀ (tries : List (List Word)) (ws : List Word)
    (u : State), Waiting rd re d ws (deliveries tries.flatten ++ rest) u → (ws = [] ∨ Rejected d ws) →
    (∀ l ∈ tries, Rejected d l) → ∃ t vs, Reaches (2 * (wordsPerTry d.orderBits * tries.length)) u t ∧
      (vs = [] ∨ Rejected d vs) ∧ Waiting rd re d vs rest t
  | [], ws, u, h, hws, _ => ⟨u, ws, .refl u, hws, h⟩
  | l :: tries, ws, u, h, hws, hall => by
    rw [deliveries, List.flatten_cons, List.flatMap_append, List.append_assoc] at h
    obtain ⟨hl, htries⟩ := List.forall_mem_cons.1 hall
    obtain ⟨t, hut, ht⟩ := h.oneTry hws hl.1 hpos
    obtain ⟨v, vs, htv, hvs, hv⟩ := rejectedTries hpos tries l t ht (.inr hl) htries
    refine ⟨v, vs, ?_, hvs, hv⟩
    rw [List.length_cons, Nat.mul_succ, Nat.mul_add, Nat.add_comm]
    exact hut.trans htv

/-- The move after an accepted try completes with its key pair (R372). -/
theorem Waiting.completes (h : Waiting rd re d ws (.run :: rest) u) (hprime : d.p.Prime) (hp : d.p ≠ 2) {n : Nat}
    (hv : d.Valid n) (hG : d.onCurve d.G = true) (hw : ws.length = wordsPerTry d.orderBits) {k : Nat}
    (hk : k = sampleValue d.orderBits ws) (h0 : 0 < k) (hlt : k < d.r) :
    step u = .next (((u.advance.writeOp rd k).writePt re (d.mulRef k d.G)).completeOk 0) := by
  have hexec := h.step_run
  obtain rfl := h.dom
  obtain rfl := h.drawn
  have hpub : u.advance.mulPoint .ct k u.advance.dom.G = u.dom.mulRef k u.dom.G :=
    mulPoint_onCurve (s := u.advance) hprime hp _ (bitlen_le_orderBits hv hlt) hv.G_below hG
  rw [hexec, exec_genKeypair_completes (s := u.advance) h.ready hw hk h0 hlt hprime, hpub]

end words

/-- Settles O45: the rejected tries pass, the last one is taken word by word, and the move after it completes. -/
theorem genKeypairCompletesAfterRejections : Obligations.GenKeypairCompletesAfterRejections := by
  intro rd re s tries ws rest nw d hinv hready hprime hG hbusy hlast hdrawn hreq hnw htries hws hd h0 hlt hin
  have hv := dom_valid_of_prime hinv hprime
  have hpos := wordsPerTry_pos hv
  rw [← hv.orderBits_eq] at hnw htries hd
  obtain rfl : nw = wordsPerTry s.dom.orderBits := hnw
  rw [List.flatMap_append, List.append_assoc] at hin
  obtain ⟨t, vs, hst, hvs, ht⟩ :=
    Waiting.rejectedTries hpos tries [] s ⟨hbusy, hlast, hready, rfl, hreq, hdrawn, hin⟩ (.inl rfl) htries
  obtain ⟨u, htu, hu⟩ := ht.oneTry hvs hws hpos
  have hcompletes := hu.completes hprime (p_ne_two_of_prime hinv hprime) hv hG hws hd h0 hlt
  have hrun := ((hst.trans htu).trans (reaches_step hcompletes)).run
  rw [← Nat.mul_add, ← Nat.mul_succ] at hrun
  refine ⟨_, hrun, congrArg List.tail hu.inputs, rfl, rfl, rfl, rfl, ?_, ?_⟩
  · exact State.op_writeOp_self ..
  · exact State.pt_writePt_self ..

end Sys2Proof.Proofs
end

section
/-! PROOFS. The round trips of keys (spec 45_keys_signature.md R384): what an OK of SIGN and of ECDH says of the state
it started in, and the multiples of G that the other side then computes. -/

namespace Sys2Proof.Proofs
open Sys2Proof.Machine

/-! ### What an OK says -/

/-- A command that makes the common checks first and completes with OK was ready. -/
theorem ready_of_ok {i : Instr} {s t : State} (hcommon : CommonFirst i s) (ht : exec i s = .next t)
    (hok : t.code = .ok) : s.ready i = true := by
  cases hp : s.allPresent i with
  | false =>
    cases ht.symm.trans (hcommon.1 hp)
    cases hok
  | true =>
    cases hr : s.ready i with
    | false =>
      cases ht.symm.trans (hcommon.2 hp hr)
      cases hok
    | true => rfl

/-- Checks that report errors only, and an OK: all of them hold, and the staged state is committed. -/
theorem committed_of_ok {s u t : State} {cs : List Check} {v : Word} (hcodes : .ok ∉ cs.map Prod.snd)
    (ht : s.finish cs u v = .next t) (hok : t.code = .ok) : firstFailure cs = none ∧ t = u.completeOk v := by
  rcases s.finish_cases u v cs with ⟨hnone, h⟩ | ⟨e, he, -, h⟩
  · cases ht.symm.trans h
    exact ⟨hnone, rfl⟩
  · cases ht.symm.trans h
    exact absurd (hok ▸ he) hcodes

/-! ### Sources that pass the common checks (R424, R425) -/

section usable

variable {s : State}

theorem present_of_ready {i : Instr} {x : Src} (h : s.ready i = true) (hx : x ∈ sources i) : s.present x = true :=
  List.all_eq_true.1 (State.allPresent_of_ready h) x hx

theorem ready_of_usable {i : Instr} (hi : s.ctx.init = true) (hs : s.dom.set = true)
    (h : ∀ x ∈ sources i, s.present x = true ∧ s.fresh x = true) : s.ready i = true :=
  ready_of_common_only (commonChecks_none hi hs h)

theorem usable_pt {j : PtIdx} {P : Point} (h : s.pt j = .valid P) :
    s.present (.pt j) = true ∧ s.fresh (.pt j) = true :=
  (s.pt_valid_iff j).1 ⟨P, h⟩

theorem usable_optOp {o : Option OpIdx} (h : ∀ i, o = some i → (s.op i).valid = true) :
    ∀ x ∈ optOpSrc o, s.present x = true ∧ s.fresh x = true := by
  intro x hx
  obtain ⟨i, hi, rfl⟩ := List.mem_map.1 hx
  exact ⟨h i (Option.mem_toList.1 hi), rfl⟩

theorem usable_optPt {o : Option PtIdx} {P : Point} (h : ∀ j, o = some j → s.pt j = .valid P) :
    ∀ x ∈ optPtSrc o, s.present x = true ∧ s.fresh x = true := by
  intro x hx
  obtain ⟨j, hj, rfl⟩ := List.mem_map.1 hx
  exact usable_pt (h j (Option.mem_toList.1 hj))

end usable

/-! ### SIGN and VERIFY -/

/-- What the checks of SIGN ask of the digest `e` and the priv `d` (R375, R380). -/
structure Signable (s : State) (e d : Nat) : Prop where
  digest_lt : e < s.dom.r
  signX_ne : s.signX ≠ 0
  coprime : Nat.gcd s.keyEph.priv s.dom.r = 1
  signY_ne : s.signY e d ≠ 0

/-- The state in which SIGN has committed its signature. -/
def signedState (s : State) (rd re : OpIdx) (e d : Nat) : State :=
  ((s.writeOp rd s.signX).writeOp re (s.signY e d)).completeOk 0

/-- What an OK of SIGN says. -/
theorem signable_of_ok {s t : State} {rd re ra : OpIdx} {priv : Option OpIdx} (hc : s.compositeP = false)
    (ht : exec (.sign rd re ra priv) s = .next t) (hok : t.code = .ok) : s.ready (.sign rd re ra priv) = true ∧
      Signable s (s.opVal ra) (s.privateKey priv) ∧ t = signedState s rd re (s.opVal ra) (s.privateKey priv) := by
  obtain ⟨hcommon, hrun⟩ := sign_rule hc rd re ra priv
  have hready := ready_of_ok hcommon ht hok
  have hcodes : .ok ∉ (signChecks s (s.opVal ra) (s.privateKey priv)).map Prod.snd := by
    simp [signChecks, State.privateKeyCheck]
  obtain ⟨hchecks, hresult⟩ := committed_of_ok hcodes ((hrun hready).symm.trans ht) hok
  have hall := all_of_firstFailure hchecks
  simp only [signChecks, List.forall_mem_cons, decide_eq_true_eq] at hall
  obtain ⟨he, -, hx, hg, hy, -⟩ := hall
  exact ⟨hready, ⟨he, hx, hg, hy⟩, hresult⟩

/-- The point of VERIFY, [e·h]G ⊕ [sx·h]([d]G), is [k]G when k·sy ≡ e + d·sx (mod r) and h is the inverse of sy, for a
G with [r]G = INF. -/
theorem verifyPoint_eq {dom : Domain} (hprime : dom.p.Prime) (hp : dom.p ≠ 2) (hb : dom.G.below dom.p)
    (hG : dom.onCurve dom.G = true) (horder : dom.mulRef dom.r dom.G = .inf) {e d k sx sy h : Nat}
    (hsig : k * sy % dom.r = (e + d * sx) % dom.r) (hh : sy * h % dom.r = 1) :
    dom.add (dom.mulRef (e * h % dom.r) dom.G) (dom.mulRef (sx * h % dom.r) (dom.mulRef d dom.G)) =
      dom.mulRef k dom.G := by
  have hmod : (e * h % dom.r + sx * h % dom.r * d) % dom.r = k % dom.r := by
    have hsig' := (ZMod.natCast_eq_natCast_iff' _ _ dom.r).2 hsig
    refine (ZMod.natCast_eq_natCast_iff' _ _ dom.r).1 ?_
    push_cast [cast_natMod] at hsig' ⊢
    linear_combination -(h : ZMod dom.r) * hsig' + (k : ZMod dom.r) * cast_mul_eq_one hh
  have hreduce := mulRef_mod hprime hp hb hG horder
  rw [← mulRef_mul hprime hp hb hG, ← mulRef_add hprime hp hb hG, ← hreduce, hmod, hreduce]

/-- A finite point whose x is sx mod r is Valid; INF has x = 0 (R10, R377). -/
theorem validResult_of_x {r sx : Nat} {P : Point} (hx : P.x % r = sx) (h0 : sx ≠ 0) : validResult r sx P = 0 := by
  cases P with
  | inf => exact absurd (hx.symm.trans (Nat.zero_mod r)) h0
  | aff x y => exact if_pos hx

/-- VERIFY of a signature made with a matching ephemeral pair computes the ephemeral public key, whose x gave signX
(R384). -/
theorem verifyResult_signature {s : State} (hinv : s.Inv) (hprime : s.dom.p.Prime) (hprimeR : s.dom.r.Prime)
    (hG : s.dom.onCurve s.dom.G = true) (horder : s.dom.mulRef s.dom.r s.dom.G = .inf)
    (hK : s.keyEph.pub = s.dom.mulRef s.keyEph.priv s.dom.G) {e d : Nat} (h : Signable s e d) :
    s.verifyResult e s.signX (s.signY e d) (s.dom.mulRef d s.dom.G) = 0 := by
  have hp := p_ne_two_of_prime hinv hprime
  have hb := (dom_valid_of_prime hinv hprime).G_below
  have hxlt : s.signX < s.dom.r := Nat.mod_lt _ hprimeR.pos
  have hylt : s.signY e d < s.dom.r := Nat.mod_lt _ hprimeR.pos
  have hg : Nat.gcd (s.signY e d) s.dom.r = 1 := by
    rw [Nat.gcd_comm]
    exact Nat.coprime_of_lt_prime h.signY_ne hylt hprimeR
  have hone := invMod_mul_mod hprimeR.one_lt hg
  rw [Nat.mul_comm] at hone
  obtain ⟨hQc, hQ⟩ := mulRef_onCurve hprime hp hb hG d
  rw [verifyResult_onCurve hinv hprime hG hQ hQc hxlt hylt hg (invMod_lt hprimeR.one_lt hg) hone,
    verifyPoint_eq hprime hp hb hG horder (keyEph_mul_signY e d hprimeR.one_lt h.coprime) hone, ← hK]
  exact validResult_of_x rfl h.signX_ne

/-- An operand register that holds a number of at most 544 bits (R40). -/
theorem opVal_of_op {t : State} {i : OpIdx} {v : Nat} (h : t.op i = { valid := true, value := BitVec.ofNat 544 v })
    (hv : v < 2 ^ 544) : t.opVal i = v := by
  rw [State.opVal, h, BitVec.toNat_ofNat, Nat.mod_eq_of_lt hv]

section signed

variable {s : State} {rd re ra : OpIdx} (e d : Nat)

theorem op_signed_ne (hd : rd ≠ ra) (he : re ≠ ra) : (signedState s rd re e d).op ra = s.op ra :=
  (State.op_writeOp_ne _ _ he).trans (State.op_writeOp_ne _ _ hd)

theorem op_signed_rd (hne : rd ≠ re) :
    (signedState s rd re e d).op rd = { valid := true, value := BitVec.ofNat 544 s.signX } :=
  (State.op_writeOp_ne _ _ hne.symm).trans (State.op_writeOp_self ..)

theorem op_signed_re :
    (signedState s rd re e d).op re = { valid := true, value := BitVec.ofNat 544 (s.signY e d) } :=
  State.op_writeOp_self ..

variable {priv : Option OpIdx} {pub : Option PtIdx} {Q : Point} (hinv : s.Inv)
  (hready : s.ready (.sign rd re ra priv) = true) (hne : rd ≠ re) (hrd : ra ≠ rd) (hre : ra ≠ re)
  (hpt : ∀ j, pub = some j → s.pt j = .valid Q)
include hinv hready hne hrd hre hpt

/-- SIGN leaves VERIFY its sources: the digest as it was, the signature, and the points. -/
theorem ready_verify_signed : (signedState s rd re e d).ready (.verify ra rd re pub) = true := by
  have hset := dom_set_of_ready hready
  refine ready_of_usable (hinv.set_init hset) hset fun x hx => ?_
  rcases List.mem_append.1 hx with hx | hx
  · simp only [List.mem_cons, List.not_mem_nil, or_false] at hx
    rcases hx with rfl | rfl | rfl
    · have hvalid := congrArg OpReg.valid (op_signed_ne (s := s) e d hrd.symm hre.symm)
      exact ⟨hvalid.trans (present_of_ready hready (.head _)), rfl⟩
    · exact ⟨congrArg OpReg.valid (op_signed_rd e d hne), rfl⟩
    · exact ⟨congrArg OpReg.valid (op_signed_re e d), rfl⟩
  · exact usable_optPt (s := signedState s rd re e d) hpt x hx

/-- VERIFY after SIGN reads the digest and the signature back. -/
theorem exec_verify_signed (hc : s.compositeP = false) (he : e = s.opVal ra) (hlt : e < s.dom.r) :
    exec (.verify ra rd re pub) (signedState s rd re e d) = .next ((signedState s rd re e d).completeOk
      (s.verifyResult e s.signX (s.signY e d) (s.publicKey pub))) := by
  obtain ⟨-, -, hfits⟩ := engine_bounds hinv (dom_set_of_ready hready) .n
  have hpos : 0 < s.dom.r := Nat.zero_lt_of_lt hlt
  have hdigest : (signedState s rd re e d).opVal ra = e :=
    (congrArg (fun o => o.value.toNat) (op_signed_ne e d hrd.symm hre.symm)).trans he.symm
  have hx := opVal_of_op (op_signed_rd (s := s) e d hne) ((Nat.mod_lt _ hpos).trans hfits)
  have hy := opVal_of_op (op_signed_re (s := s) (rd := rd) (re := re) e d) ((Nat.mod_lt _ hpos).trans hfits)
  rw [(verify_rule (s := signedState s rd re e d) hc ra rd re pub).2
    (ready_verify_signed e d hinv hready hne hrd hre hpt), hdigest, hx, hy]
  exact if_pos hlt

end signed

/-- Settles O52: VERIFY finds the digest and the signature in their registers, and the signature is Valid. -/
theorem signThenVerifyIsValid : Obligations.SignThenVerifyIsValid := by
  intro s t rd re ra priv pub d Q hinv _ hprime hprimeR hG horder hK hd hpub hQ hne hrd hre ht hok
  obtain rfl : d = s.privateKey priv := hd
  have hc := State.compositeP_of_prime hprime
  obtain ⟨hready, hsig, rfl⟩ := signable_of_ok hc ht hok
  obtain ⟨hkey, hpt⟩ : s.publicKey pub = Q ∧ ∀ j, pub = some j → s.pt j = .valid Q := by
    cases pub with
    | none => exact ⟨hpub, fun _ h => nomatch h⟩
    | some q => exact ⟨State.ptVal_of_valid hpub, fun j hj => Option.some.inj hj ▸ hpub⟩
  refine ⟨_, exec_verify_signed _ _ hinv hready hne hrd hre hpt hc rfl hsig.digest_lt, rfl, ?_⟩
  rw [State.completeOk_result, hkey, hQ]
  exact verifyResult_signature hinv hprime hprimeR hG horder hK hsig

/-! ### ECDH -/

/-- What an OK of ECDH says: the product is finite, and its x is the secret (R379, R382). -/
theorem secret_of_ok {s t : State} {rd : OpIdx} {priv : Option OpIdx} {rb : PtIdx} {P : Point} (hinv : s.Inv)
    (hprime : s.dom.p.Prime) (hP : s.pt rb = .valid P) (hc : s.dom.onCurve P = true)
    (ht : exec (.ecdh rd priv rb) s = .next t) (hok : t.code = .ok) : s.ready (.ecdh rd priv rb) = true ∧
      ∃ x y, s.dom.mulRef (s.privateKey priv) P = .aff x y ∧ t = (s.writeOp rd x).completeOk 0 := by
  obtain ⟨-, hcommon, hrule⟩ := ecdhRule rd priv rb s _ hinv rfl
  have hready := ready_of_ok (hcommon (State.compositeP_of_prime hprime)) ht hok
  refine ⟨hready, ?_⟩
  obtain ⟨hlong, hfits⟩ := hrule hprime hready P hP
  rcases Nat.lt_or_ge s.dom.orderBits (bitlen (s.privateKey priv)) with hk | hk
  · cases ht.symm.trans (hlong hk)
    cases hok
  obtain ⟨T, -, hT, hinf, hfinite⟩ := hfits hk
  cases T with
  | inf =>
    cases ht.symm.trans (hinf rfl)
    cases hok
  | aff x y =>
    cases ht.symm.trans (hfinite x y rfl)
    exact ⟨x, y, (hT hc).symm, rfl⟩

/-- A ready ECDH whose product is finite completes with its x. -/
theorem exec_ecdh_secret {s : State} {rd : OpIdx} {priv : Option OpIdx} {rb : PtIdx} {P : Point} {x y : Nat}
    (hinv : s.Inv) (hprime : s.dom.p.Prime) (hready : s.ready (.ecdh rd priv rb) = true) (hP : s.pt rb = .valid P)
    (hc : s.dom.onCurve P = true) (hk : bitlen (s.privateKey priv) ≤ s.dom.orderBits)
    (hT : s.dom.mulRef (s.privateKey priv) P = .aff x y) :
    exec (.ecdh rd priv rb) s = .next ((s.writeOp rd x).completeOk 0) := by
  obtain ⟨-, -, hrule⟩ := ecdhRule rd priv rb s _ hinv rfl
  obtain ⟨T, -, hmul, -, hfinite⟩ := (hrule hprime hready P hP).2 hk
  exact hfinite x y ((hmul hc).trans hT)

/-- Settles O53: both sides compute [da·db]G. -/
theorem ecdhSymmetry : Obligations.EcdhSymmetry := by
  intro s t rd rd' a b da db pa pb hinv _ hprime hG hda hdb hpa hpb hb ht hok
  obtain rfl : da = s.privateKey a := hda
  obtain rfl : db = s.privateKey b := hdb
  have hp := p_ne_two_of_prime hinv hprime
  have hbelow := (dom_valid_of_prime hinv hprime).G_below
  have honCurve := fun k => (mulRef_onCurve hprime hp hbelow hG k).1
  obtain ⟨hready, x, y, hT, rfl⟩ := secret_of_ok hinv hprime hpb (honCurve _) ht hok
  have hset := dom_set_of_ready hready
  rw [← mulRef_mul hprime hp hbelow hG, Nat.mul_comm, mulRef_mul hprime hp hbelow hG] at hT
  have hready' : s.ready (.ecdh rd' b pa) = true := by
    refine ready_of_usable (hinv.set_init hset) hset fun z hz => ?_
    rcases List.mem_append.1 hz with hz | hz
    · exact usable_optOp (fun i hi => (hb i hi).1) z hz
    · rw [List.mem_singleton.1 hz]
      exact usable_pt hpa
  have hbits : bitlen (s.privateKey b) ≤ s.dom.orderBits := by
    cases b with
    | none => exact (bitlen_le_iff _ _).2 hinv.keyReg_within.1
    | some i => exact (hb i rfl).2
  refine ⟨_, exec_ecdh_secret hinv hprime hready' hpa (honCurve _) hbits hT, rfl, ?_⟩
  have hread : ∀ r, ((s.writeOp r x).completeOk 0).opVal r = (BitVec.ofNat 544 x).toNat :=
    fun r => congrArg (fun o => o.value.toNat) (s.op_writeOp_self r x)
  rw [hread, hread]

end Sys2Proof.Proofs
end

section
/-! PROOFS. Completion, errors and the interrupt (spec 60_exceptions.md R421 to R445): how a command in flight ends,
what an error leaves, when the interrupt is asserted and how random words are taken. -/

namespace Sys2Proof.Proofs
open Sys2Proof.Machine

/-! ### Completion (R421 to R423) -/

/-- Settles O9: an OK and an error are completions by `State.close`, and only GEN_KEYPAIR answers otherwise. -/
theorem everyCommandCompletesOnce : Obligations.EveryCommandCompletesOnce := by
  intro i s hb
  rcases exec_answers i s with ⟨u, v, -, ho⟩ | ⟨e, v, he, -, -, ho⟩ | ⟨hi, ho | ho⟩
  · exact ⟨_, ho, .inl ⟨rfl, rfl, List.mem_cons_self, rfl, rfl, rfl⟩⟩
  · exact ⟨_, ho, .inl ⟨rfl, rfl, List.mem_cons_of_mem _ he, rfl, rfl, rfl⟩⟩
  all_goals exact ⟨_, ho, .inr ⟨hi, hb, rfl, rfl⟩⟩

/-- Settles O10: of the three kinds of answer only an error completes with a code other than OK, and it closes the
state without the staged writes. -/
theorem errorsChangeNothing : Obligations.ErrorsChangeNothing := by
  intro i s t hb ht hidle hcode
  rcases exec_answers i s with ⟨u, v, -, ho⟩ | ⟨e, v, -, -, hv, ho⟩ | ⟨-, ho | ho⟩
  all_goals cases ht.symm.trans ho
  · exact absurd rfl hcode
  · exact ⟨rfl, rfl, rfl, rfl, rfl, rfl, hv⟩
  all_goals exact absurd hb (Bool.eq_false_iff.1 hidle)

/-! ### The interrupt (R429) -/

theorem irq_of_not_done {s : State} (h : s.done = false) : s.irq = false := by
  simp [State.irq, h]

theorem irq_of_not_enabled {s : State} (h : s.irqEn = false) : s.irq = false := by
  simp [State.irq, h]

/-- A command in flight that leaves the sequencer idle has set DONE (R422). -/
theorem done_of_exec {i : Instr} {s t : State} (hb : s.busy = true) (ht : exec i s = .next t)
    (hidle : t.busy = false) : t.done = true := by
  obtain ⟨t', ht', hend⟩ := everyCommandCompletesOnce i s hb
  cases ht.symm.trans ht'
  rcases hend with ⟨-, hdone, -⟩ | ⟨-, hbusy, -⟩
  · exact hdone
  · exact absurd hbusy (Bool.eq_false_iff.1 hidle)

/-- After a completion, OK or error, the interrupt is IRQ_EN. -/
theorem irq_of_exec {i : Instr} {s t : State} (hb : s.busy = true) (ht : exec i s = .next t)
    (hidle : t.busy = false) : t.irq = s.irqEn := by
  obtain ⟨-, -, -, -, hirqEn, -⟩ := controlFrame i s t ht
  rw [State.irq, done_of_exec hb ht hidle, hirqEn, Bool.and_true]

theorem busWrite_ctrl (s : State) (v : Word) : s.busWrite 0x008 .word v =
    { (if v.getLsbD 1 then s.toReset else { s with irqEn := v.getLsbD 0 }) with resp := okayWrite } :=
  busWrite_word (by decide) v

theorem busWrite_status (s : State) (v : Word) : s.busWrite 0x00C .word v =
    { s with done := s.done && !v.getLsbD 1, ovr := s.ovr && !v.getLsbD 3, resp := okayWrite } :=
  busWrite_word (by decide) v

/-- A CTRL write that clears IRQ_EN or resets lowers the interrupt (R35). -/
theorem irq_busWrite_ctrl (s : State) {v : Word} (hv : v.getLsbD 0 = false ∨ v.getLsbD 1 = true) :
    (s.busWrite 0x008 .word v).irq = false := by
  apply irq_of_not_enabled
  rw [busWrite_ctrl]
  by_cases h1 : v.getLsbD 1 = true
  · rw [if_pos h1]; rfl
  · rw [if_neg h1]
    exact hv.resolve_right h1

/-- Settles O60: each event that lowers the interrupt clears one of its two terms, and a completion sets DONE. -/
theorem irqLevel : Obligations.IrqLevel := by
  refine ⟨fun _ => rfl, fun s hinv hb => irq_of_not_done (hinv.busy_done hb), fun i s t => irq_of_exec,
    fun s v hv => ?_, fun s v hb => ?_, fun s v => irq_busWrite_ctrl s, fun _ => rfl, fun s v hv => ?_, rfl⟩
  · rw [busWrite_status]
    exact irq_of_not_done (by simp [hv])
  · rw [busWrite_cmd_idle hb]
    exact irq_of_not_done rfl
  · rw [busWrite_ctrl, if_neg (Bool.eq_false_iff.1 hv)]

/-! ### The RNG handshake (R445, R371) -/

theorem offerRng_requested {s : State} (h : s.rngReq = true) (w : Word) :
    s.offerRng w = { s with rngReq := false, drawn := s.drawn ++ [w] } := if_pos h

theorem offerRng_not_requested {s : State} (h : s.rngReq = false) (w : Word) : s.offerRng w = s :=
  if_neg (Bool.eq_false_iff.1 h)

/-- From `s` to `t` no word was taken and no request was raised. -/
structure RngQuiet (s t : State) : Prop where
  drawn : t.drawn.length ≤ s.drawn.length
  rngReq : t.rngReq = true → s.rngReq = true

theorem rngQuiet_of_eq {s t : State} (hd : t.drawn = s.drawn) (hr : t.rngReq = s.rngReq) : RngQuiet s t :=
  ⟨(congrArg List.length hd).le, hr.symm.trans⟩

/-- Where the handshake is dropped, by a completion or a reset, nothing is taken or requested (R422, R66). -/
theorem rngQuiet_of_dropped {s t : State} (hd : t.drawn = []) (hr : t.rngReq = false) : RngQuiet s t :=
  ⟨by simp [hd], fun h => by rw [hr] at h; cases h⟩

/-- A write reaches the handshake only by a soft reset. -/
theorem rngQuiet_writeWord (s : State) (a : Offset) (v : Word) : RngQuiet s (s.writeWord a v) := by
  unfold State.writeWord
  cases target a with
  | ctrl => dsimp only; split; exacts [rngQuiet_of_dropped rfl rfl, rngQuiet_of_eq rfl rfl]
  | cmd | opValid | opWord => dsimp only; split <;> exact rngQuiet_of_eq rfl rfl
  | status | id | caps | result | ptState | config | padding | reserved => exact rngQuiet_of_eq rfl rfl

theorem rngQuiet_busRead (s : State) (a : Offset) (width : AccessWidth) : RngQuiet s (s.busRead a width) := by
  rw [busRead_eq]
  exact rngQuiet_of_eq rfl rfl

theorem rngQuiet_busWrite (s : State) (a : Offset) (width : AccessWidth) (v : Word) :
    RngQuiet s (s.busWrite a width v) := by
  unfold State.busWrite
  split
  · obtain ⟨hd, hr⟩ := rngQuiet_writeWord s a v
    exact ⟨hd, hr⟩
  · exact rngQuiet_of_eq rfl rfl

/-- A move of a command takes no word, and raises a request only in GEN_KEYPAIR. -/
theorem rng_of_exec {i : Instr} {s t : State} (ht : exec i s = .next t) :
    RngQuiet s t ∨ (t.drawn.length ≤ s.drawn.length ∧ ∃ rd re, i = .genKeypair rd re) := by
  rcases exec_answers i s with ⟨u, v, -, ho⟩ | ⟨e, v, -, -, -, ho⟩ | ⟨hi, ho | ho⟩
  all_goals cases ht.symm.trans ho
  · exact .inl (rngQuiet_of_dropped rfl rfl)
  · exact .inl (rngQuiet_of_dropped rfl rfl)
  · exact .inr ⟨le_rfl, hi⟩
  · exact .inr ⟨Nat.zero_le _, hi⟩

/-- The sequencer takes no word, and raises a request only for a GEN_KEYPAIR in flight. -/
theorem rng_of_sequencer {s t : State} (ht : s.sequencer = .next t) :
    RngQuiet s t ∨ (t.drawn.length ≤ s.drawn.length ∧ s.busy = true ∧
      ∃ rd re, decode s.lastCmd = .ok (.genKeypair rd re)) := by
  cases hb : s.busy with
  | false =>
    cases ht.symm.trans (sequencer_idle hb)
    exact .inl (rngQuiet_of_eq rfl rfl)
  | true =>
    cases hd : decode s.lastCmd with
    | error e =>
      cases ht.symm.trans (sequencer_illegal hb hd)
      exact .inl (rngQuiet_of_dropped rfl rfl)
    | ok i =>
      rw [sequencer_exec hb hd] at ht
      rcases rng_of_exec ht with hq | ⟨hlen, rd, re, rfl⟩
      · exact .inl hq
      · exact .inr ⟨hlen, rfl, rd, re, rfl⟩

/-- All that an input can do to the handshake: nothing, take the word it offers on request, or let a GEN_KEYPAIR in
flight ask for one. -/
theorem rng_of_applyInput {s t : State} {x : Input} (ht : s.applyInput x = .next t) :
    RngQuiet s t ∨ (s.rngReq = true ∧ t.rngReq = false ∧ ∃ w, x = .rng w) ∨
      (t.drawn.length ≤ s.drawn.length ∧ s.busy = true ∧ ∃ rd re, decode s.lastCmd = .ok (.genKeypair rd re)) := by
  cases x with
  | read a width =>
    simp only [State.applyInput] at ht
    split at ht <;> cases ht
    exact .inl (rngQuiet_busRead s a width)
  | write a width v =>
    simp only [State.applyInput] at ht
    split at ht <;> cases ht
    exact .inl (rngQuiet_busWrite s a width v)
  | rng w =>
    cases ht
    cases hr : s.rngReq with
    | true => rw [offerRng_requested hr]; exact .inr (.inl ⟨rfl, rfl, w, rfl⟩)
    | false => rw [offerRng_not_requested hr]; exact .inl (rngQuiet_of_eq rfl rfl)
  | run => exact (rng_of_sequencer ht).imp_right .inr
  | resetAssert => cases ht; exact .inl (rngQuiet_of_dropped rfl rfl)
  | resetRelease => cases ht; exact .inl (rngQuiet_of_eq rfl rfl)

/-- The sequencer's own move is the only event that does not come from the list of inputs (log entry 1). -/
theorem head?_of_nextInput_rng {s : State} {w : Word} (h : s.nextInput = .rng w) :
    s.inputs.head? = some (.rng w) := by
  unfold State.nextInput at h
  cases hin : s.inputs with
  | nil => rw [hin] at h; cases h
  | cons x rest => rw [hin] at h; exact congrArg some h

/-- Settles O46: a step is the effect of one input, and of the three things that can do to the handshake only the
offer on request takes a word and only GEN_KEYPAIR raises a request. -/
theorem rngWordsTakenOnlyOnRequest : Obligations.RngWordsTakenOnlyOnRequest := by
  refine ⟨fun s w => ⟨fun h => offerRng_requested h w, fun h => offerRng_not_requested h w⟩,
    fun s t ht hlen => ?_, fun s t ht hs hreq => ?_⟩
  · rcases rng_of_applyInput ht with hq | ⟨hr, -, w, hw⟩ | ⟨hle, -⟩
    · exact absurd hlen hq.drawn.not_gt
    · exact ⟨hr, w, head?_of_nextInput_rng hw⟩
    · exact absurd hlen hle.not_gt
  · rcases rng_of_applyInput ht with hq | ⟨-, hr, -⟩ | ⟨-, hgen⟩
    · exact absurd (hq.rngReq hreq) (Bool.eq_false_iff.1 hs)
    · exact absurd hreq (Bool.eq_false_iff.1 hr)
    · exact hgen

end Sys2Proof.Proofs
end

section
/-! PROOFS. Reset and hazards (spec 70_reset_and_hazards.md R470 to R475): the one stop of the machine, what each write
does while a command is in flight, and the reset state that both resets leave. -/

namespace Sys2Proof.Proofs
open Sys2Proof.Machine

/-! ### The one stop (R470) -/

/-- A host access (R91), the only event that R470 leaves without a step. -/
def IsBusAccess (x : Input) : Prop := (∃ a w, x = .read a w) ∨ ∃ a w v, x = .write a w v

/-- An event other than the sequencer's move comes from the list of inputs (log entry 1). -/
theorem nextInput_eq_iff (s : State) {x : Input} (hx : x ≠ .run) : s.nextInput = x ↔ s.inputs.head? = some x := by
  unfold State.nextInput
  cases s.inputs with
  | nil => simp [hx.symm]
  | cons y rest => simp

theorem isBusAccess_nextInput (s : State) : IsBusAccess s.nextInput ↔
    (∃ a w, s.inputs.head? = some (.read a w)) ∨ ∃ a w v, s.inputs.head? = some (.write a w v) :=
  or_congr (exists₂_congr fun _ _ => nextInput_eq_iff s nofun) (exists₃_congr fun _ _ _ => nextInput_eq_iff s nofun)

/-- The meaning of every command ends in a next state (R422). -/
theorem exec_next (i : Instr) (s : State) : ∃ t, exec i s = .next t := by
  rcases exec_answers i s with ⟨_, _, -, ho⟩ | ⟨_, _, -, -, -, ho⟩ | ⟨-, ho | ho⟩
  all_goals exact ⟨_, ho⟩

/-- So does a move of the sequencer: it idles, completes an illegal word or runs the command in flight. -/
theorem sequencer_next (s : State) : ∃ t, s.sequencer = .next t := by
  cases hb : s.busy with
  | false => exact ⟨_, sequencer_idle hb⟩
  | true =>
    cases hd : decode s.lastCmd with
    | error e => exact ⟨_, sequencer_illegal hb hd⟩
    | ok i => rw [sequencer_exec hb hd]; exact exec_next i s

theorem applyInput_access_inReset {s : State} {x : Input} (hr : s.inReset = true) (hx : IsBusAccess x) :
    s.applyInput x = .fault .accessDuringReset := by
  rcases hx with ⟨a, w, rfl⟩ | ⟨a, w, v, rfl⟩ <;> exact if_pos hr

theorem step_access_inReset {s : State} (hr : s.inReset = true) (hx : IsBusAccess s.nextInput) :
    step s = .fault .accessDuringReset :=
  applyInput_access_inReset (s := s.advance) hr hx

/-- Every other event has a next state. -/
theorem applyInput_next {s : State} {x : Input} (h : ¬ (s.inReset = true ∧ IsBusAccess x)) :
    ∃ t, s.applyInput x = .next t := by
  cases x with
  | read a w => exact ⟨_, if_neg fun hr => h ⟨hr, .inl ⟨a, w, rfl⟩⟩⟩
  | write a w v => exact ⟨_, if_neg fun hr => h ⟨hr, .inr ⟨a, w, v, rfl⟩⟩⟩
  | rng | resetAssert | resetRelease => exact ⟨_, rfl⟩
  | run => exact sequencer_next s

/-- Settles O8: a step is the effect of its event, which faults on a host access in reset and otherwise has a next
state. -/
theorem stepStopsOnlyInReset : Obligations.StepStopsOnlyInReset := by
  intro s
  rw [← isBusAccess_nextInput]
  by_cases h : s.inReset = true ∧ IsBusAccess s.nextInput
  · rw [step_access_inReset h.1 h.2]
    exact ⟨nofun, fun _ => h, fun _ => ⟨_, rfl⟩⟩
  · obtain ⟨t, hstep⟩ : ∃ t, step s = .next t := applyInput_next (s := s.advance) h
    rw [hstep]
    exact ⟨nofun, nofun, fun h' => absurd h' h⟩

/-! ### Writes while a command is in flight (R475) -/

theorem busWrite_window_busy {s : State} (hb : s.busy = true) (i : OpIdx) {j : Fin 32} (h : j.val < 17) (v : Word) :
    s.busWrite (windowOffset i j) .word v = { s with ovr := true, resp := okayWrite } := by
  simp [busWrite_word (windowOffset_aligned i j), State.writeWord, target_window_word i h, hb, State.overrun]

theorem busWrite_opValid_busy {s : State} (hb : s.busy = true) (v : Word) :
    s.busWrite 0x018 .word v = { s with ovr := true, resp := okayWrite } := by
  rw [busWrite_word (by decide), writeWord_opValid, if_pos hb]; rfl

theorem busWrite_ctrl_irqEn (s : State) {v : Word} (hv : v.getLsbD 1 = false) :
    s.busWrite 0x008 .word v = { s with irqEn := v.getLsbD 0, resp := okayWrite } := by
  rw [busWrite_ctrl, if_neg (Bool.eq_false_iff.1 hv)]

/-- The soft reset of R471. -/
theorem busWrite_ctrl_reset (s : State) {v : Word} (hv : v.getLsbD 1 = true) : s.busWrite 0x008 .word v =
    { State.reset with resp := okayWrite, inputs := s.inputs, choice := s.choice } := by
  rw [busWrite_ctrl, if_pos hv]; rfl

/-- The read-only registers of R32. -/
theorem busWrite_readOnly (s : State) {a : Offset} (ha : a ∈ [(0x000 : Offset), 0x004, 0x014, 0x01C, 0x020])
    (v : Word) : s.busWrite a .word v = { s with resp := okayWrite } := by
  fin_cases ha <;> exact busWrite_word (by decide) v

/-- Settles O55: each address names its register, and only the write of an operand word or of OPVALID reads BUSY. -/
theorem writesWhileBusy : Obligations.WritesWhileBusy := by
  refine fun s v => ⟨fun hb => ⟨fun i j h => ?_, busWrite_opValid_busy hb v⟩, busWrite_ctrl_irqEn s,
    busWrite_ctrl_reset s, busWrite_status s v, fun i j h => busWrite_window_padding s i h v, ?_⟩
  · exact busWrite_window_busy hb i (Nat.lt_succ_of_le h) v
  · rintro a ha (hro | hres)
    · exact busWrite_readOnly s hro v
    · exact busWrite_reserved s ha (target_reserved hres) v

/-! ### Both resets (R470, R471) -/

theorem isReset_inReset {s : State} (h : s.isReset) (b : Bool) : State.isReset { s with inReset := b } := by
  have h' := congrArg (fun u : State => { u with inReset := b }) h
  exact h'

theorem isReset_advance {s : State} (h : s.isReset) : s.advance.isReset := isReset_world h _ _ _

/-- The block in its reset state is idle and has no RNG request, so no event but a host access changes it. -/
theorem isReset_applyInput {s t : State} {x : Input} (h : s.isReset) (hx : ¬ IsBusAccess x)
    (ht : s.applyInput x = .next t) : t.isReset := by
  cases x with
  | read a w => exact absurd (.inl ⟨a, w, rfl⟩) hx
  | write a w v => exact absurd (.inr ⟨a, w, v, rfl⟩) hx
  | rng w =>
    cases ht
    have hreq : s.rngReq = false := congrArg State.rngReq h
    rwa [offerRng_not_requested hreq]
  | run =>
    have hidle : s.busy = false := congrArg State.busy h
    cases (sequencer_idle hidle).symm.trans ht
    exact h
  | resetAssert => cases ht; exact rfl
  | resetRelease => cases ht; exact isReset_inReset h false

/-- Settles O59: while rst_n = 0 the state is the reset state by the invariant, a host access faults, and no other
event changes it. -/
theorem resetRule : Obligations.ResetRule := by
  refine ⟨fun s v => busWrite_ctrl_reset s, fun _ => rfl, fun s h => ⟨isReset_inReset h false, rfl⟩,
    fun s t hinv hr ht => ?_⟩
  refine isReset_applyInput (isReset_advance (hinv.held hr)) (fun hx => ?_) ht
  cases (step_access_inReset hr hx).symm.trans ht

end Sys2Proof.Proofs
end
